-- ==== Sys2Proof/Word.lean ====
section
/-! DEFINITION. The plain word types of HTB and the arithmetic abbreviation of rule R5. -/

namespace Sys2Proof

/-- One byte: a symbol, a data byte, a container byte (R3, `SYM_W` = 8). -/
abbrev Byte := BitVec 8

/-- A `NODE` index as `ROOT`, `WALK`, `QUEUE[j]`, `NODE[i].L` and `NODE[i].R` hold it: 9 bits (R17, R19, R21). -/
abbrev NodeIdx := BitVec 9

/-- A frequency count as `FREQ[s].CNT` and a header entry hold it: 32 bits (R3 `CNT_W`, R18). -/
abbrev Count := BitVec 32

/-- A tree node's count: 40 bits (R4 `NCNT_W`, R19). -/
abbrev NodeCount := BitVec 40

/-- `ceil8(t) = (t + 7) div 8` (R5): the bytes that `t` bits fill. -/
def ceil8 (t : Nat) : Nat := (t + 7) / 8

/-- `HDR_BYTES(N) = 2 + 5*N` (R3): the length of a header of `n` entries. -/
def hdrBytes (n : Nat) : Nat := 2 + 5 * n

end Sys2Proof
end

