-- ==== Sys2Proof/Syntax.lean ====
section
/-! DEFINITION. The operations of HTB (one constructor of `Instr` per row of spec/opcode_table.json), the
two encoding formats, the sequencer's names, the error kinds, and what the host can do (R73, R74, R160). -/

namespace Sys2Proof

/-- The eleven operations of the opcode table: the two host commands and the nine phases (R61).
No operation has an operand field: each is its code alone. -/
inductive Instr where
  /-- `CMD.OP` = 0x01 (R121). -/
  | encode
  /-- `CMD.OP` = 0x02 (R126). -/
  | decode
  /-- `PHASE` = 1, the frequency analyzer (R80). -/
  | fcount
  /-- `PHASE` = 2, the ordered leaf list (R82). -/
  | mkleaf
  /-- `PHASE` = 3, the tree builder (R86). -/
  | tbuild
  /-- `PHASE` = 4, the code-table generator (R95). -/
  | cgen
  /-- `PHASE` = 5, the bit packer (R110). -/
  | bpack
  /-- `PHASE` = 6, the header serializer (R101). -/
  | ftser
  /-- `PHASE` = 7, the header deserializer (R104). -/
  | ftdes
  /-- `PHASE` = 8, the bit unpacker (R113). -/
  | bunpk
  /-- `PHASE` = 9, the tree walker (R115). -/
  | twalk
deriving DecidableEq, Repr

/-- An encoded operation in one of the two formats of R60: the 8-bit value the host writes to register 0,
or the 4-bit value of the `PHASE` register. The same number means different operations in the two. -/
inductive OpWord where
  | cmd   (op : BitVec 8)
  | phase (ph : BitVec 4)
deriving DecidableEq, Repr

/-- `MODE` (R14): 0 for ENCODE, 1 for DECODE. -/
inductive Mode where
  | encode
  | decode
deriving DecidableEq, Repr

/-- `PHASE` (R14): IDLE or the phase being executed. The codes 10..15 never occur (R62, U14). -/
inductive Phase where
  | idle | fcount | mkleaf | tbuild | cgen | bpack | ftser | ftdes | bunpk | twalk
deriving DecidableEq, Repr

/-- The seven error kinds (R140). -/
inductive ErrKind where
  | emptyInput | tooShort | truncatedHeader | invalidEntryCount | emptyPayload | corruptTree | badPadding
deriving DecidableEq, Repr

/-- One host transaction (R73), and the host write to `OUT` that R42 says is ignored.
`wr` carries as many bits as the widest register has (40). -/
inductive HostTxn where
  /-- Write register `reg`. -/
  | wr     (reg : Nat) (v : BitVec 40)
  /-- Read register `reg`. -/
  | rd     (reg : Nat)
  /-- Write one byte of `IN`. -/
  | wrbIn  (a : BitVec 32) (v : Byte)
  /-- Read one byte of `IN`. -/
  | rdbIn  (a : BitVec 32)
  /-- Write one byte of `OUT`: ignored (R42). -/
  | wrbOut (a : BitVec 40) (v : Byte)
  /-- Read one byte of `OUT`. -/
  | rdbOut (a : BitVec 40)
deriving DecidableEq, Repr

/-- One entry of the script that stands for everything outside HTB: a transaction, the pseudo-transactions
of R74 that need more than a fixed list of transactions, the platform's reset (R160), and `yield`, by which
the host lets the core take one step (so that a script can say where a transaction lands among the phases). -/
inductive HostEvent where
  | txn      (t : HostTxn)
  | yield
  /-- `WAIT`: read `STATUS` until `DONE` is 1. -/
  | wait
  /-- `COPYBACK`: copy `OUT[0..OUT_LEN-1]` to `IN` and write `IN_LEN`. -/
  | copyBack
  /-- One `RDB OUT[a]` giving v, then `WRB IN[a], v`, of a `COPYBACK`. -/
  | copyByte (a : BitVec 32)
  /-- The platform asserts reset. -/
  | reset
deriving DecidableEq, Repr

/-- The mode or modes in which the sequencer runs an operation: the sequences of R122, the `mode` column of
the opcode table. A command is accepted whatever `MODE` the last command left. -/
def Instr.runsIn : Instr → Mode → Bool
  | .encode, _ => true
  | .decode, _ => true
  | .fcount, m => m == .encode
  | .mkleaf, _ => true
  | .tbuild, _ => true
  | .cgen,   m => m == .encode
  | .bpack,  m => m == .encode
  | .ftser,  m => m == .encode
  | .ftdes,  m => m == .decode
  | .bunpk,  m => m == .decode
  | .twalk,  m => m == .decode

end Sys2Proof
end

