-- ==== Sys2Proof/Machine/Datapath.lean ====
section
/-! DEFINITION. The shapes of the internal tables and the working registers of the datapath (R17 to R23).
They are types of their own, before Config, because Config's free values have these types. -/

namespace Sys2Proof.Machine

/-- One slot of `NODE` (R19): a leaf (`LEAF` = 1: `SYM`, `CNT`) or an internal node (`LEAF` = 0: `CNT`, `L`, `R`).
The fields the spec calls meaningless for a kind of node are not there. -/
inductive Node where
  | leaf  (SYM : Byte) (CNT : NodeCount)
  | inner (CNT : NodeCount) (L R : NodeIdx)
deriving DecidableEq, Repr

/-- One entry of `CODE` with `V` = 1 (R22, R68): bit pattern and bit length. -/
structure Code where
  /-- The bit pattern, 64 bits. -/
  PAT : BitVec 64
  /-- The bit length, 7 bits (0..64). -/
  LEN : BitVec 7
deriving DecidableEq, Repr

/-- `FREQ[0..255]` (R18): `none` is `P` = 0, `some c` is `P` = 1 with `CNT` = c. -/
abbrev FreqTable := Vector (Option Count) 256

/-- `CODE[0..255]` (R22): `none` is `V` = 0. -/
abbrev CodeTable := Vector (Option Code) 256

/-- The working registers (R17, R23) and the internal tables (R18, R19, R21, R22), all of them internal, all of
them unspecified once a command has completed (R29). -/
structure Work where
  LEN   : BitVec 32
  N16   : BitVec 16
  NSYM  : BitVec 9
  TREE  : Bool
  ROOT  : NodeIdx
  HLEN  : BitVec 19
  PLEN  : BitVec 32
  PADB  : BitVec 8
  PADC  : BitVec 3
  ACC   : BitVec 64
  ACCN  : BitVec 7
  OPTR  : BitVec 40
  TBITS : BitVec 40
  BPOS  : BitVec 40
  WALK  : NodeIdx
  EMIT  : BitVec 40
  FREQ  : FreqTable
  /-- `NODE[0..NNODE-1]`, slot `i` at position `i`. A slot at `NNODE` or above holds no value (R163, U4). -/
  NODE  : List Node
  /-- `QUEUE[0..QN-1]`, position `j` at position `j`. -/
  QUEUE : List NodeIdx
  CODE  : CodeTable
deriving DecidableEq, Repr, Inhabited

/-- The register `NNODE` (R17): the number of `NODE` slots in use. Stored once, as the length of `NODE`. -/
def Work.NNODE (w : Work) : BitVec 9 := BitVec.ofNat 9 w.NODE.length

/-- The register `QN` (R17): the number of entries in `QUEUE`. Stored once, as the length of `QUEUE`. -/
def Work.QN (w : Work) : BitVec 9 := BitVec.ofNat 9 w.QUEUE.length

/-- The values the model names for the working registers and tables at power-on: zero and empty.
The spec gives none (R30). DESIGN CHOICE, notes/assumptions/3.md. -/
def Work.zero : Work where
  LEN := 0
  N16 := 0
  NSYM := 0
  TREE := false
  ROOT := 0
  HLEN := 0
  PLEN := 0
  PADB := 0
  PADC := 0
  ACC := 0
  ACCN := 0
  OPTR := 0
  TBITS := 0
  BPOS := 0
  WALK := 0
  EMIT := 0
  FREQ := Vector.replicate 256 none
  NODE := []
  QUEUE := []
  CODE := Vector.replicate 256 none

end Sys2Proof.Machine
end

