-- ==== Sys2Proof/Config.lean ====
section
/-! DEFINITION. What an implementation fixes (R4), and the free values: the values the spec calls unspecified
("any value", 93 Part 1). A free value is a constant with no body applied to a draw number, so that nothing can be
proved of it; State counts the draws. -/

namespace Sys2Proof

/-- The open parameters of R4 that matter to the machine: the bytes of `IN` and of `OUT` an implementation
provides (R43). `REG_MAP` is the platform's: the model's host names registers by number (R10). -/
structure Config where
  inCap  : Nat
  outCap : Nat
deriving DecidableEq, Repr

/-- The defaults of R4 and R43: 2^32 - 1 and 2^40 - 1, which no command can exceed. -/
def Config.default : Config where
  inCap  := 2 ^ 32 - 1
  outCap := 2 ^ 40 - 1

/-- The working registers and tables when they have become unspecified: after a command (R29, U5), after a reset
of the platform (R30). Argument: the draw. -/
opaque Config.freeWork : Nat → Machine.Work

/-- `MODE` after a reset of the platform (R30: unspecified). Argument: the draw. -/
opaque Config.freeMode : Nat → Bool

/-- What an unspecified byte of `OUT` reads as (R48, R55, U1, U2, U4). Arguments: the draw at which the bytes
became unspecified, the address. -/
opaque Config.freeOut : Nat → Nat → Byte

/-- What a byte of `IN` that the host has not written since reset reads as for the host (U4; for the core such a
read is a fault, U15). Arguments: the draw at which the bytes became unspecified, the address. -/
opaque Config.freeIn : Nat → Nat → Byte

/-- What a host read of `ERR`, `OUT_LEN` or a byte of `OUT` returns while a command runs (R52, U3).
Argument: the draw. -/
opaque Config.freeBusyRead : Nat → BitVec 40

end Sys2Proof
end

