-- ==== Sys2Proof/WellFormed.lean ====
section
/-! DEFINITION. What it takes for an operation, an encoded word and a host event to be well formed.
An `Instr` has no operand, so there is nothing in it to be out of range; what can be ill formed is a phase in
the wrong mode (R122), a reserved word (R62) and a transaction on something that does not exist (R10, R41, R42). -/

namespace Sys2Proof

/-- Every term of `Instr` is well formed: no operation has an operand field (R60). -/
def Instr.wf : Instr → Bool
  | .encode | .decode | .fcount | .mkleaf | .tbuild | .cgen | .bpack | .ftser | .ftdes | .bunpk | .twalk => true

/-- The successor table of R122, as which `PHASE` may follow which in each mode. -/
def Phase.mayFollow : Mode → Phase → Phase → Bool
  | .encode, .idle,   .fcount => true
  | .encode, .fcount, .mkleaf => true
  | .encode, .mkleaf, .tbuild => true
  | .encode, .tbuild, .cgen   => true
  | .encode, .cgen,   .bpack  => true
  | .encode, .bpack,  .ftser  => true
  | .encode, .ftser,  .idle   => true
  | .decode, .idle,   .ftdes  => true
  | .decode, .ftdes,  .mkleaf => true
  | .decode, .mkleaf, .tbuild => true
  | .decode, .tbuild, .bunpk  => true
  | .decode, .bunpk,  .twalk  => true
  | .decode, .twalk,  .idle   => true
  | _, _, _ => false

/-- The phases each mode runs through (R122); IDLE belongs to both. -/
def Phase.occursIn : Mode → Phase → Bool
  | _, .idle => true
  | .encode, .fcount | .encode, .mkleaf | .encode, .tbuild | .encode, .cgen | .encode, .bpack | .encode, .ftser => true
  | .decode, .ftdes | .decode, .mkleaf | .decode, .tbuild | .decode, .bunpk | .decode, .twalk => true
  | _, _ => false

/-- A word that encodes an operation: `CMD.OP` 0x01 or 0x02, `PHASE` 1..9 (R61, R62). -/
def OpWord.wf : OpWord → Bool
  | .cmd op => op == 0x01 || op == 0x02
  | .phase ph => decide (1 ≤ ph.toNat) && decide (ph.toNat ≤ 9)

/-- A transaction this spec gives a meaning in an implementation with `inCap` bytes of `IN` and `outCap`
bytes of `OUT`: an existing register (R10), a legal `CMD` value (R11, R62), an `IN_LEN` value of 32 bits (R15),
an address that exists (R41 to R43). -/
def HostTxn.wf (inCap outCap : Nat) : HostTxn → Bool
  | .wr 0 v     => v == 0x01 || v == 0x02
  | .wr 3 v     => decide (v.toNat < 2 ^ 32)
  | .wr n _     => decide (n < 5)
  | .rd n       => decide (n < 5)
  | .wrbIn a _  => decide (a.toNat < inCap)
  | .rdbIn a    => decide (a.toNat < inCap)
  | .wrbOut a _ => decide (a.toNat < outCap)
  | .rdbOut a   => decide (a.toNat < outCap)

end Sys2Proof
end

