-- ==== Sys2Proof/Decode.lean ====
section
/-! DEFINITION. Decoding and encoding of operations (R60 to R62): total, rejecting by name. -/

namespace Sys2Proof

/-- Why a word is no operation (R62). -/
inductive DecodeReject where
  /-- A `CMD` value other than 0x01 and 0x02, or one with a bit set above bit 7. -/
  | reservedCommand
  /-- `PHASE` = 0 is IDLE: no operation. -/
  | idlePhase
  /-- `PHASE` = 10..15. -/
  | reservedPhase
deriving DecidableEq, Repr

/-- Format `CMD` (R61): the field `OP`. -/
def decodeCommand (op : BitVec 8) : Except DecodeReject Instr :=
  match op.toNat with
  | 1 => .ok .encode
  | 2 => .ok .decode
  | _ => .error .reservedCommand

/-- The value of a host write to register 0 (R11): bits above bit 7 must be zero. -/
def decodeCmdWrite (v : BitVec 40) : Except DecodeReject Instr :=
  if v.toNat < 256 then decodeCommand (BitVec.ofNat 8 v.toNat) else .error .reservedCommand

/-- Format `PHASE` (R61): the field `PH`. -/
def decodePhase (ph : BitVec 4) : Except DecodeReject Instr :=
  match ph.toNat with
  | 0 => .error .idlePhase
  | 1 => .ok .fcount
  | 2 => .ok .mkleaf
  | 3 => .ok .tbuild
  | 4 => .ok .cgen
  | 5 => .ok .bpack
  | 6 => .ok .ftser
  | 7 => .ok .ftdes
  | 8 => .ok .bunpk
  | 9 => .ok .twalk
  | _ => .error .reservedPhase

/-- Decoding of a word of either format. -/
def decode : OpWord → Except DecodeReject Instr
  | .cmd op => decodeCommand op
  | .phase ph => decodePhase ph

/-- The encoder (R61). -/
def encode : Instr → OpWord
  | .encode => .cmd 0x01
  | .decode => .cmd 0x02
  | .fcount => .phase 0x1
  | .mkleaf => .phase 0x2
  | .tbuild => .phase 0x3
  | .cgen   => .phase 0x4
  | .bpack  => .phase 0x5
  | .ftser  => .phase 0x6
  | .ftdes  => .phase 0x7
  | .bunpk  => .phase 0x8
  | .twalk  => .phase 0x9

/-- The code of a value of `PHASE` (R14, R61). -/
def Phase.code : Phase → BitVec 4
  | .idle   => 0x0
  | .fcount => 0x1
  | .mkleaf => 0x2
  | .tbuild => 0x3
  | .cgen   => 0x4
  | .bpack  => 0x5
  | .ftser  => 0x6
  | .ftdes  => 0x7
  | .bunpk  => 0x8
  | .twalk  => 0x9

/-- The value of `PHASE` with a given code; a code that never occurs (R62) is read as IDLE here, and
`decodePhase` refuses it. -/
def phaseOfCode (ph : BitVec 4) : Phase :=
  match ph.toNat with
  | 1 => .fcount
  | 2 => .mkleaf
  | 3 => .tbuild
  | 4 => .cgen
  | 5 => .bpack
  | 6 => .ftser
  | 7 => .ftdes
  | 8 => .bunpk
  | 9 => .twalk
  | _ => .idle

/-- The word of one of the two formats that the opcode table's bits `w` stand for. The two formats are not told
apart by their bits (R60: they live in different places), and a table row of 4 bits is 8 bits in whole bytes; so
fewer than 8 bits are a `PHASE`; 8 bits are a `PHASE` for the values 3 to 9, which only `PHASE` has, and a `CMD`
otherwise. DESIGN CHOICE, notes/assumptions/2.md: with 8 bits the values 1 and 2 are ENCODE and DECODE. -/
def tableWord (nbits w : Nat) : OpWord :=
  if nbits < 8 then .phase (BitVec.ofNat 4 w)
  else if 3 ≤ w ∧ w ≤ 9 then .phase (BitVec.ofNat 4 w)
  else .cmd (BitVec.ofNat 8 w)

/-- What the decoder reads from a row of the opcode table whose bits are `w` (none where it refuses). -/
def decodeTableWord (nbits w : Nat) : Option Instr :=
  if w < 2 ^ nbits then
    match decode (tableWord nbits w) with
    | .ok i => some i
    | .error _ => none
  else none

end Sys2Proof
end

