-- ==== Sys2Proof/Machine/State.lean ====
section
/-! DEFINITION. The state of HTB as plain data (R10 to R31), its reset value, and the reasons a step can stop. -/

namespace Sys2Proof.Machine

/-- Why the machine stops with a fault. No fault is met by a command whose input the host has loaded:
each is a read of something that has no value, or a tree TBUILD does not build. -/
inductive Fault where
  /-- The core reads an `IN` byte the host has not written since reset (R164, U15). Raised by ENCODE's and DECODE's
  phases through the core's read of `IN`. Safe: the spec names the fault. -/
  | unwrittenInput (a : Nat)
  /-- CGEN or TWALK with `TREE` = 0 (R92: "it must fault, not guess"). Safe. -/
  | noTree
  /-- TBUILD, CGEN or TWALK reads a `NODE` slot, or a field of one, that holds no value (R163, U4). Unreachable
  (R20, R31). Safe. -/
  | unwrittenNode (i : Nat)
  /-- TBUILD would need a 512th `NODE` slot (R19 has 511). Unreachable (R20). Safe. -/
  | nodeTableFull
  /-- CGEN reaches a node at depth 65: no `Code` has a length above 64 (R68). Unreachable (R97). Safe. -/
  | codeTooLong
  /-- BPACK reads a `CODE` entry with `V` = 0, which has no `PAT` and no `LEN` (R22, R163). Unreachable (R99). Safe. -/
  | invalidCode (s : Byte)
  /-- BPACK would hold more than 64 bits in `ACC`. Unreachable (R111; R97 lets a model keep this fault). Safe. -/
  | accumulatorOverflow
deriving DecidableEq, Repr

/-- Why a step has no meaning. -/
inductive Refusal where
  /-- An instruction whose meaning is not written. Raised by no arm. -/
  | notModelled (mnemonic : String)
  /-- A write to `CMD` of a reserved value while no command runs (R62, U6). Raised by the host port. Safe. -/
  | reservedCommand
  /-- An access to a register number above 4 (R10, U7). Raised by the host port. Safe. -/
  | reservedRegister (reg : Nat)
  /-- A write to `IN_LEN` of a value that has no 32 bits (R10: a register is written whole). Raised by the host port. Safe. -/
  | valueTooWide
  /-- A host access to an address of `IN` or `OUT` that the implementation does not provide (R43). Raised by the host
  port. Safe. -/
  | noSuchAddress (a : Nat)
  /-- A command whose `IN_LEN` exceeds `IN_CAP` (R43, U8). Raised by ENCODE and DECODE. Safe. -/
  | inputExceedsCapacity
  /-- A command whose result exceeds `OUT_CAP` (R43, U8). Raised where a command completes: FTSER and TWALK. Safe. -/
  | resultExceedsCapacity
  /-- A `COPYBACK` of more than 2^32 - 1 bytes (R74: "requires m <= 2^32 - 1"). Raised by the host port. Safe. -/
  | copyBackTooLong
deriving DecidableEq, Repr

/-- The contents of a buffer: address and byte, addresses strictly rising. A byte not listed has no value
(unspecified: R30, R48). -/
abbrev Memory := List Host.Cell

/-- What a host read returned: the transaction and the value, zero-extended to 40 bits. -/
structure Reply where
  txn   : HostTxn
  value : BitVec 40
deriving DecidableEq, Repr

/-- The machine. `cfg`, `script`, `replies` and the draw counters are the model's own fields; the rest is the
state the spec gives (R8, R10 to R31). `CMD` holds nothing (R11). -/
structure State where
  /-- The parameters of the implementation. No step changes them. -/
  cfg     : Config
  /-- Register 1 (R12). -/
  STATUS  : BitVec 32
  /-- Register 2 (R13). -/
  ERR     : BitVec 32
  /-- Register 3 (R15). -/
  IN_LEN  : BitVec 32
  /-- Register 4 (R16). -/
  OUT_LEN : BitVec 40
  /-- The sequencer (R14). -/
  PHASE   : Phase
  /-- The sequencer (R14). -/
  MODE    : Mode
  /-- The working registers and tables (R17 to R23). -/
  work    : Work
  /-- The input buffer (R26, R41). -/
  IN      : Memory
  /-- The output buffer (R26, R42). -/
  OUT     : Memory
  /-- What the host and the platform will do next, first entry first (R7, R73). -/
  script  : List HostEvent
  /-- What the host has read, latest first. -/
  replies : List Reply
  /-- The number of free values drawn so far. -/
  draws   : Nat
  /-- The draw whose values the bytes of `IN` without a value have for the host. -/
  inDraw  : Nat
  /-- The draw whose values the bytes of `OUT` without a value have for the host. -/
  outDraw : Nat
deriving DecidableEq, Repr

/-- The machine right after reset (R30, R160). What the spec leaves unspecified there and a register must hold is
zero (DESIGN CHOICE, notes/assumptions/3.md); the buffers list nothing. -/
def State.reset : State where
  cfg     := Config.default
  STATUS  := 0
  ERR     := 0
  IN_LEN  := 0
  OUT_LEN := 0
  PHASE   := .idle
  MODE    := .encode
  work    := Work.zero
  IN      := []
  OUT     := []
  script  := []
  replies := []
  draws   := 1
  inDraw  := 0
  outDraw := 0

end Sys2Proof.Machine
end

