-- ==== Sys2Proof/Machine/Flags.lean ====
section
/-! DEFINITION. The fields of `STATUS` (R12), the code of an error kind (R13, R140), and the other one-bit
state of R25 as predicates. HTB has no condition codes and no flag that arithmetic sets. -/

namespace Sys2Proof.Machine

/-- `STATUS.BUSY`, bit 0 (R12). -/
def State.BUSY (s : State) : Bool := s.STATUS.getLsbD 0

/-- `STATUS.DONE`, bit 1 (R12). -/
def State.DONE (s : State) : Bool := s.STATUS.getLsbD 1

/-- `STATUS.ERROR`, bit 2 (R12). -/
def State.ERROR (s : State) : Bool := s.STATUS.getLsbD 2

/-- `ERR.CODE`, bits [3:0] (R13). -/
def State.errCode (s : State) : BitVec 4 := s.ERR.setWidth 4

/-- A value of `STATUS` from its three fields; bits [31:3] are zero (R12). -/
def statusOf (busy done error : Bool) : BitVec 32 :=
  (BitVec.ofBool error ++ BitVec.ofBool done ++ BitVec.ofBool busy).setWidth 32

/-- `STATUS` from acceptance to completion (R120). -/
def statusBusy : BitVec 32 := statusOf true false false

/-- `STATUS` after a successful completion (R123). -/
def statusDone : BitVec 32 := statusOf false true false

/-- `STATUS` after an erroneous completion (R146). -/
def statusFailed : BitVec 32 := statusOf false true true

/-- The code of an error kind (R140). -/
def errorCode : ErrKind → BitVec 32
  | .emptyInput        => 1
  | .tooShort          => 2
  | .truncatedHeader   => 3
  | .invalidEntryCount => 4
  | .emptyPayload      => 5
  | .corruptTree       => 6
  | .badPadding        => 7

/-- `NODE[i].LEAF` (R19). -/
def Node.LEAF : Node → Bool
  | .leaf _ _ => true
  | .inner _ _ _ => false

/-- `NODE[i].CNT` (R19). -/
def Node.CNT : Node → NodeCount
  | .leaf _ c => c
  | .inner c _ _ => c

end Sys2Proof.Machine
end

