-- ==== Sys2Proof/Machine/Ops.lean ====
section
/-! DEFINITION. The shared operations: the buffers byte by byte and the big-endian accesses over them (R6, R45),
how a command is accepted (R120), how it completes (R123), and the one error entry (R146). -/

namespace Sys2Proof.Machine

/-! ## Buffers -/

/-- The byte at an address, if it has a value. -/
def Memory.read : Memory → Nat → Option Byte
  | [], _ => none
  | (b, v) :: m, a => if a = b then some v else Memory.read m a

/-- Give the byte at an address a value; the addresses stay strictly rising. -/
def Memory.write : Memory → Nat → Byte → Memory
  | [], a, v => [(a, v)]
  | (b, w) :: m, a, v =>
    if a < b then (a, v) :: (b, w) :: m
    else if a = b then (a, v) :: m
    else (b, w) :: Memory.write m a v

/-- Keep the values of the bytes below `n`; the others have none any more (R48). -/
def Memory.keepBelow (n : Nat) (m : Memory) : Memory := m.filter fun c => c.1 < n

/-- The canonical form: addresses strictly rising. An unlisted byte reads as no value, which no entry equals. -/
def Memory.wf : Memory → Bool
  | [] => true
  | [_] => true
  | (a, _) :: (b, w) :: m => decide (a < b) && Memory.wf ((b, w) :: m)

/-- The bytes of `v` as `n` bytes, most significant first (R6, R45). -/
def beBytes : Nat → Nat → List Byte
  | 0, _ => []
  | n + 1, v => BitVec.ofNat 8 (v / 256 ^ n) :: beBytes n v

/-- The big-endian number of a byte sequence (R6, R45). -/
def beNat (bs : List Byte) : Nat := bs.foldl (fun acc b => acc * 256 + b.toNat) 0

/-- Write a byte sequence at consecutive addresses (R46). -/
def Memory.writeBytes : Memory → Nat → List Byte → Memory
  | m, _, [] => m
  | m, a, b :: bs => Memory.writeBytes (m.write a b) (a + 1) bs

/-! ## How a phase ends -/

/-- How a phase can end before its successor: by `raise`, by a fault, or by a refusal. -/
inductive Halt where
  | raise  (e : ErrKind)
  | fault  (f : Fault)
  | refuse (r : Refusal)
deriving DecidableEq, Repr

/-- `raise K`, the one error entry (R146). Working registers and tables and every byte of `OUT` become
unspecified; `IN` and `IN_LEN` are unchanged. -/
def raiseError (e : ErrKind) (s : State) : State :=
  { s with
    ERR     := errorCode e
    OUT_LEN := 0
    PHASE   := .idle
    STATUS  := statusFailed
    work    := Config.freeWork s.draws
    OUT     := []
    outDraw := s.draws
    draws   := s.draws + 1 }

/-- `complete(n)`, the successful completion (R123). Working state becomes unspecified (R29), and so do the bytes
of `OUT` from `n` on (R48). A result above `OUT_CAP` is refused (R43). -/
def complete (n : BitVec 40) (s : State) : Except Halt State :=
  if s.cfg.outCap < n.toNat then .error (.refuse .resultExceedsCapacity)
  else .ok
    { s with
      OUT_LEN := n
      ERR     := 0
      PHASE   := .idle
      STATUS  := statusDone
      work    := Config.freeWork s.draws
      OUT     := s.OUT.keepBelow n.toNat
      outDraw := s.draws
      draws   := s.draws + 1 }

/-- Acceptance of a command (R120): `MODE`, `LEN`, `ERR`, `OUT_LEN` and `STATUS` are written, and the bytes of
`OUT` become unspecified (R55). -/
def accept (m : Mode) (s : State) : State :=
  { s with
    MODE    := m
    work    := { s.work with LEN := s.IN_LEN }
    ERR     := 0
    OUT_LEN := 0
    STATUS  := statusBusy
    OUT     := []
    outDraw := s.draws
    draws   := s.draws + 1 }

/-- `PHASE <- p` (R14). -/
def State.setPHASE (s : State) (p : Phase) : State := { s with PHASE := p }

/-- Write the working registers and tables. -/
def State.setWork (s : State) (w : Work) : State := { s with work := w }

/-- Replace the contents of `OUT`. -/
def State.setOUT (s : State) (m : Memory) : State := { s with OUT := m }

/-- The outcome of a phase that began in `s`. After a `raise` nothing the phase computed is kept (R146, R147). -/
def settle (s : State) : Except Halt State → Host.Outcome State Fault Refusal
  | .ok t => .next t
  | .error (.raise e) => .next (raiseError e s)
  | .error (.fault f) => .fault f
  | .error (.refuse r) => .refused r

/-- The beginning of a command with the meaning `start` (R120): dropped while another command runs (R11), refused
when the input exceeds `IN_CAP` (R43), otherwise accepted, and then `start`. -/
def startCommand (m : Mode) (start : State → Except Halt State) (s : State) : Host.Outcome State Fault Refusal :=
  if s.BUSY then .next s
  else if s.cfg.inCap < s.IN_LEN.toNat then .refused .inputExceedsCapacity
  else settle (accept m s) (start (accept m s))

/-! ## The core's access to the buffers -/

/-- One byte of `IN` for the core: a byte the host has not written faults (U15). -/
def memRead1 (s : State) (a : Nat) : Except Halt Byte :=
  match s.IN.read a with
  | some b => .ok b
  | none => .error (.fault (.unwrittenInput a))

/-- `n` bytes of `IN` from address `a` on, in address order. -/
def memReadBytes (s : State) : Nat → Nat → Except Halt (List Byte)
  | _, 0 => .ok []
  | a, n + 1 => do
    let b ← memRead1 s a
    let bs ← memReadBytes s (a + 1) n
    return b :: bs

/-- `MemRead(a, n)` (R6): the big-endian number of `n` bytes of `IN`. -/
def memRead (s : State) (a n : Nat) : Except Halt Nat := do
  let bs ← memReadBytes s a n
  return beNat bs

/-- `MemWrite(a, n, v)` (R6), on the contents of `OUT`. -/
def memWrite (m : Memory) (a n v : Nat) : Memory := m.writeBytes a (beBytes n v)

end Sys2Proof.Machine
end

