-- ==== Sys2Proof/Machine/Operands.lean ====
section
/-! DEFINITION. The operand forms: where the parts of a container lie (R44, R66), the entries of the tables
by symbol and by slot (R18, R19, R22), and the payload bit (R24, R113). -/

namespace Sys2Proof.Machine

/-- The 256 symbol values in ascending order: `for s in 0..255` (R6). -/
def allSymbols : List Byte := (List.range 256).map (BitVec.ofNat 8)

/-- `FREQ[s]` (R18): `some c` is `P` = 1 and `CNT` = c. -/
def FreqTable.get (f : FreqTable) (s : Byte) : Option Count := f[s.toNat]

/-- `FREQ[s].P <- 1; FREQ[s].CNT <- c` (R18). -/
def FreqTable.put (f : FreqTable) (s : Byte) (c : Count) : FreqTable := f.set s.toNat (some c)

/-- `for s in 0..255: FREQ[s].P <- 0` (R80, R104). -/
def FreqTable.clear : FreqTable := Vector.replicate 256 none

/-- The present symbols with their counts, in ascending symbol order (R82, R101). -/
def FreqTable.present (f : FreqTable) : List (Byte × Count) :=
  allSymbols.filterMap fun s => (f.get s).map fun c => (s, c)

/-- `CODE[s]` (R22): `none` is `V` = 0. -/
def CodeTable.get (t : CodeTable) (s : Byte) : Option Code := t[s.toNat]

/-- `CODE[s] <- c` with `V` = 1 (R22). -/
def CodeTable.put (t : CodeTable) (s : Byte) (c : Code) : CodeTable := t.set s.toNat (some c)

/-- `for s in 0..255: CODE[s].V <- 0` (R95). -/
def CodeTable.clear : CodeTable := Vector.replicate 256 none

/-- `NODE[i]` (R19): a slot that holds no value faults (R163, U4). -/
def nodeAt (nodes : List Node) (i : NodeIdx) : Except Halt Node :=
  match nodes[i.toNat]? with
  | some n => .ok n
  | none => .error (.fault (.unwrittenNode i.toNat))

/-- `NODE[i].CNT` of a slot already known to hold a value. -/
def countAt (nodes : List Node) (i : NodeIdx) : NodeCount :=
  match nodes[i.toNat]? with
  | some n => n.CNT
  | none => 0

/-- The address of header entry `i`: its symbol byte; the count follows it (R44, R66). -/
def entryAddr (i : Nat) : Nat := 3 + 5 * i

/-- The address of the first payload byte: 1 + H (R44). -/
def payloadAddr (hlen : BitVec 19) : Nat := 1 + hlen.toNat

/-- `BIT(j)` (R24, R113): bit `7 - (j mod 8)` of payload byte `j div 8`. -/
def payloadBit (s : State) (j : Nat) : Except Halt Bool := do
  let b ← memRead1 s (payloadAddr s.work.HLEN + j / 8)
  return b.getLsbD (7 - j % 8)

/-- `IN[0..LEN-1]`, which FCOUNT and BPACK read once each in ascending order (R49). -/
def inputBytes (s : State) : Except Halt (List Byte) := memReadBytes s 0 s.work.LEN.toNat

end Sys2Proof.Machine
end

