-- ==== Sys2Proof/Machine/BitPacker.lean ====
section
/-! DEFINITION. BPACK (R110 to R112). -/

namespace Sys2Proof.Machine

/-- What BPACK's loop changes: its registers (R17, R23) and the contents of `OUT`. -/
structure Packer where
  ACC   : BitVec 64
  ACCN  : BitVec 7
  OPTR  : BitVec 40
  TBITS : BitVec 40
  out   : Memory
deriving DecidableEq, Repr

/-- `MemWrite(OPTR, 1, v); OPTR <- OPTR + 1`. -/
def Packer.emit (p : Packer) (v : Byte) : Packer :=
  { p with out := p.out.write p.OPTR.toNat v, OPTR := p.OPTR + 1 }

/-- `ACC[n-1 : 0]`, zero-extended to 64 bits. -/
def lowBits (acc : BitVec 64) (n : Nat) : BitVec 64 := BitVec.ofNat 64 (acc.toNat % 2 ^ n)

/-- One round of the drain loop (R110): the oldest eight bits go out. -/
def Packer.drainByte (p : Packer) : Packer :=
  let n := p.ACCN.toNat - 8
  { p.emit (BitVec.ofNat 8 (p.ACC.toNat >>> n)) with ACCN := BitVec.ofNat 7 n, ACC := lowBits p.ACC n }

/-- `while ACCN >= 8` (R110). At most 64 bits are held, so eight rounds are enough fuel. -/
def Packer.drain : Nat → Packer → Packer
  | 0, p => p
  | k + 1, p => if 8 ≤ p.ACCN.toNat then Packer.drain k p.drainByte else p

/-- Take one code into the accumulator, then drain (R110). More than 64 bits would not fit (R111). -/
def Packer.takeCode (p : Packer) (c : Code) : Except Halt Packer :=
  if p.ACCN.toNat + c.LEN.toNat ≤ 64 then
    .ok (Packer.drain 8
      { p with
        ACC   := (p.ACC <<< c.LEN.toNat) ||| c.PAT
        ACCN  := p.ACCN + c.LEN
        TBITS := p.TBITS + c.LEN.setWidth 40 })
  else .error (.fault .accumulatorOverflow)

/-- One input byte (R110). -/
def Packer.takeByte (t : CodeTable) (p : Packer) (b : Byte) : Except Halt Packer :=
  match t.get b with
  | some c => p.takeCode c
  | none => .error (.fault (.invalidCode b))

/-- The loop over the input bytes (R110). -/
def Packer.takeBytes (t : CodeTable) : Packer → List Byte → Except Halt Packer
  | p, [] => .ok p
  | p, b :: bs =>
    match p.takeByte t b with
    | .ok p' => Packer.takeBytes t p' bs
    | .error h => .error h

/-- The padding count (R110, R112): 0 when no bits are left, else 8 - `ACCN`. -/
def Packer.padc (p : Packer) : BitVec 3 := BitVec.ofNat 3 (8 - p.ACCN.toNat)

/-- The end of BPACK (R110): the bits left over go out with zeros on the right. -/
def Packer.flush (p : Packer) : Packer :=
  if p.ACCN = 0 then p else p.emit (BitVec.ofNat 8 (p.ACC.toNat <<< (8 - p.ACCN.toNat)))

/-- The packer before the first byte (R110). -/
def Packer.start (hlen : BitVec 19) (out : Memory) : Packer where
  ACC   := 0
  ACCN  := 0
  OPTR  := BitVec.ofNat 40 (payloadAddr hlen)
  TBITS := 0
  out   := out

/-- The working registers after BPACK, given the packer after its loop. `ACC` and `ACCN` keep the bits left over. -/
def Packer.registers (p : Packer) (w : Work) : Work :=
  { w with ACC := p.ACC, ACCN := p.ACCN, OPTR := p.flush.OPTR, TBITS := p.TBITS, PADC := p.padc }

/-- BPACK (R110). -/
def execBpack (s : State) : Host.Outcome State Fault Refusal :=
  settle s do
    let bs ← inputBytes s
    let p ← Packer.takeBytes s.work.CODE (Packer.start s.work.HLEN s.OUT) bs
    return ((s.setWork (p.registers s.work)).setOUT p.flush.out).setPHASE .ftser

end Sys2Proof.Machine
end

