-- ==== Sys2Proof/Machine/BitWalker.lean ====
section
/-! DEFINITION. BUNPK and TWALK (R113 to R118), with the end of DECODE (R126). -/

namespace Sys2Proof.Machine

/-- BUNPK (R113). The bit sequence is a function of `IN`, `HLEN` and the index (R24): `payloadBit`. -/
def execBunpk (s : State) : Host.Outcome State Fault Refusal :=
  settle s (.ok ((s.setWork
    { s.work with TBITS := BitVec.ofNat 40 (8 * s.work.PLEN.toNat - s.work.PADB.toNat) }).setPHASE .twalk))

/-- What TWALK's loop changes: its registers (R17) and the contents of `OUT`. -/
structure Walker where
  WALK : NodeIdx
  BPOS : BitVec 40
  EMIT : BitVec 40
  OPTR : BitVec 40
  out  : Memory
deriving DecidableEq, Repr

/-- The node a bit leads to (R115): on a one-leaf tree a 0 leads to the root and a 1 nowhere (R116).
A leaf has no `L` and no `R`; `WALK` never stands on one when the root is an internal node (R115). -/
def Walker.target (w : Walker) (root : NodeIdx) (rootNode : Node) (nodes : List Node) (b : Bool) : Except Halt NodeIdx :=
  match rootNode with
  | .leaf _ _ => if b then .error (.raise .corruptTree) else .ok root
  | .inner _ _ _ =>
    match nodeAt nodes w.WALK with
    | .error h => .error h
    | .ok (.inner _ l r) => .ok (if b then r else l)
    | .ok (.leaf _ _) => .error (.fault (.unwrittenNode w.WALK.toNat))

/-- One round of TWALK's loop (R115, R117 (b)). -/
def Walker.round (s : State) (rootNode : Node) (w : Walker) : Except Halt Walker := do
  let b ← payloadBit s w.BPOS.toNat
  let w := { w with BPOS := w.BPOS + 1 }
  let next ← w.target s.work.ROOT rootNode s.work.NODE b
  match ← nodeAt s.work.NODE next with
  | .leaf sym _ =>
    if w.EMIT = rootNode.CNT then .error (.raise .corruptTree)
    else .ok { w with out := w.out.write w.OPTR.toNat sym, OPTR := w.OPTR + 1, EMIT := w.EMIT + 1, WALK := s.work.ROOT }
  | .inner _ _ _ => .ok { w with WALK := next }

/-- `while BPOS < TBITS` (R115): `BPOS` starts at 0 and each round adds 1, so there are `TBITS` rounds. -/
def Walker.rounds (s : State) (rootNode : Node) : Nat → Walker → Except Halt Walker
  | 0, w => .ok w
  | k + 1, w =>
    match w.round s rootNode with
    | .ok w' => Walker.rounds s rootNode k w'
    | .error h => .error h

/-- The walker before the first bit (R115). -/
def Walker.start (s : State) : Walker where
  WALK := s.work.ROOT
  BPOS := 0
  EMIT := 0
  OPTR := 0
  out  := s.OUT

/-- TWALK (R115) up to its end-of-walk checks (R117 (a), (c)). -/
def walkPayload (s : State) : Except Halt Walker :=
  if s.work.TREE then do
    let rootNode ← nodeAt s.work.NODE s.work.ROOT
    let w ← Walker.rounds s rootNode s.work.TBITS.toNat (Walker.start s)
    if w.WALK ≠ s.work.ROOT then .error (.raise .corruptTree)
    else if w.EMIT ≠ rootNode.CNT then .error (.raise .corruptTree)
    else .ok w
  else .error (.fault .noTree)

/-- TWALK (R115), then the end of DECODE: it completes with the number of symbols emitted (R126). -/
def execTwalk (s : State) : Host.Outcome State Fault Refusal :=
  settle s do
    let w ← walkPayload s
    complete w.EMIT (s.setOUT w.out)

end Sys2Proof.Machine
end

