-- ==== Sys2Proof/Machine/CodeTable.lean ====
section
/-! DEFINITION. CGEN (R95 to R99). -/

namespace Sys2Proof.Machine

/-- `visit(n, pat, len)` (R95), left before right. The fuel is what is left of the 65 nodes a path of at most
64 branches has: R68 gives a code's length the range 0..64. -/
def visit (nodes : List Node) : Nat → NodeIdx → BitVec 64 → BitVec 7 → CodeTable → Except Halt CodeTable
  | 0, _, _, _, _ => .error (.fault .codeTooLong)
  | fuel + 1, n, pat, len, t =>
    match nodeAt nodes n with
    | .error h => .error h
    | .ok (.leaf s _) => .ok (t.put s ⟨pat, len⟩)
    | .ok (.inner _ l r) =>
      match visit nodes fuel l (2 * pat) (len + 1) t with
      | .error h => .error h
      | .ok t' => visit nodes fuel r (2 * pat + 1) (len + 1) t'

/-- The code table of the tree (R95); a root that is a leaf gets the 1-bit code 0 (R96). -/
def generateCodes (w : Work) : Except Halt CodeTable :=
  if w.TREE then do
    match ← nodeAt w.NODE w.ROOT with
    | .leaf s _ => return CodeTable.clear.put s ⟨0, 1⟩
    | .inner _ _ _ => visit w.NODE 65 w.ROOT 0 0 CodeTable.clear
  else .error (.fault .noTree)

/-- CGEN (R95). -/
def execCgen (s : State) : Host.Outcome State Fault Refusal :=
  settle s do
    let t ← generateCodes s.work
    return (s.setWork { s.work with CODE := t }).setPHASE .bpack

end Sys2Proof.Machine
end

