-- ==== Sys2Proof/Machine/Commands.lean ====
section
/-! DEFINITION. The two commands (R120, R121, R126): acceptance and the checks made before the first phase. The
phases follow, one step each, in the order of R122: each sets `PHASE` to its successor. What R121 and R126 do after
the last phase stands with that phase (FTSER, TWALK), and what R126 does between FTDES and MKLEAF with FTDES. -/

namespace Sys2Proof.Machine

/-- ENCODE up to its first phase (R121). -/
def beginEncode (s : State) : Except Halt State :=
  if s.work.LEN = 0 then .error (.raise .emptyInput)
  else .ok (s.setPHASE .fcount)

/-- ENCODE (R120, R121). -/
def execEncode (s : State) : Host.Outcome State Fault Refusal := startCommand .encode beginEncode s

/-- DECODE up to its first phase (R126): the padding byte is read first and judged late. -/
def beginDecode (s : State) : Except Halt State :=
  if s.work.LEN.toNat < 3 then .error (.raise .tooShort)
  else do
    let b ← memRead1 s 0
    return (s.setWork { s.work with PADB := b }).setPHASE .ftdes

/-- DECODE (R120, R126). -/
def execDecode (s : State) : Host.Outcome State Fault Refusal := startCommand .decode beginDecode s

end Sys2Proof.Machine
end

