-- ==== Sys2Proof/Machine/FreqAnalyzer.lean ====
section
/-! DEFINITION. FCOUNT and MKLEAF (R80 to R83). -/

namespace Sys2Proof.Machine

/-- One round of FCOUNT's loop (R80): `CNT` counts from 0, 32 bits wide. -/
def countByte (f : FreqTable) (b : Byte) : FreqTable := f.put b ((f.get b).getD 0 + 1)

/-- The table FCOUNT builds from the input bytes (R80). -/
def countBytes (bs : List Byte) : FreqTable := bs.foldl countByte FreqTable.clear

/-- FCOUNT (R80). Entered with `LEN` = 0 it has the failure R81 names. -/
def execFcount (s : State) : Host.Outcome State Fault Refusal :=
  settle s <|
    if s.work.LEN = 0 then .error (.raise .emptyInput)
    else do
      let bs ← inputBytes s
      return (s.setWork { s.work with FREQ := countBytes bs }).setPHASE .mkleaf

/-- The leaf of a table entry, its count zero-extended to 40 bits (R69, R82). -/
def leafOf (e : Byte × Count) : Node := .leaf e.1 (e.2.setWidth 40)

/-- The working registers after MKLEAF (R82). In DECODE `HLEN` stays as FTDES set it. -/
def makeLeaves (m : Mode) (w : Work) : Work :=
  let leaves := w.FREQ.present.map leafOf
  { w with
    NODE  := leaves
    QUEUE := (List.range leaves.length).map (BitVec.ofNat 9)
    NSYM  := BitVec.ofNat 9 leaves.length
    HLEN  := if m = .encode then BitVec.ofNat 19 (hdrBytes leaves.length) else w.HLEN }

/-- MKLEAF (R82). -/
def execMkleaf (s : State) : Host.Outcome State Fault Refusal :=
  settle s (.ok ((s.setWork (makeLeaves s.MODE s.work)).setPHASE .tbuild))

end Sys2Proof.Machine
end

