-- ==== Sys2Proof/Machine/FreqCodec.lean ====
section
/-! DEFINITION. FTSER and FTDES (R100 to R108), with what their commands do right after them: the end of ENCODE
(R121) and DECODE's checks of the payload length and the padding byte (R126). -/

namespace Sys2Proof.Machine

/-- The header entries from address `o` on (R101): symbol, then count big-endian. -/
def writeEntries : Memory → Nat → List (Byte × Count) → Memory
  | m, _, [] => m
  | m, o, (s, c) :: es => writeEntries (memWrite (memWrite m o 1 s.toNat) (o + 1) 4 c.toNat) (o + 5) es

/-- The header (R100, R101): N at address 1, then the present symbols in ascending order. -/
def writeHeader (m : Memory) (nsym : BitVec 9) (f : FreqTable) : Memory :=
  writeEntries (memWrite m 1 2 nsym.toNat) (entryAddr 0) f.present

/-- FTSER (R101), then the end of ENCODE: container byte 0 is the padding count, and the command completes with
the container's length (R121). -/
def execFtser (s : State) : Host.Outcome State Fault Refusal :=
  settle s <|
    complete s.work.OPTR
      (s.setOUT (memWrite (writeHeader s.OUT s.work.NSYM s.work.FREQ) 0 1 s.work.PADC.toNat))

/-- FTDES's loop over the entries (R104): `k` entries are left, the next one is entry `i`. A symbol seen before
ends it. -/
def readEntries (s : State) : Nat → Nat → FreqTable → Except Halt FreqTable
  | 0, _, f => .ok f
  | k + 1, i, f => do
    let b ← memRead1 s (entryAddr i)
    let c ← memRead s (entryAddr i + 1) 4
    match f.get b with
    | some _ => .error (.raise .invalidEntryCount)
    | none => readEntries s k (i + 1) (f.put b (BitVec.ofNat 32 c))

/-- FTDES (R104): the working registers after it. `LEN - 1` of a container shorter than one byte is taken as 0: a
standalone model's case, `TruncatedHeader` (R106). -/
def readHeader (s : State) : Except Halt Work := do
  let avail := s.work.LEN.toNat - 1
  if avail < 2 then .error (.raise .truncatedHeader)
  else
    let n ← memRead s 1 2
    if avail < hdrBytes n then .error (.raise .truncatedHeader)
    else if n = 0 then .error (.raise .invalidEntryCount)
    else
      let f ← readEntries s n 0 FreqTable.clear
      return { s.work with N16 := BitVec.ofNat 16 n, HLEN := BitVec.ofNat 19 (hdrBytes n), FREQ := f }

/-- DECODE's checks after FTDES (R126): `EmptyPayload`, then `BadPadding`. -/
def checkPayload (w : Work) : Except Halt Work :=
  let plen := w.LEN.toNat - 1 - w.HLEN.toNat
  if plen = 0 then .error (.raise .emptyPayload)
  else if 7 < w.PADB.toNat then .error (.raise .badPadding)
  else .ok { w with PLEN := BitVec.ofNat 32 plen }

/-- FTDES (R104) and DECODE's checks (R126). -/
def execFtdes (s : State) : Host.Outcome State Fault Refusal :=
  settle s do
    let w ← readHeader s
    let w' ← checkPayload w
    return (s.setWork w').setPHASE .mkleaf

end Sys2Proof.Machine
end

