-- ==== Sys2Proof/Machine/TreeBuilder.lean ====
section
/-! DEFINITION. TBUILD (R85 to R94): stable sort, merge the two lowest, insert the parent after every entry of
at most its count. -/

namespace Sys2Proof.Machine

/-- The position `k` at which R88 puts an entry of count `c`: the number of entries of count at most `c`. -/
def insertPos (nodes : List Node) (c : NodeCount) (q : List NodeIdx) : Nat :=
  q.countP fun j => decide (countAt nodes j ≤ c)

/-- Put entry `p` behind every entry of at most its count (R88). -/
def insertByCount (nodes : List Node) (q : List NodeIdx) (p : NodeIdx) : List NodeIdx :=
  let k := insertPos nodes (countAt nodes p) q
  q.take k ++ p :: q.drop k

/-- The stable sort by count (R87). Any method will do, the result is unique: here each entry in turn is put behind
the entries of at most its count. -/
def stableSort (nodes : List Node) (q : List NodeIdx) : List NodeIdx :=
  q.foldl (insertByCount nodes) []

/-- One merge step (R88): the first removed is the left child, the second the right child; the parent takes the
next free slot, of which there are 511 (R19). -/
def mergeStep (nodes : List Node) (a b : NodeIdx) (rest : List NodeIdx) : Except Halt (List Node × List NodeIdx) :=
  if nodes.length < 511 then
    let nodes' := nodes ++ [.inner (countAt nodes a + countAt nodes b) a b]
    .ok (nodes', insertByCount nodes' rest (BitVec.ofNat 9 nodes.length))
  else .error (.fault .nodeTableFull)

/-- `while QN > 1: merge_step()` (R86, R89). Each step takes one entry off the queue, so the queue's length is
enough fuel. -/
def mergeAll : Nat → List Node → List NodeIdx → Except Halt (List Node × List NodeIdx)
  | fuel + 1, nodes, a :: b :: rest =>
    match mergeStep nodes a b rest with
    | .ok (nodes', q') => mergeAll fuel nodes' q'
    | .error h => .error h
  | _, nodes, q => .ok (nodes, q)

/-- Every queue entry names a slot that holds a value; the first that does not faults (R163, U4). -/
def checkQueue (nodes : List Node) : List NodeIdx → Except Halt Unit
  | [] => .ok ()
  | j :: q =>
    match nodeAt nodes j with
    | .ok _ => checkQueue nodes q
    | .error h => .error h

/-- The successor of TBUILD (R86, R122). -/
def afterTbuild : Mode → Phase
  | .encode => .cgen
  | .decode => .bunpk

/-- The working registers after TBUILD (R86). An empty queue is the "no tree" result (R92). -/
def buildTree (w : Work) : Except Halt Work :=
  match w.QUEUE with
  | [] => .ok { w with TREE := false }
  | q => do
    checkQueue w.NODE q
    let (nodes, q') ← mergeAll q.length w.NODE (stableSort w.NODE q)
    return { w with NODE := nodes, QUEUE := q', ROOT := q'.headD 0, TREE := true }

/-- TBUILD (R86). -/
def execTbuild (s : State) : Host.Outcome State Fault Refusal :=
  settle s do
    let w ← buildTree s.work
    return (s.setWork w).setPHASE (afterTbuild s.MODE)

end Sys2Proof.Machine
end

