-- ==== Sys2Proof/Machine/Dispatch.lean ====
section
/-! DEFINITION. One arm per operation of the opcode table. -/

namespace Sys2Proof.Machine

def exec (i : Instr) (s : State) : Host.Outcome State Fault Refusal :=
  match i with
  | .encode => Sys2Proof.Machine.execEncode s
  | .decode => Sys2Proof.Machine.execDecode s
  | .fcount => Sys2Proof.Machine.execFcount s
  | .mkleaf => Sys2Proof.Machine.execMkleaf s
  | .tbuild => Sys2Proof.Machine.execTbuild s
  | .cgen => Sys2Proof.Machine.execCgen s
  | .bpack => Sys2Proof.Machine.execBpack s
  | .ftser => Sys2Proof.Machine.execFtser s
  | .ftdes => Sys2Proof.Machine.execFtdes s
  | .bunpk => Sys2Proof.Machine.execBunpk s
  | .twalk => Sys2Proof.Machine.execTwalk s

end Sys2Proof.Machine
end

