-- ==== Sys2Proof/Machine/HostPort.lean ====
section
/-! DEFINITION. The host's side (R10 to R16, R41, R42, R50 to R55, R73, R74), the platform's reset (R160 to R162),
and the core's turn: the operation that `PHASE` names. -/

namespace Sys2Proof.Machine

/-- Log what a host read returned. -/
def State.addReply (s : State) (t : HostTxn) (v : BitVec 40) : State := { s with replies := ⟨t, v⟩ :: s.replies }

/-- Replace the rest of the script. -/
def State.setScript (s : State) (l : List HostEvent) : State := { s with script := l }

/-- Draw a free value for a host read while a command runs (R52, U3). -/
def readWhileBusy (s : State) (t : HostTxn) (width : Nat) : State :=
  ({ s with draws := s.draws + 1 }).addReply t (((Config.freeBusyRead s.draws).setWidth width).setWidth 40)

/-- What the host reads at an address of `IN`: an unwritten byte reads as a free value (U4). Reads are idempotent
(R47), so it depends on the address and on the reset since which the byte is unwritten. -/
def hostByteIn (s : State) (a : Nat) : Byte := (s.IN.read a).getD (Config.freeIn s.inDraw a)

/-- What the host reads at an address of `OUT` while no command runs: a byte without a value reads as a free value
(R48, U1, U2, U4). -/
def hostByteOut (s : State) (a : Nat) : Byte := (s.OUT.read a).getD (Config.freeOut s.outDraw a)

/-- A host read of a register (R10 to R16, R52). `CMD` reads as 0; bits [31:3] of `STATUS` and [31:4] of `ERR` read
as 0; `ERR` and `OUT_LEN` are unspecified while a command runs. -/
def readRegister (reg : Nat) (s : State) : Host.Outcome State Fault Refusal :=
  match reg with
  | 0 => .next (s.addReply (.rd 0) 0)
  | 1 => .next (s.addReply (.rd 1) ((s.STATUS.setWidth 3).setWidth 40))
  | 2 => .next (if s.BUSY then readWhileBusy s (.rd 2) 32 else s.addReply (.rd 2) (s.errCode.setWidth 40))
  | 3 => .next (s.addReply (.rd 3) (s.IN_LEN.setWidth 40))
  | 4 => .next (if s.BUSY then readWhileBusy s (.rd 4) 40 else s.addReply (.rd 4) s.OUT_LEN)
  | n => .refused (.reservedRegister n)

/-- A host write to `CMD` (R11): a legal value starts the command it encodes, and is dropped while a command runs
(the command's own meaning says so); a reserved value is dropped while a command runs and refused otherwise (R62). -/
def writeCommand (v : BitVec 40) (s : State) : Host.Outcome State Fault Refusal :=
  match decodeCmdWrite v with
  | .ok i => exec i s
  | .error _ => if s.BUSY then .next s else .refused .reservedCommand

/-- A host write to `IN_LEN` (R15), dropped while a command runs (R51). -/
def writeInLen (v : BitVec 40) (s : State) : Host.Outcome State Fault Refusal :=
  if s.BUSY then .next s
  else if v.toNat < 2 ^ 32 then .next { s with IN_LEN := v.setWidth 32 }
  else .refused .valueTooWide

/-- A host write to a register (R10): the read-only ones ignore it. -/
def writeRegister (reg : Nat) (v : BitVec 40) (s : State) : Host.Outcome State Fault Refusal :=
  match reg with
  | 0 => writeCommand v s
  | 1 => .next s
  | 2 => .next s
  | 3 => writeInLen v s
  | 4 => .next s
  | n => .refused (.reservedRegister n)

/-- A host write to a byte of `IN` (R41), dropped while a command runs (R51). -/
def writeIn (a : Nat) (v : Byte) (s : State) : State := if s.BUSY then s else { s with IN := s.IN.write a v }

/-- One transaction of R73. -/
def execTxn (t : HostTxn) (s : State) : Host.Outcome State Fault Refusal :=
  match t with
  | .wr reg v => writeRegister reg v s
  | .rd reg => readRegister reg s
  | .wrbIn a v => if a.toNat < s.cfg.inCap then .next (writeIn a.toNat v s) else .refused (.noSuchAddress a.toNat)
  | .rdbIn a =>
    if a.toNat < s.cfg.inCap then .next (s.addReply t ((hostByteIn s a.toNat).setWidth 40))
    else .refused (.noSuchAddress a.toNat)
  | .wrbOut a _ => if a.toNat < s.cfg.outCap then .next s else .refused (.noSuchAddress a.toNat)
  | .rdbOut a =>
    if a.toNat < s.cfg.outCap then
      .next (if s.BUSY then readWhileBusy s t 8 else s.addReply t ((hostByteOut s a.toNat).setWidth 40))
    else .refused (.noSuchAddress a.toNat)

/-- The core's turn: an idle core waits (R153); a busy one executes the operation `PHASE` names (R14). -/
def coreTurn (s : State) : Host.Outcome State Fault Refusal :=
  match decodePhase s.PHASE.code with
  | .ok i => exec i s
  | .error _ => .next s

/-- The platform's reset (R30, R160 to R162): the named registers are zero, everything else is unspecified. What is
outside HTB, and what the implementation fixes, stays. -/
def platformReset (s : State) : State :=
  { s with
    STATUS  := 0
    ERR     := 0
    IN_LEN  := 0
    OUT_LEN := 0
    PHASE   := .idle
    MODE    := if Config.freeMode s.draws then .decode else .encode
    work    := Config.freeWork s.draws
    IN      := []
    OUT     := []
    inDraw  := s.draws
    outDraw := s.draws
    draws   := s.draws + 1 }

/-- The transactions of a `COPYBACK` once `OUT_LEN` has been read as `m` (R74). -/
def copyBackScript (m : Nat) : List HostEvent :=
  ((List.range m).map fun a => .copyByte (BitVec.ofNat 32 a)) ++ [.txn (.wr 3 (BitVec.ofNat 40 m))]

/-- `COPYBACK` (R74): read `OUT_LEN` giving m, which must be at most 2^32 - 1, then copy m bytes and write `IN_LEN`. -/
def execCopyBack (s : State) : Host.Outcome State Fault Refusal :=
  match readRegister 4 s with
  | .next t =>
    let m := (t.replies.head?.map fun r => r.value.toNat).getD 0
    if m < 2 ^ 32 then .next (t.setScript (copyBackScript m ++ t.script)) else .refused .copyBackTooLong
  | o => o

/-- One byte of a `COPYBACK` (R74): `RDB OUT[a]` giving v, then `WRB IN[a], v`. -/
def execCopyByte (a : BitVec 32) (s : State) : Host.Outcome State Fault Refusal :=
  match execTxn (.rdbOut (a.setWidth 40)) s with
  | .next t =>
    let v := (t.replies.head?.map fun r => r.value.setWidth 8).getD 0
    execTxn (.wrbIn a v) t
  | o => o

/-- One read of `STATUS` of a `WAIT` (R74): with `DONE` = 1 the wait is over; otherwise the core gets a turn and the
wait goes on. -/
def execWait (s : State) : Host.Outcome State Fault Refusal :=
  match readRegister 1 s with
  | .next t => .next (if s.DONE then t else t.setScript (.yield :: .wait :: t.script))
  | o => o

/-- One event of the script; `s` no longer holds it. -/
def execEvent (e : HostEvent) (s : State) : Host.Outcome State Fault Refusal :=
  match e with
  | .txn t => execTxn t s
  | .yield => coreTurn s
  | .wait => execWait s
  | .copyBack => execCopyBack s
  | .copyByte a => execCopyByte a s
  | .reset => .next (platformReset s)

/-- The next thing that happens: the script's next event, and the core's turn when the script is empty. -/
def nextMove (s : State) : Host.Outcome State Fault Refusal :=
  match s.script with
  | [] => coreTurn s
  | e :: rest => execEvent e (s.setScript rest)

/-- `s` about to run the word of the opcode table's bits: a `CMD` word is the value of the host's next transaction,
with no command running; a `PHASE` word is in `PHASE`, with a command running and the core having the next turn. -/
def placeWord (s : State) (o : OpWord) : State :=
  match o with
  | .cmd op =>
    { s with
      STATUS := if s.BUSY then 0 else s.STATUS
      PHASE  := .idle
      script := .txn (.wr 0 (op.setWidth 40)) :: s.script }
  | .phase ph => { s with STATUS := statusBusy, PHASE := phaseOfCode ph, script := .yield :: s.script }

/-! ## The host's pseudo-transactions (R74) -/

/-- `LOAD b0 b1 ... b(n-1)`. -/
def hostLoad (bs : List Byte) : List HostEvent :=
  (bs.zipIdx.map fun (b, a) => .txn (.wrbIn (BitVec.ofNat 32 a) b)) ++ [.txn (.wr 3 (BitVec.ofNat 40 bs.length))]

/-- `ENCODE`. -/
def hostEncode : List HostEvent := [.txn (.wr 0 0x01)]

/-- `DECODE`. -/
def hostDecode : List HostEvent := [.txn (.wr 0 0x02)]

/-- The transactions of `EXPECT OUT = b0 ... b(m-1)`; the comparison is the host's own. -/
def hostReadOut (m : Nat) : List HostEvent :=
  .txn (.rd 4) :: (List.range m).map fun a => .txn (.rdbOut (BitVec.ofNat 40 a))

end Sys2Proof.Machine
end

