-- ==== Sys2Proof/Safety.lean ====
section
/-! DEFINITION. The terms claims are made in: what a state holds, the invariants of the sequencer and of the
buffers, and the clear reading of the spec's laws: the tree as a term, the container in closed form (R124) and the
function DECODE computes (R2, R126). No step of the machine uses any of it. -/

namespace Sys2Proof.Machine

/-! ## What a state holds -/

/-- `IN[0..]` begins with the bytes `d`. -/
def Memory.holds (m : Memory) (d : List Byte) : Prop := ∀ i, i < d.length → m.read i = d[i]?

/-- No command runs (R14: `PHASE` is IDLE exactly when `STATUS.BUSY` = 0). -/
def State.idle (s : State) : Prop := s.BUSY = false ∧ s.PHASE = .idle

/-- The host has loaded `d` (R50): its bytes stand in `IN` and its length in `IN_LEN`, which `IN` has room for. -/
def State.loaded (s : State) (d : List Byte) : Prop :=
  s.IN.holds d ∧ s.IN_LEN.toNat = d.length ∧ d.length ≤ s.cfg.inCap

/-- A command on the input `d` is running: its bytes stand in `IN` and its length in `LEN` (R15, R41). -/
def State.runsOn (s : State) (d : List Byte) : Prop := s.IN.holds d ∧ s.work.LEN.toNat = d.length

/-- The last command succeeded with the result `d` (R2, R12, R123). -/
def State.succeededWith (s : State) (d : List Byte) : Prop :=
  s.idle ∧ s.STATUS = statusDone ∧ s.ERR = 0 ∧ s.OUT_LEN.toNat = d.length ∧ s.OUT.holds d ∧
    ∀ a, d.length ≤ a → s.OUT.read a = none

/-- The last command ended in the error `e` (R141, R146): no byte of `OUT` has a value. -/
def State.failedWith (s : State) (e : ErrKind) : Prop :=
  s.idle ∧ s.STATUS = statusFailed ∧ s.ERR = errorCode e ∧ s.OUT_LEN = 0 ∧ s.OUT = []

/-- What no phase and no command changes: the input, the parameters, and everything outside the core (R26). -/
def State.sameOutside (s t : State) : Prop :=
  t.cfg = s.cfg ∧ t.IN = s.IN ∧ t.IN_LEN = s.IN_LEN ∧ t.script = s.script ∧ t.replies = s.replies ∧
    t.inDraw = s.inDraw

/-- What a phase that hands over to the next one leaves alone besides (R52: the host's registers do not move). -/
def State.sameRegisters (s t : State) : Prop :=
  t.STATUS = s.STATUS ∧ t.ERR = s.ERR ∧ t.IN_LEN = s.IN_LEN ∧ t.OUT_LEN = s.OUT_LEN ∧ t.MODE = s.MODE ∧
    t.draws = s.draws ∧ t.outDraw = s.outDraw

/-! ## Invariants -/

/-- The sequencer and the host registers agree (R12 to R16): `PHASE` is IDLE exactly when `BUSY` = 0, `STATUS` has
one of its four values, `ERROR` goes with a code, a running command has `ERR` = 0, `OUT_LEN` = 0, `LEN` = `IN_LEN`
within `IN_CAP`, and `PHASE` is one of its `MODE` (R122). -/
def State.sequencerInv (s : State) : Prop :=
  (s.PHASE = .idle ↔ s.BUSY = false) ∧
  (s.STATUS = 0 ∨ s.STATUS = statusBusy ∨ s.STATUS = statusDone ∨ s.STATUS = statusFailed) ∧
  (s.ERR ≠ 0 ↔ s.STATUS = statusFailed) ∧
  s.ERR.toNat ≤ 7 ∧
  (s.STATUS ≠ statusDone → s.OUT_LEN = 0) ∧
  (s.BUSY = true → s.work.LEN = s.IN_LEN ∧ s.IN_LEN.toNat ≤ s.cfg.inCap ∧ s.PHASE.occursIn s.MODE)

/-- What a running ENCODE owes the result: from MKLEAF on `HLEN` is the header length of the present symbols (R82), and
before FTSER every payload byte, from 1 + `HLEN` up to but not including `OPTR`, has a value (R110). -/
def State.payloadInv (s : State) : Prop :=
  (s.MODE = .encode → s.PHASE = .tbuild ∨ s.PHASE = .cgen ∨ s.PHASE = .bpack ∨ s.PHASE = .ftser →
    s.work.HLEN.toNat = hdrBytes s.work.FREQ.present.length) ∧
  (s.PHASE = .ftser → ∀ a, 1 + s.work.HLEN.toNat ≤ a → a < s.work.OPTR.toNat → s.OUT.read a ≠ none)

/-- The buffers are in canonical form, the host has written no byte of `IN` beyond its capacity, and while no command
runs the bytes of `OUT` that have a value are exactly those of the result, which `OUT` has room for (R43, R48). -/
def State.buffersInv (s : State) : Prop :=
  s.IN.wf = true ∧ s.OUT.wf = true ∧ (∀ c ∈ s.IN, c.1 < s.cfg.inCap) ∧
    (s.BUSY = false → (∀ a, s.OUT.read a ≠ none ↔ a < s.OUT_LEN.toNat) ∧ s.OUT_LEN.toNat ≤ s.cfg.outCap) ∧
    s.payloadInv

/-! ## The tree as a term (95 Part 2.2) -/

/-- A prefix tree: `leaf s:c` or `node(count, left, right)`. -/
inductive HTree where
  | leaf (s : Byte) (c : Nat)
  | node (c : Nat) (l r : HTree)
deriving DecidableEq, Repr

/-- The count of the root. -/
def HTree.count : HTree → Nat
  | .leaf _ c => c
  | .node c _ _ => c

/-- The length of the longest path from the root to a leaf. -/
def HTree.depth : HTree → Nat
  | .leaf _ _ => 0
  | .node _ l r => max l.depth r.depth + 1

/-- The number of leaves. -/
def HTree.leaves : HTree → Nat
  | .leaf _ _ => 1
  | .node _ l r => l.leaves + r.leaves

/-- The sum of the leaves' counts. -/
def HTree.leafSum : HTree → Nat
  | .leaf _ c => c
  | .node _ l r => l.leafSum + r.leafSum

/-- Every internal node's count is the sum of its children's (R19, R94). -/
def HTree.summed : HTree → Prop
  | .leaf _ _ => True
  | .node c l r => c = l.count + r.count ∧ l.summed ∧ r.summed

/-- Put a tree behind every tree of at most its count (R88). -/
def HTree.putBehind (q : List HTree) (t : HTree) : List HTree :=
  let k := q.countP fun u => decide (u.count ≤ t.count)
  q.take k ++ t :: q.drop k

/-- Merge the first two, the first becoming the left child, until one tree is left (R88, R89). -/
def HTree.mergeAll : Nat → List HTree → List HTree
  | fuel + 1, a :: b :: rest => HTree.mergeAll fuel (HTree.putBehind rest (.node (a.count + b.count) a b))
  | _, q => q

/-- The tree of a leaf list (R85 to R89): sort stably by count, merge. `none` is "no tree" (R92). -/
def HTree.build (leaves : List (Byte × Nat)) : Option HTree :=
  (HTree.mergeAll leaves.length ((leaves.map fun e => .leaf e.1 e.2).foldl HTree.putBehind [])).head?

/-- The leaves with the path to each, left (0) before right (1) (R95). -/
def HTree.paths : HTree → List (Byte × List Bool)
  | .leaf s _ => [(s, [])]
  | .node _ l r =>
    (l.paths.map fun e => (e.1, false :: e.2)) ++ r.paths.map fun e => (e.1, true :: e.2)

/-- The code table of a tree (R95), with the 1-bit code of a one-leaf tree (R96). -/
def HTree.codes : HTree → List (Byte × List Bool)
  | .leaf s _ => [(s, [false])]
  | t => t.paths

/-- The code of a symbol, first bit first. -/
def HTree.codeOf (t : HTree) (b : Byte) : Option (List Bool) := t.codes.lookup b

/-- Read one symbol off a bit sequence: from the root, 0 to the left and 1 to the right (R115). -/
def HTree.readOne : HTree → List Bool → Option (Byte × List Bool)
  | .leaf s _, bits => some (s, bits)
  | .node _ _ _, [] => none
  | .node _ l _, false :: bits => l.readOne bits
  | .node _ _ r, true :: bits => r.readOne bits

/-- Read one symbol as TWALK does: on a one-leaf tree a bit 0 is one symbol and a bit 1 leads nowhere (R116). -/
def HTree.readSymbol : HTree → List Bool → Option (Byte × List Bool)
  | .leaf s _, false :: bits => some (s, bits)
  | .leaf _ _, _ => none
  | t, bits => t.readOne bits

/-- Read a bit sequence as a whole number of codes; `none` when it is not one. Each symbol takes at least one bit, so
the number of bits is enough fuel. -/
def HTree.readAll (t : HTree) : Nat → List Bool → Option (List Byte)
  | _, [] => some []
  | 0, _ :: _ => none
  | fuel + 1, bits =>
    match t.readSymbol bits with
    | none => none
    | some (b, rest) => (HTree.readAll t fuel rest).map fun d => b :: d

/-- `NODE` from slot `i` down is the tree `t` (R19). -/
def represents (nodes : List Node) : NodeIdx → HTree → Prop
  | i, .leaf s c => ∃ n : NodeCount, nodes[i.toNat]? = some (.leaf s n) ∧ n.toNat = c
  | i, .node c l r => ∃ (n : NodeCount) (a b : NodeIdx),
      nodes[i.toNat]? = some (.inner n a b) ∧ n.toNat = c ∧ represents nodes a l ∧ represents nodes b r

/-! ## Codes as bits -/

/-- The number whose bits, most significant first, are these. -/
def natOfBits (l : List Bool) : Nat := l.foldl (fun acc b => 2 * acc + b.toNat) 0

/-- The bits of a code, first to last: `PAT[LEN-1]` down to `PAT[0]` (R22, R68). -/
def Code.bits (c : Code) : List Bool := (List.range c.LEN.toNat).map fun i => c.PAT.getLsbD (c.LEN.toNat - 1 - i)

/-- The bits of a byte, most significant first (R67). -/
def byteBits (b : Byte) : List Bool := (List.range 8).map fun i => b.getLsbD (7 - i)

/-- Eight bits as a byte, first bit most significant (R124 `pack`). -/
def byteOfBits (bits : List Bool) : Byte :=
  BitVec.ofNat 8 ((List.range 8).foldl (fun acc i => 2 * acc + (bits.getD i false).toNat) 0)

/-- Pack a bit sequence into bytes, the last one filled with zeros (R112, R124). -/
def packBits (bits : List Bool) : List Byte :=
  (List.range (ceil8 bits.length)).map fun k => byteOfBits (bits.drop (8 * k))

/-- The padding count of a payload of `t` bits (R112). -/
def padOf (t : Nat) : Nat := (8 - t % 8) % 8

/-! ## The two functions (R2) -/

/-- The symbols of `d` with their counts, ascending by symbol (R80, R82). -/
def frequencies (d : List Byte) : List (Byte × Nat) :=
  allSymbols.filterMap fun s => if d.count s = 0 then none else some (s, d.count s)

/-- The header of a table (R100, R101). -/
def headerBytes (es : List (Byte × Nat)) : List Byte :=
  beBytes 2 es.length ++ es.flatMap fun e => e.1 :: beBytes 4 e.2

/-- The code bits of `d` under the tree `t` (R112, R124 `S`). -/
def codeBits (t : HTree) (d : List Byte) : List Bool := d.flatMap fun b => (t.codeOf b).getD []

/-- The container of `d` under the tree `t`: padding byte, header, payload (R63, R124). -/
def containerOf (t : HTree) (d : List Byte) : List Byte :=
  BitVec.ofNat 8 (padOf (codeBits t d).length) :: (headerBytes (frequencies d) ++ packBits (codeBits t d))

/-- What ENCODE computes (R121, R124). -/
def encodeResult (d : List Byte) : Except ErrKind (List Byte) :=
  match HTree.build (frequencies d) with
  | none => .error .emptyInput
  | some t => .ok (containerOf t d)

/-- Entry `i` of the header of a container (R66). -/
def headerEntry (k : List Byte) (i : Nat) : Byte × Nat :=
  (k.getD (entryAddr i) 0, beNat ((k.drop (entryAddr i + 1)).take 4))

/-- The first `n` entries of the header of a container. -/
def headerEntries (k : List Byte) (n : Nat) : List (Byte × Nat) := (List.range n).map (headerEntry k)

/-- The leaf list of header entries: ascending by symbol, whatever the order in the header (R82, R105). -/
def leafList (es : List (Byte × Nat)) : List (Byte × Nat) :=
  allSymbols.filterMap fun s => (es.lookup s).map fun c => (s, c)

/-- The code bits of a payload: its bits but the last `pad` (R113). -/
def payloadBits (payload : List Byte) (pad : Nat) : List Bool :=
  (payload.flatMap byteBits).take (8 * payload.length - pad)

/-- What TWALK makes of the code bits (R115 to R117): as many symbols as the root's count says, or `CorruptTree`. -/
def walkResult (t : HTree) (bits : List Bool) : Except ErrKind (List Byte) :=
  match t.readAll bits.length bits with
  | none => .error .corruptTree
  | some d => if d.length = t.count then .ok d else .error .corruptTree

/-- What DECODE computes (R126, R144). -/
def decodeResult (k : List Byte) : Except ErrKind (List Byte) :=
  let n := beNat ((k.drop 1).take 2)
  let es := headerEntries k n
  let payload := k.drop (1 + hdrBytes n)
  let pad := (k.getD 0 0).toNat
  if k.length < 3 then .error .tooShort
  else if k.length - 1 < hdrBytes n then .error .truncatedHeader
  else if n = 0 ∨ ¬ (es.map Prod.fst).Nodup then .error .invalidEntryCount
  else if payload = [] then .error .emptyPayload
  else if 7 < pad then .error .badPadding
  else
    match HTree.build (leafList es) with
    | none => .error .invalidEntryCount
    | some t => walkResult t (payloadBits payload pad)

/-! ## Running a command -/

/-- `n` steps with nothing more in the script than the write of `v` to `CMD`: the steps of one command. -/
def runCommand (n : Nat) (v : BitVec 40) (s : State) : Host.Outcome State Fault Refusal :=
  Host.Core.run Sys2Proof.core n (s.setScript [.txn (.wr 0 v)])

/-- The command ended with this result (R2). -/
def State.endedWith (s : State) : Except ErrKind (List Byte) → Prop
  | .ok d => s.succeededWith d
  | .error e => s.failedWith e

end Sys2Proof.Machine
end

