-- ==== Sys2Proof/Certificates/Slice0/Obligations.lean ====
section
/-! DEFINITION. The statements for the provers. Each docstring names the rule of spec/ it formalises. -/

open Sys2Proof Sys2Proof.Machine

/-! ## Encodings -/

/-- R61: each word of the opcode map, written out bit by bit, decodes to its operation. -/
def Obligations.WrittenOutWordsDecode : Prop :=
  decode (.cmd 0b00000001) = .ok .encode ∧ decode (.cmd 0b00000010) = .ok .decode ∧
  decode (.phase 0b0001) = .ok .fcount ∧ decode (.phase 0b0010) = .ok .mkleaf ∧
  decode (.phase 0b0011) = .ok .tbuild ∧ decode (.phase 0b0100) = .ok .cgen ∧
  decode (.phase 0b0101) = .ok .bpack ∧ decode (.phase 0b0110) = .ok .ftser ∧
  decode (.phase 0b0111) = .ok .ftdes ∧ decode (.phase 0b1000) = .ok .bunpk ∧
  decode (.phase 0b1001) = .ok .twalk

/-- R60, R61: decoding inverts encoding, every operation's word is well formed, and a word that decodes is the word of
the operation it decodes to. -/
def Obligations.DecodeInvertsEncode : Prop :=
  (∀ i : Instr, decode (encode i) = .ok i ∧ (encode i).wf = true) ∧
  ∀ (o : OpWord) (i : Instr), decode o = .ok i → encode i = o

/-- R62: every reserved value is rejected by name: `CMD.OP` 0x00 and 0x03..0xFF, a `CMD` write with a bit above bit 7,
`PHASE` 0 (IDLE) and 10..15. -/
def Obligations.ReservedWordsAreRejected : Prop :=
  (∀ op : BitVec 8, op ≠ 1 → op ≠ 2 → decodeCommand op = .error .reservedCommand) ∧
  (∀ v : BitVec 40, 256 ≤ v.toNat → decodeCmdWrite v = .error .reservedCommand) ∧
  decodePhase 0 = .error .idlePhase ∧
  ∀ ph : BitVec 4, 10 ≤ ph.toNat → decodePhase ph = .error .reservedPhase

/-! ## A step -/

/-- R11, R14, R122: a step runs the operation it decodes: from the value of the host's next `CMD` write, or from
`PHASE` when it is the core's turn. An idle core waits (R153).
The script that says who moves is the model's choice (notes/assumptions/1.md, 9.md). -/
def Obligations.StepRunsTheDecodedOperation : Prop :=
  (∀ (s : State) (rest : List HostEvent) (v : BitVec 40) (i : Instr),
    s.script = .txn (.wr 0 v) :: rest → decodeCmdWrite v = .ok i → step s = exec i (s.setScript rest)) ∧
  (∀ (s : State) (i : Instr), s.script = [] → decodePhase s.PHASE.code = .ok i → step s = exec i s) ∧
  (∀ (s : State) (rest : List HostEvent) (i : Instr),
    s.script = .yield :: rest → decodePhase s.PHASE.code = .ok i → step s = exec i (s.setScript rest)) ∧
  (∀ s : State, s.script = [] → s.PHASE = .idle → step s = .next s)

/-- R30, R160: what reset leaves. -/
def Obligations.ResetLeavesTheNamedRegistersZero : Prop :=
  State.reset.STATUS = 0 ∧ State.reset.ERR = 0 ∧ State.reset.IN_LEN = 0 ∧ State.reset.OUT_LEN = 0 ∧
  State.reset.PHASE = .idle ∧ (∀ a, State.reset.IN.read a = none) ∧ ∀ a, State.reset.OUT.read a = none

/-- R30, R160, R162: the platform's reset, whatever was running: the named registers are zero, no byte of a buffer has
a value, a running command is abandoned. The parameters and the rest of the script stay.
That it is an event of the script is the model's choice (notes/assumptions/19.md). -/
def Obligations.PlatformResetAbandonsTheCommand : Prop :=
  ∀ (s : State) (rest : List HostEvent), s.script = .reset :: rest →
    ∃ t, step s = .next t ∧ t.STATUS = 0 ∧ t.ERR = 0 ∧ t.IN_LEN = 0 ∧ t.OUT_LEN = 0 ∧ t.idle ∧
      (∀ a, t.IN.read a = none) ∧ (∀ a, t.OUT.read a = none) ∧ t.cfg = s.cfg ∧ t.script = rest ∧ t.replies = s.replies

/-! ## Invariants -/

/-- The two invariants hold at reset. -/
def Obligations.InvariantsHoldAtReset : Prop := State.reset.sequencerInv ∧ State.reset.buffersInv

/-- R12 to R16, R120, R123, R146: the sequencer and the host registers agree after every step that begins in agreement. -/
def Obligations.EveryStepKeepsTheSequencerInvariant : Prop :=
  ∀ s t : State, s.sequencerInv → step s = .next t → t.sequencerInv

/-- R43, R48, R82, R110: the buffers stay in canonical form and within their capacities, and on an idle machine the bytes
of `OUT` below `OUT_LEN`, and no others, have a value; while ENCODE runs, `HLEN` is the header length of the present symbols
from MKLEAF on, and BPACK leaves no payload byte out. Which value the bytes have: `EncodeComputesTheContainer`,
`DecodeComputesTheData`.
That a byte can have no value is the model's form of "unspecified" (notes/assumptions/6.md). -/
def Obligations.EveryStepKeepsTheBuffersInvariant : Prop :=
  ∀ s t : State, s.sequencerInv → s.buffersInv → step s = .next t → t.buffersInv

/-- R26, R41: no operation writes `IN` or `IN_LEN`, nor anything outside the core. -/
def Obligations.NoOperationWritesTheInput : Prop :=
  ∀ (i : Instr) (s t : State), exec i s = .next t → s.sameOutside t

/-- R14, R52, R122: the core's turn hands over to the successor of R122, with the host registers (`STATUS`, `ERR`, `IN_LEN`,
`OUT_LEN`) as they were unless the command completes; or it enters an error. -/
def Obligations.PhasesFollowTheSuccessorTable : Prop :=
  ∀ s t : State, s.PHASE ≠ .idle → s.PHASE.occursIn s.MODE = true → coreTurn s = .next t →
    (Phase.mayFollow s.MODE s.PHASE t.PHASE = true ∧ t.MODE = s.MODE ∧ (t.PHASE ≠ .idle → s.sameRegisters t) ∧
      (t.PHASE = .idle → t.STATUS = statusDone ∧ t.ERR = 0)) ∨
    ∃ e, t = raiseError e s

/-- R51, R120, R150, R162: from acceptance to completion the host cannot influence a command: nothing it does but giving
the core its turn changes anything a command uses or leaves, and only a reset ends a command without a completion.
That the host can move between phases is the model's choice (notes/assumptions/9.md). -/
def Obligations.TheHostCannotInfluenceARunningCommand : Prop :=
  (∀ (s t : State) (e : HostEvent) (rest : List HostEvent), s.BUSY = true → s.script = e :: rest → e ≠ .yield → e ≠ .reset →
    step s = .next t →
    t.STATUS = s.STATUS ∧ t.ERR = s.ERR ∧ t.IN_LEN = s.IN_LEN ∧ t.OUT_LEN = s.OUT_LEN ∧ t.PHASE = s.PHASE ∧
      t.MODE = s.MODE ∧ t.work = s.work ∧ t.IN = s.IN ∧ t.OUT = s.OUT ∧ t.cfg = s.cfg) ∧
  ∀ s t : State, s.sequencerInv → s.BUSY = true → (∀ rest, s.script ≠ .reset :: rest) → step s = .next t →
    t.BUSY = true ∨ t.STATUS = statusDone ∨ t.STATUS = statusFailed

/-- R148, R153, R166: an idle machine keeps the result and the error of the last command until the host writes `CMD` or the
platform resets it; with nothing in the script it keeps everything. -/
def Obligations.AnIdleMachineKeepsTheResult : Prop :=
  ∀ s t : State, s.idle → (∀ v rest, s.script ≠ .txn (.wr 0 v) :: rest) → (∀ rest, s.script ≠ .reset :: rest) →
    step s = .next t →
    t.idle ∧ t.STATUS = s.STATUS ∧ t.ERR = s.ERR ∧ t.OUT_LEN = s.OUT_LEN ∧ t.OUT = s.OUT ∧ t.outDraw = s.outDraw ∧
      (s.script = [] → t = s)

/-- R140, R142, R81: which operation raises which error: a state that begins outside an error and ends in one carries the
code of one of the operation's own kinds.
R142 gives FTDES two kinds, `TruncatedHeader` and `InvalidEntryCount`, and gives `EmptyPayload` and `BadPadding` to DECODE's
checks between FTDES and MKLEAF: that FTDES's step makes these checks is the model's choice (notes/assumptions/10.md).
`EmptyInput` of FCOUNT is R81's case, which R142 leaves out. -/
def Obligations.EachErrorComesFromItsOwnOperation : Prop :=
  ∀ (i : Instr) (s t : State), s.STATUS ≠ statusFailed → exec i s = .next t → t.STATUS = statusFailed →
    match i with
    | .encode => t.ERR = errorCode .emptyInput
    | .decode => t.ERR = errorCode .tooShort
    | .fcount => t.ERR = errorCode .emptyInput
    | .ftdes  => t.ERR = errorCode .truncatedHeader ∨ t.ERR = errorCode .invalidEntryCount ∨
                  t.ERR = errorCode .emptyPayload ∨ t.ERR = errorCode .badPadding
    | .twalk  => t.ERR = errorCode .corruptTree
    | .mkleaf | .tbuild | .cgen | .bpack | .ftser | .bunpk => False

/-- R146: the error entry records the kind, and nothing else survives of the command; the input is unchanged. -/
def Obligations.ErrorEntryRecordsOnlyTheKind : Prop :=
  ∀ (e : ErrKind) (s : State),
    (raiseError e s).failedWith e ∧ s.sameOutside (raiseError e s) ∧ (raiseError e s).ERROR = true ∧
      (raiseError e s).DONE = true

/-! ## The commands -/

/-- R120, R121: ENCODE of a non-empty input, accepted: its effect on every field, and the first phase next.
That acceptance is a step of its own is the model's choice (notes/assumptions/9.md, 10.md); the draw counts are the model's own fields (22.md). -/
def Obligations.EncodeIsAccepted : Prop :=
  ∀ s : State, s.BUSY = false → s.IN_LEN ≠ 0 → s.IN_LEN.toNat ≤ s.cfg.inCap →
    exec .encode s = .next
      { s with
        MODE := .encode, work := { s.work with LEN := s.IN_LEN }, ERR := 0, OUT_LEN := 0, STATUS := 1,
        PHASE := .fcount, OUT := [], outDraw := s.draws, draws := s.draws + 1 }

/-- R120, R126: DECODE of at least 3 bytes, accepted: the padding byte is read, and the first phase is next.
The step is cut as in ENCODE (notes/assumptions/9.md, 10.md). -/
def Obligations.DecodeIsAccepted : Prop :=
  ∀ (s : State) (b : Byte), s.BUSY = false → 3 ≤ s.IN_LEN.toNat → s.IN_LEN.toNat ≤ s.cfg.inCap →
    s.IN.read 0 = some b →
    exec .decode s = .next
      { s with
        MODE := .decode, work := { s.work with LEN := s.IN_LEN, PADB := b }, ERR := 0, OUT_LEN := 0, STATUS := 1,
        PHASE := .ftdes, OUT := [], outDraw := s.draws, draws := s.draws + 1 }

/-- R131 (stated): ENCODE with `IN_LEN` = 0 completes with `ERR` = 1 and `OUT_LEN` = 0; no byte of `OUT` has a value. -/
def Obligations.EncodeOfNothingIsEmptyInput : Prop :=
  ∀ s : State, s.BUSY = false → s.IN_LEN = 0 →
    ∃ t, exec .encode s = .next t ∧ t.ERR = 1 ∧ t.OUT_LEN = 0 ∧ t.OUT = [] ∧ t.idle ∧ t.STATUS = statusFailed ∧
      s.sameOutside t

/-- R126: DECODE of fewer than 3 bytes is `TooShort`, whatever the bytes are. -/
def Obligations.DecodeOfFewerThanThreeBytesIsTooShort : Prop :=
  ∀ s : State, s.BUSY = false → s.IN_LEN.toNat < 3 → s.IN_LEN.toNat ≤ s.cfg.inCap →
    ∃ t, exec .decode s = .next t ∧ t.failedWith .tooShort ∧ s.sameOutside t

/-- R51 (stated), R11, R120: while a command runs, a write to `CMD`, `IN_LEN` or a byte of `IN` changes nothing; a reserved `CMD`
value is dropped as well (R11: "a write of any value"). -/
def Obligations.WritesAreDroppedWhileBusy : Prop :=
  (∀ s : State, s.BUSY = true → exec .encode s = .next s ∧ exec .decode s = .next s) ∧
  ∀ (s : State) (rest : List HostEvent), s.BUSY = true →
    (∀ v, s.script = .txn (.wr 0 v) :: rest → step s = .next (s.setScript rest)) ∧
    (∀ v, s.script = .txn (.wr 3 v) :: rest → step s = .next (s.setScript rest)) ∧
    (∀ a v, a.toNat < s.cfg.inCap → s.script = .txn (.wrbIn a v) :: rest → step s = .next (s.setScript rest))

/-- R43: a command whose input exceeds `IN_CAP`, or whose result would exceed `OUT_CAP`, is refused; at the
defaults no length register can exceed them.
Where in a command the refusal stands is the model's choice (notes/assumptions/12.md). -/
def Obligations.CapacitiesBoundTheCommands : Prop :=
  (∀ s : State, s.BUSY = false → s.cfg.inCap < s.IN_LEN.toNat →
    exec .encode s = .refused .inputExceedsCapacity ∧ exec .decode s = .refused .inputExceedsCapacity) ∧
  (∀ s : State, s.cfg.outCap < s.work.OPTR.toNat → exec .ftser s = .refused .resultExceedsCapacity) ∧
  (∀ (s : State) (w : Walker), walkPayload s = .ok w → s.cfg.outCap < w.EMIT.toNat →
    exec .twalk s = .refused .resultExceedsCapacity) ∧
  (∀ n : BitVec 32, n.toNat ≤ Config.default.inCap) ∧ ∀ n : BitVec 40, n.toNat ≤ Config.default.outCap

/-! ## The phases of ENCODE -/

/-- R80: FCOUNT counts the occurrences of each byte value; a symbol is present exactly when it occurs. Nothing but
`FREQ` and `PHASE` changes. -/
def Obligations.FcountCountsOccurrences : Prop :=
  ∀ (s : State) (d : List Byte), d ≠ [] → s.runsOn d →
    ∃ f : FreqTable, (∀ b, f.get b = if d.count b = 0 then none else some (BitVec.ofNat 32 (d.count b))) ∧
      exec .fcount s = .next { s with work := { s.work with FREQ := f }, PHASE := .mkleaf }

/-- R80 corner case (a): the 32-bit counts are the exact numbers of occurrences; (b): they add up to the length. -/
def Obligations.CountsAreExactAndAddUp : Prop :=
  ∀ (s t : State) (d : List Byte), d ≠ [] → s.runsOn d → exec .fcount s = .next t →
    (∀ b c, t.work.FREQ.get b = some c → c.toNat = d.count b ∧ 1 ≤ c.toNat) ∧
      (t.work.FREQ.present.map fun e => e.2.toNat).sum = d.length

/-- R81 (stated): FCOUNT entered with an input of length 0 has the failure `EmptyInput`. -/
def Obligations.FcountOfNothingIsEmptyInput : Prop :=
  ∀ s : State, s.work.LEN = 0 → exec .fcount s = .next (raiseError .emptyInput s)

/-- U15, R164, R49: every read by the core of a byte of `IN` that the host has not written faults and names the byte:
DECODE's read of byte 0; FCOUNT and BPACK at the first such byte of the input; FTDES at the first such byte of the header
(N at addresses 1 and 2, then the entries, of which those wholly before the byte have distinct symbols); TWALK at the
payload byte of the next bit, when the bits before it are the beginning of the codes of at most as many symbols as the
root counts.
That the fault is the model's stop for such a byte: notes/assumptions/7.md. -/
def Obligations.CoreReadsOfUnwrittenInputFault : Prop :=
  (∀ s : State, s.BUSY = false → 3 ≤ s.IN_LEN.toNat → s.IN_LEN.toNat ≤ s.cfg.inCap → s.IN.read 0 = none →
    exec .decode s = .fault (.unwrittenInput 0)) ∧
  (∀ (s : State) (a : Nat), a < s.work.LEN.toNat → s.IN.read a = none → (∀ x, x < a → s.IN.read x ≠ none) →
    exec .fcount s = .fault (.unwrittenInput a) ∧ exec .bpack s = .fault (.unwrittenInput a)) ∧
  (∀ (s : State) (a : Nat), 3 ≤ s.work.LEN.toNat → a = 1 ∨ a = 2 ∧ s.IN.read 1 ≠ none → s.IN.read a = none →
    exec .ftdes s = .fault (.unwrittenInput a)) ∧
  (∀ (s : State) (a n : Nat) (hi lo : Byte), s.IN.read 1 = some hi → s.IN.read 2 = some lo →
    n = 256 * hi.toNat + lo.toNat → 1 + hdrBytes n ≤ s.work.LEN.toNat → 3 ≤ a → a < 1 + hdrBytes n →
    s.IN.read a = none → (∀ x, 3 ≤ x → x < a → s.IN.read x ≠ none) →
    (∀ i j, i < j → entryAddr (j + 1) ≤ a → s.IN.read (entryAddr i) ≠ s.IN.read (entryAddr j)) →
    exec .ftdes s = .fault (.unwrittenInput a)) ∧
  ∀ (s : State) (t : HTree) (d : List Byte) (bits : List Bool), s.work.TREE = true →
    represents s.work.NODE s.work.ROOT t → (∀ b ∈ d, t.codeOf b ≠ none) → d.length ≤ t.count → bits <+: codeBits t d →
    bits.length < s.work.TBITS.toNat → (∀ j x, bits[j]? = some x → payloadBit s j = .ok x) →
    s.IN.read (1 + s.work.HLEN.toNat + bits.length / 8) = none →
    exec .twalk s = .fault (.unwrittenInput (1 + s.work.HLEN.toNat + bits.length / 8))

/-- R82: MKLEAF lists the present symbols in ascending order as leaves with their counts zero-extended to 40 bits, the
queue naming them in that order. Nothing but `NODE`, `QUEUE` (with them `NNODE`, `QN`), `NSYM`, `HLEN` in ENCODE, and
`PHASE` changes. -/
def Obligations.MkleafListsLeavesInSymbolOrder : Prop :=
  ∀ s : State, ∃ es : List (Byte × Count),
    es.Pairwise (fun a b => a.1.toNat < b.1.toNat) ∧ (∀ b c, (b, c) ∈ es ↔ s.work.FREQ.get b = some c) ∧
    es.length ≤ 256 ∧
    exec .mkleaf s = .next
      { s with
        PHASE := .tbuild
        work := { s.work with
          NODE  := es.map fun e => .leaf e.1 (e.2.setWidth 40)
          QUEUE := (List.range es.length).map (BitVec.ofNat 9)
          NSYM  := BitVec.ofNat 9 es.length
          HLEN  := if s.MODE = .encode then BitVec.ofNat 19 (2 + 5 * es.length) else s.work.HLEN } }

/-- R87 (stated): the sort is the stable one: a permutation of the queue, ascending by count, entries of equal count in
their former order. -/
def Obligations.TheSortIsStable : Prop :=
  ∀ (nodes : List Node) (q : List NodeIdx),
    (stableSort nodes q).Perm q ∧
    (stableSort nodes q).Pairwise (fun x y => (countAt nodes x).toNat ≤ (countAt nodes y).toNat) ∧
    ∀ c : Nat, (stableSort nodes q).filter (fun x => (countAt nodes x).toNat == c) =
      q.filter (fun x => (countAt nodes x).toNat == c)

/-- R88: a merge step on a sorted queue makes the first two entries the left and the right child of a new slot whose
count is their sum, and puts it behind every entry of at most its count and before every other; the queue stays sorted.
No 40-bit overflow is assumed away: the counts are those the table holds. -/
def Obligations.MergePutsTheParentBehindEqualCounts : Prop :=
  ∀ (nodes : List Node) (a b : NodeIdx) (rest : List NodeIdx),
    nodes.length < 511 → (∀ j ∈ rest, j.toNat < nodes.length) →
    rest.Pairwise (fun x y => (countAt nodes x).toNat ≤ (countAt nodes y).toNat) →
    ∃ (parent : Node) (p : NodeIdx) (before after : List NodeIdx),
      parent = .inner (countAt nodes a + countAt nodes b) a b ∧ p.toNat = nodes.length ∧ rest = before ++ after ∧
      mergeStep nodes a b rest = .ok (nodes ++ [parent], before ++ p :: after) ∧
      (∀ j ∈ before, (countAt nodes j).toNat ≤ parent.CNT.toNat) ∧ ∀ j ∈ after, parent.CNT.toNat < (countAt nodes j).toNat

/-- R86, R89: TBUILD on the leaf list MKLEAF leaves builds, in `NODE` from slot `ROOT` down, the tree of R85 to R89 as a
term, with 2 * NSYM - 1 slots, the root the last of them. Nothing but `NODE`, `QUEUE` (with them `NNODE`, `QN`),
`ROOT`, `TREE` and `PHASE` changes. -/
def Obligations.TbuildBuildsTheTree : Prop :=
  ∀ (s : State) (es : List (Byte × Count)), es ≠ [] → es.length ≤ 256 →
    s.work.NODE = (es.map fun e => .leaf e.1 (e.2.setWidth 40)) →
    s.work.QUEUE = (List.range es.length).map (BitVec.ofNat 9) →
    ∃ (t : HTree) (nodes : List Node) (root : NodeIdx),
      HTree.build (es.map fun e => (e.1, e.2.toNat)) = some t ∧ represents nodes root t ∧
      nodes.length = 2 * es.length - 1 ∧ root.toNat = 2 * es.length - 2 ∧ s.work.NODE <+: nodes ∧
      exec .tbuild s = .next
        { s with
          PHASE := if s.MODE = .encode then .cgen else .bunpk
          work := { s.work with NODE := nodes, QUEUE := [root], ROOT := root, TREE := true } }

/-- R92: TBUILD of an empty leaf list is "no tree"; CGEN and TWALK without a tree fault. -/
def Obligations.WithoutATreeCgenAndTwalkFault : Prop :=
  ∀ s : State,
    (s.work.QUEUE = [] → exec .tbuild s = .next
      { s with PHASE := if s.MODE = .encode then .cgen else .bunpk, work := { s.work with TREE := false } }) ∧
    (s.work.TREE = false → exec .cgen s = .fault .noTree ∧ exec .twalk s = .fault .noTree)

/-- R93 (b), (c), (d), V15: what the tie rule makes of four equal counts, of counts 1, 1, 2, and of two leaves. -/
def Obligations.TiesGoBehindEqualCounts : Prop :=
  (∀ (w x y z : Byte) (c : Nat), HTree.build [(w, c), (x, c), (y, c), (z, c)] =
    some (.node (c + c + (c + c)) (.node (c + c) (.leaf w c) (.leaf x c)) (.node (c + c) (.leaf y c) (.leaf z c)))) ∧
  (∀ x y z : Byte, HTree.build [(x, 1), (y, 1), (z, 2)] = some (.node 4 (.leaf z 2) (.node 2 (.leaf x 1) (.leaf y 1)))) ∧
  ∀ (x y : Byte) (c e : Nat), HTree.build [(x, c), (y, e)] =
    some (if c ≤ e then .node (c + e) (.leaf x c) (.leaf y e) else .node (e + c) (.leaf y e) (.leaf x c))

/-- R20, R94: the tree of a leaf list has exactly these leaves, each internal node counts what its children count, and
the root counts the sum of all. -/
def Obligations.TheTreeHasTheLeavesAndCountsThem : Prop :=
  ∀ (es : List (Byte × Nat)) (t : HTree), HTree.build es = some t →
    t.summed ∧ t.count = (es.map Prod.snd).sum ∧ t.leafSum = t.count ∧ t.leaves = es.length ∧
      (t.paths.map Prod.fst).Perm (es.map Prod.fst)

/-- R95, R96, R99: CGEN gives every leaf's symbol the path to it as its code (a one-leaf tree's symbol the one bit 0),
and no other symbol a code; the pattern is below 2^LEN (R22). Nothing but `CODE` and `PHASE` changes. -/
def Obligations.CgenGivesEachLeafItsPath : Prop :=
  ∀ (s : State) (t : HTree), s.work.TREE = true → represents s.work.NODE s.work.ROOT t → t.depth ≤ 64 →
    (t.paths.map Prod.fst).Nodup →
    ∃ c : CodeTable,
      exec .cgen s = .next { s with work := { s.work with CODE := c }, PHASE := .bpack } ∧
      (∀ b, (c.get b).map Code.bits = t.codeOf b) ∧
      ∀ b k, c.get b = some k → k.PAT.toNat < 2 ^ k.LEN.toNat

/-- R98 (stated): no code CGEN writes is a prefix of another. -/
def Obligations.NoCodeIsAPrefixOfAnother : Prop :=
  ∀ (s u : State) (t : HTree), s.work.TREE = true → represents s.work.NODE s.work.ROOT t → t.depth ≤ 64 →
    (t.paths.map Prod.fst).Nodup → exec .cgen s = .next u →
    ∀ b b' k k', b ≠ b' → u.work.CODE.get b = some k → u.work.CODE.get b' = some k' → ¬ k.bits <+: k'.bits

/-- R97: no input gives a code of length 0 or above 45, or above NSYM - 1 when there are two symbols or more, and the one
symbol of an input of one symbol has a code of 1 bit: said of the tree of the input, and of `CODE` as CGEN leaves it in
ENCODE's fifth step. -/
def Obligations.CodesAreOneToFortyFiveBitsLong : Prop :=
  (∀ (d : List Byte) (t : HTree), d.length < 2 ^ 32 → HTree.build (frequencies d) = some t →
    ∀ b bits, t.codeOf b = some bits →
      1 ≤ bits.length ∧ bits.length ≤ 45 ∧ (2 ≤ (frequencies d).length → bits.length ≤ (frequencies d).length - 1)) ∧
  ∀ (s : State) (d : List Byte), s.idle → s.loaded d → d ≠ [] →
    ∃ t : State, runCommand 5 0x01 s = .next t ∧ t.PHASE = .bpack ∧
      ∀ b k, t.work.CODE.get b = some k →
        1 ≤ k.LEN.toNat ∧ k.LEN.toNat ≤ 45 ∧ (2 ≤ t.work.NSYM.toNat → k.LEN.toNat ≤ t.work.NSYM.toNat - 1) ∧
          (t.work.NSYM.toNat = 1 → k.LEN.toNat = 1)

/-- R134: a more frequent symbol never has the longer code: said of the tree of the input, and of `CODE` as CGEN leaves it
in ENCODE's fifth step. -/
def Obligations.MoreFrequentSymbolsHaveNoLongerCodes : Prop :=
  (∀ (d : List Byte) (t : HTree), HTree.build (frequencies d) = some t →
    ∀ x y cx cy, t.codeOf x = some cx → t.codeOf y = some cy → d.count y < d.count x → cx.length ≤ cy.length) ∧
  ∀ (s : State) (d : List Byte), s.idle → s.loaded d → d ≠ [] →
    ∃ t : State, runCommand 5 0x01 s = .next t ∧ t.PHASE = .bpack ∧
      ∀ x y kx ky, t.work.CODE.get x = some kx → t.work.CODE.get y = some ky → d.count y < d.count x →
        kx.LEN.toNat ≤ ky.LEN.toNat

/-- R110, R112: BPACK's bytes are the bit-serial ones: the codes of the input bytes in order, each first bit first, the
last byte filled with zeros. It writes `OUT[1+HLEN ..]` and leaves every other byte; of the working registers it writes
`ACC`, `ACCN`, `OPTR`, `TBITS` and `PADC`; `ACC` holds the number of the bits left over, the last TBITS mod 8 ones, with
zeros above them (R23), and `ACCN` how many they are. -/
def Obligations.BpackPacksTheCodesBitSerially : Prop :=
  ∀ (s : State) (d : List Byte) (bits : List Bool), s.runsOn d →
    (∀ b ∈ d, ∃ c, s.work.CODE.get b = some c ∧ c.LEN.toNat ≤ 57 ∧ c.PAT.toNat < 2 ^ c.LEN.toNat) →
    bits = (d.flatMap fun b => ((s.work.CODE.get b).map Code.bits).getD []) →
    ∃ t, exec .bpack s = .next t ∧
      t = { s with
        OUT := t.OUT, PHASE := .ftser
        work := { s.work with
          ACC := BitVec.ofNat 64 (natOfBits (bits.drop (8 * (bits.length / 8)))), ACCN := BitVec.ofNat 7 (bits.length % 8)
          OPTR := t.work.OPTR, TBITS := t.work.TBITS, PADC := BitVec.ofNat 3 (padOf bits.length) } } ∧
      t.work.TBITS.toNat = bits.length ∧
      t.work.OPTR.toNat = 1 + s.work.HLEN.toNat + ceil8 bits.length ∧
      ∀ a, t.OUT.read a =
        if 1 + s.work.HLEN.toNat ≤ a ∧ a < t.work.OPTR.toNat then (packBits bits)[a - (1 + s.work.HLEN.toNat)]?
        else s.OUT.read a

/-- R101, R121, R123: FTSER writes the header at 1 .. HLEN and the padding count at 0, leaves the payload as it is, and
ENCODE completes with the container's length; what lies at or beyond it has no value. Working state is not described:
it is unspecified from here on.
That the end of ENCODE belongs to this step is the model's choice (notes/assumptions/10.md). -/
def Obligations.FtserWritesTheHeaderAndCompletes : Prop :=
  ∀ (s : State) (es : List (Byte × Count)),
    es.Pairwise (fun a b => a.1.toNat < b.1.toNat) → (∀ b c, (b, c) ∈ es ↔ s.work.FREQ.get b = some c) →
    s.work.NSYM.toNat = es.length → 1 + hdrBytes es.length ≤ s.work.OPTR.toNat → s.work.OPTR.toNat ≤ s.cfg.outCap →
    ∃ t, exec .ftser s = .next t ∧
      t = { s with
        OUT_LEN := s.work.OPTR, ERR := 0, PHASE := .idle, STATUS := 2, OUT := t.OUT, work := t.work
        outDraw := s.draws, draws := s.draws + 1 } ∧
      ∀ a, t.OUT.read a =
        if a = 0 then some (s.work.PADC.setWidth 8)
        else if a < 1 + hdrBytes es.length then (headerBytes (es.map fun e => (e.1, e.2.toNat)))[a - 1]?
        else if a < s.work.OPTR.toNat then s.OUT.read a
        else none

/-! ## The phases of DECODE -/

/-- R104, R105, R126: FTDES of a header that fits, with distinct symbols in any order and any counts, followed by at
least one payload byte and with a padding count of at most 7, leaves the table of its entries. Nothing but `N16`,
`HLEN`, `FREQ`, `PLEN` and `PHASE` changes.
That DECODE's checks belong to this step is the model's choice (notes/assumptions/10.md). -/
def Obligations.FtdesReadsTheTable : Prop :=
  ∀ (s : State) (es : List (Byte × Nat)) (plen : Nat),
    es ≠ [] → (es.map Prod.fst).Nodup → (∀ e ∈ es, e.2 < 2 ^ 32) → 1 ≤ plen →
    (∀ i, i < hdrBytes es.length → s.IN.read (1 + i) = (headerBytes es)[i]?) →
    s.work.LEN.toNat = 1 + hdrBytes es.length + plen → s.work.PADB.toNat ≤ 7 →
    ∃ f : FreqTable, (∀ b, f.get b = (es.lookup b).map (BitVec.ofNat 32)) ∧
      exec .ftdes s = .next
        { s with
          PHASE := .mkleaf
          work := { s.work with
            N16 := BitVec.ofNat 16 es.length, HLEN := BitVec.ofNat 19 (2 + 5 * es.length), FREQ := f
            PLEN := BitVec.ofNat 32 plen } }

/-- R104, R106, R107, R126, R144: what FTDES raises, in the order of the tests: `TruncatedHeader` exactly when the header
does not fit, then `InvalidEntryCount` for no entry or a repeated symbol, then `EmptyPayload`, then `BadPadding`.
That DECODE's checks belong to this step is the model's choice (notes/assumptions/10.md); so is LEN = 0 (17.md). -/
def Obligations.FtdesRaisesTheFirstError : Prop :=
  ∀ (s : State) (k : List Byte), s.runsOn k →
    let n := beNat ((k.drop 1).take 2)
    (k.length < 3 → exec .ftdes s = .next (raiseError .truncatedHeader s)) ∧
    (3 ≤ k.length →
      (k.length - 1 < hdrBytes n → exec .ftdes s = .next (raiseError .truncatedHeader s)) ∧
      (hdrBytes n ≤ k.length - 1 →
        ((n = 0 ∨ ¬ ((headerEntries k n).map Prod.fst).Nodup) → exec .ftdes s = .next (raiseError .invalidEntryCount s)) ∧
        (n ≠ 0 → ((headerEntries k n).map Prod.fst).Nodup →
          (k.length = 1 + hdrBytes n → exec .ftdes s = .next (raiseError .emptyPayload s)) ∧
          (k.length ≠ 1 + hdrBytes n → 7 < s.work.PADB.toNat → exec .ftdes s = .next (raiseError .badPadding s)))))

/-- R107 (which the spec marks as derived): a header of more than 256 entries that fits is `InvalidEntryCount`, and after an FTDES that raises
nothing there are 1 to 256 entries, exactly `N16` of them present. -/
def Obligations.MoreThan256EntriesAreInvalid : Prop :=
  (∀ (s : State) (k : List Byte), s.runsOn k → 3 ≤ k.length → 256 < beNat ((k.drop 1).take 2) →
    hdrBytes (beNat ((k.drop 1).take 2)) ≤ k.length - 1 → exec .ftdes s = .next (raiseError .invalidEntryCount s)) ∧
  ∀ s t : State, exec .ftdes s = .next t → t.PHASE = .mkleaf →
    1 ≤ t.work.N16.toNat ∧ t.work.N16.toNat ≤ 256 ∧
      (allSymbols.countP fun b => (t.work.FREQ.get b).isSome) = t.work.N16.toNat

/-- R108 (which the spec marks as derived): FTDES, given the header FTSER wrote from a table and any bytes after it, rebuilds the table. -/
def Obligations.TheTableSurvivesTheRoundTrip : Prop :=
  ∀ (s t s' : State) (n : Nat), n = (allSymbols.countP fun b => (s.work.FREQ.get b).isSome) → 1 ≤ n →
    s.work.NSYM.toNat = n → 1 + hdrBytes n ≤ s.work.OPTR.toNat → exec .ftser s = .next t →
    (∀ a, 1 ≤ a → a < 1 + hdrBytes n → s'.IN.read a = t.OUT.read a) → 1 + hdrBytes n ≤ s'.work.LEN.toNat →
    ∃ w, readHeader s' = .ok w ∧ w.N16.toNat = n ∧ w.HLEN.toNat = hdrBytes n ∧ ∀ b, w.FREQ.get b = s.work.FREQ.get b

/-- R113: BUNPK's number of code bits, and the bits it defines: payload bit j, most significant first, read on demand.
Nothing but `TBITS` and `PHASE` changes. -/
def Obligations.BunpkTrimsThePadding : Prop :=
  ∀ s : State,
    exec .bunpk s = .next
      { s with
        PHASE := .twalk
        work := { s.work with TBITS := BitVec.ofNat 40 (8 * s.work.PLEN.toNat - s.work.PADB.toNat) } } ∧
    (1 ≤ s.work.PLEN.toNat → s.work.PADB.toNat ≤ 7 → ∀ t, exec .bunpk s = .next t →
      t.work.TBITS.toNat + s.work.PADB.toNat = 8 * s.work.PLEN.toNat) ∧
    ∀ (payload : List Byte) (pad : Nat), pad ≤ 7 →
      (∀ i, i < payload.length → s.IN.read (1 + s.work.HLEN.toNat + i) = payload[i]?) →
      ∀ j b, (payloadBits payload pad)[j]? = some b → payloadBit s j = .ok b

/-- R117 (stated), R115, R116: TWALK on a tree and a bit sequence. When the bits are a whole number of codes that yields as many
symbols as the root counts, the command completes with exactly these symbols; in every other case it is `CorruptTree`.
Working state is not described after completion: it is unspecified. -/
def Obligations.TwalkEmitsTheSymbolsOrRaisesCorruptTree : Prop :=
  ∀ (s : State) (t : HTree) (bits : List Bool), s.work.TREE = true → represents s.work.NODE s.work.ROOT t →
    s.work.TBITS.toNat = bits.length → (∀ j b, bits[j]? = some b → payloadBit s j = .ok b) →
    (∀ d, walkResult t bits = .ok d → d.length ≤ s.cfg.outCap →
      ∃ u, exec .twalk s = .next u ∧
        u = { s with
          OUT_LEN := BitVec.ofNat 40 d.length, ERR := 0, PHASE := .idle, STATUS := 2, OUT := u.OUT, work := u.work
          outDraw := s.draws, draws := s.draws + 1 } ∧
        u.succeededWith d) ∧
    (∀ e, walkResult t bits = .error e → e = .corruptTree ∧ exec .twalk s = .next (raiseError .corruptTree s))

/-- R116: on a one-leaf tree of n symbols, n bits 0 complete with n times the symbol, and any bit 1 is `CorruptTree`. -/
def Obligations.OneLeafTreesReadZeroBitsOnly : Prop :=
  ∀ (s : State) (b : Byte) (n : Nat) (bits : List Bool), s.work.TREE = true →
    represents s.work.NODE s.work.ROOT (.leaf b n) →
    s.work.TBITS.toNat = bits.length → (∀ j x, bits[j]? = some x → payloadBit s j = .ok x) →
    (bits = List.replicate n false → n ≤ s.cfg.outCap →
      ∃ u, exec .twalk s = .next u ∧ u.succeededWith (List.replicate n b)) ∧
    (true ∈ bits → exec .twalk s = .next (raiseError .corruptTree s))

/-- R118: TWALK undoes BPACK: given exactly the codes of a byte sequence, with the root's count its length, it completes
with that byte sequence. -/
def Obligations.WalkingUndoesPacking : Prop :=
  ∀ (s : State) (t : HTree) (d : List Byte) (bits : List Bool), s.work.TREE = true →
    represents s.work.NODE s.work.ROOT t → (∀ b ∈ d, t.codeOf b ≠ none) → bits = codeBits t d →
    s.work.TBITS.toNat = bits.length → (∀ j b, bits[j]? = some b → payloadBit s j = .ok b) → t.count = d.length →
    d.length ≤ s.cfg.outCap →
    ∃ u, exec .twalk s = .next u ∧ u.succeededWith d

/-! ## Whole commands -/

/-- R99 (which the spec marks as derived): in an ENCODE, once CGEN has run, the symbols with a code are the present ones, for two symbols or more a
code's length is the depth of its leaf, and the sum of 2^(-LEN) is 1 (1/2 for one symbol), here in units of 2^(-64). -/
def Obligations.CodesBelongToThePresentSymbols : Prop :=
  ∀ (s : State) (d : List Byte), s.idle → s.loaded d → d ≠ [] →
    ∃ (t : State) (tree : HTree), runCommand 5 0x01 s = .next t ∧ t.PHASE = .bpack ∧
      represents t.work.NODE t.work.ROOT tree ∧
      (∀ b, (t.work.CODE.get b).isSome = (t.work.FREQ.get b).isSome) ∧
      (2 ≤ t.work.NSYM.toNat → ∀ b k, t.work.CODE.get b = some k → ∃ path, (b, path) ∈ tree.paths ∧ path.length = k.LEN.toNat) ∧
      (allSymbols.map fun b => ((t.work.CODE.get b).map fun k => 2 ^ (64 - k.LEN.toNat)).getD 0).sum =
        if t.work.NSYM = 1 then 2 ^ 63 else 2 ^ 64

/-- R124 (which the spec marks as derived), R121: ENCODE, run to its end, computes the container in closed form, or `EmptyInput`; the input stays.
The number of steps is the model's choice (notes/assumptions/9.md). -/
def Obligations.EncodeComputesTheContainer : Prop :=
  ∀ (s : State) (d : List Byte), s.idle → s.loaded d → (∀ k, encodeResult d = .ok k → k.length ≤ s.cfg.outCap) →
    ∃ t, runCommand 7 0x01 s = .next t ∧ t.endedWith (encodeResult d) ∧ t.IN = s.IN ∧ t.IN_LEN = s.IN_LEN ∧
      t.cfg = s.cfg ∧ t.replies = s.replies ∧ t.script = [] ∧
      ∀ tree, HTree.build (frequencies d) = some tree →
        t.OUT_LEN.toNat = 3 + 5 * (frequencies d).length + ceil8 (codeBits tree d).length

/-- R126, R144: DECODE, run to its end, computes the function `decodeResult`: the data, or the first error.
The number of steps is the model's choice (notes/assumptions/9.md). -/
def Obligations.DecodeComputesTheData : Prop :=
  ∀ (s : State) (k : List Byte), s.idle → s.loaded k → (∀ d, decodeResult k = .ok d → d.length ≤ s.cfg.outCap) →
    ∃ t, runCommand 6 0x02 s = .next t ∧ t.endedWith (decodeResult k) ∧ t.IN = s.IN ∧ t.IN_LEN = s.IN_LEN ∧
      t.cfg = s.cfg ∧ t.replies = s.replies ∧ t.script = []

/-- R127: for every non-empty input whose container fits `IN_LEN` and the buffers, ENCODE succeeds, and DECODE of what it
left in `OUT` succeeds with the input. -/
def Obligations.DecodeOfEncodeIsTheInput : Prop :=
  ∀ (s : State) (d k : List Byte), s.idle → s.loaded d → d ≠ [] → encodeResult d = .ok k → k.length ≤ s.cfg.outCap →
    ∃ t, runCommand 7 0x01 s = .next t ∧ t.succeededWith k ∧
      ∀ s' : State, s'.idle → s'.IN_LEN.toNat = t.OUT_LEN.toNat → s'.IN_LEN.toNat ≤ s'.cfg.inCap →
        (∀ a, a < t.OUT_LEN.toNat → s'.IN.read a = t.OUT.read a) → d.length ≤ s'.cfg.outCap →
        ∃ u, runCommand 6 0x02 s' = .next u ∧ u.succeededWith d

/-- R128 (which the spec marks as derived): 41 41 41, whose tree is a single leaf, encodes to 05 00 01 41 00 00 00 03 00, and that decodes back. -/
def Obligations.ThreeEqualBytesRoundTrip : Prop :=
  (∀ s : State, s.idle → s.loaded [0x41, 0x41, 0x41] → 9 ≤ s.cfg.outCap →
    ∃ t, runCommand 7 0x01 s = .next t ∧ t.succeededWith [0x05, 0x00, 0x01, 0x41, 0x00, 0x00, 0x00, 0x03, 0x00]) ∧
  ∀ s : State, s.idle → s.loaded [0x05, 0x00, 0x01, 0x41, 0x00, 0x00, 0x00, 0x03, 0x00] → 3 ≤ s.cfg.outCap →
    ∃ t, runCommand 6 0x02 s = .next t ∧ t.succeededWith [0x41, 0x41, 0x41]

/-- R125 (which the spec marks as derived): the result of a command is a function of the command and of `IN[0..IN_LEN-1]` and `IN_LEN` alone: two machines
that agree on these give the same result, whatever else differs. -/
def Obligations.TheResultDependsOnTheInputOnly : Prop :=
  ∀ (s s' t : State) (d : List Byte) (n : Nat) (v : BitVec 40), (n = 7 ∧ v = 0x01) ∨ (n = 6 ∧ v = 0x02) →
    s.idle → s.loaded d → s'.idle → s'.loaded d → s'.cfg.outCap = s.cfg.outCap → runCommand n v s = .next t →
    ∃ t', runCommand n v s' = .next t' ∧ t'.STATUS = t.STATUS ∧ t'.ERR = t.ERR ∧ t'.OUT_LEN = t.OUT_LEN ∧
      ∀ a, a < t.OUT_LEN.toNat → t'.OUT.read a = t.OUT.read a

/-- R129 (which the spec marks as derived): DECODE of a proper prefix of a container ENCODE writes never succeeds; the error goes by the length of the cut. -/
def Obligations.TruncatedContainersAreRejected : Prop :=
  ∀ (s : State) (d k : List Byte) (c : Nat), encodeResult d = .ok k → d.length < 2 ^ 32 → c < k.length → s.idle →
    s.loaded (k.take c) →
    ∃ t, runCommand 6 0x02 s = .next t ∧
      t.failedWith
        (if c < 3 then .tooShort
         else if c < 1 + hdrBytes (frequencies d).length then .truncatedHeader
         else if c = 1 + hdrBytes (frequencies d).length then .emptyPayload
         else .corruptTree)

/-- R130 (which the spec marks as derived): whenever DECODE succeeds, it has emitted as many symbols as the header's counts add up to, and the code
bits are exactly the codes of what it emitted; a symbol's own count is not checked. -/
def Obligations.NoSilentWrongAnswer : Prop :=
  (∀ (s t : State) (k : List Byte), s.idle → s.loaded k → runCommand 6 0x02 s = .next t → t.STATUS = statusDone →
    ∃ (tree : HTree) (d : List Byte),
      HTree.build (leafList (headerEntries k (beNat ((k.drop 1).take 2)))) = some tree ∧
      t.OUT_LEN.toNat = d.length ∧ t.OUT.holds d ∧
      d.length = ((headerEntries k (beNat ((k.drop 1).take 2))).map Prod.snd).sum ∧
      payloadBits (k.drop (1 + hdrBytes (beNat ((k.drop 1).take 2)))) (k.getD 0 0).toNat = codeBits tree d) ∧
  ∃ (k d : List Byte) (b : Byte) (c : Nat), (b, c) ∈ headerEntries k (beNat ((k.drop 1).take 2)) ∧ d.count b ≠ c ∧
    ∀ s : State, s.idle → s.loaded k → d.length ≤ s.cfg.outCap →
      ∃ t, runCommand 6 0x02 s = .next t ∧ t.succeededWith d

/-! ## The host -/

/-- R10 to R16, R52: what a register read returns; `STATUS`, `IN_LEN` and `CMD` always, `ERR` and `OUT_LEN` while no
command runs (while one runs: some value). A read changes nothing but the host's log (and the draw count).
The log of what was read is the model's own (notes/assumptions/18.md). -/
def Obligations.RegisterReadsReturnTheRegisters : Prop :=
  ∀ (s : State) (rest : List HostEvent) (n : Nat), s.script = .txn (.rd n) :: rest →
    (n = 0 → step s = .next ((s.setScript rest).addReply (.rd n) 0)) ∧
    (n = 1 → step s = .next ((s.setScript rest).addReply (.rd n) (BitVec.ofNat 40 (s.STATUS.toNat % 8)))) ∧
    (n = 3 → step s = .next ((s.setScript rest).addReply (.rd n) (BitVec.ofNat 40 s.IN_LEN.toNat))) ∧
    (n = 2 → s.BUSY = false → step s = .next ((s.setScript rest).addReply (.rd n) (BitVec.ofNat 40 (s.ERR.toNat % 16)))) ∧
    (n = 4 → s.BUSY = false → step s = .next ((s.setScript rest).addReply (.rd n) s.OUT_LEN)) ∧
    (n = 2 ∨ n = 4 → s.BUSY = true →
      ∃ v, step s = .next (({ s with script := rest, draws := s.draws + 1 } : State).addReply (.rd n) v)) ∧
    (5 ≤ n → step s = .refused (.reservedRegister n))

/-- R52 (stated): while a command runs, `STATUS` reads 0b001, `ERR`, `OUT_LEN` and `OUT` read as some value that nothing
is said of, and `IN` and `IN_LEN` read as they were written. -/
def Obligations.ReadsWhileBusy : Prop :=
  ∀ (s : State) (rest : List HostEvent), s.sequencerInv → s.BUSY = true →
    (s.script = .txn (.rd 1) :: rest → step s = .next ((s.setScript rest).addReply (.rd 1) 0b001)) ∧
    (∀ n, n = 2 ∨ n = 4 → s.script = .txn (.rd n) :: rest →
      ∃ v, step s = .next (({ s with script := rest, draws := s.draws + 1 } : State).addReply (.rd n) v)) ∧
    (∀ a, a.toNat < s.cfg.outCap → s.script = .txn (.rdbOut a) :: rest →
      ∃ v, step s = .next (({ s with script := rest, draws := s.draws + 1 } : State).addReply (.rdbOut a) v)) ∧
    (s.script = .txn (.rd 3) :: rest → step s = .next ((s.setScript rest).addReply (.rd 3) (BitVec.ofNat 40 s.IN_LEN.toNat))) ∧
    ∀ a b, a.toNat < s.cfg.inCap → s.IN.read a.toNat = some b → s.script = .txn (.rdbIn a) :: rest →
      step s = .next ((s.setScript rest).addReply (.rdbIn a) (BitVec.ofNat 40 b.toNat))

/-- R10, R15, R41, R42, R43, R62: what a host write does. While no command runs, registers 1, 2 and 4 and `OUT` ignore it;
`IN_LEN` and a byte of `IN` take it, every other byte of `IN` stays; a reserved `CMD` value and an `IN_LEN` value that has
no 32 bits are refused. A register above 4 and an address of `IN` or `OUT` that the implementation does not provide are
refused, running or not.
The refusals but the one of R62: notes/assumptions/13.md. The write to `OUT` is a transaction of the model
(notes/assumptions/14.md). -/
def Obligations.HostWritesGoWhereTheyShould : Prop :=
  (∀ (s : State) (rest : List HostEvent), s.BUSY = false →
    (∀ n v, n = 1 ∨ n = 2 ∨ n = 4 → s.script = .txn (.wr n v) :: rest → step s = .next (s.setScript rest)) ∧
    (∀ a v, a.toNat < s.cfg.outCap → s.script = .txn (.wrbOut a v) :: rest → step s = .next (s.setScript rest)) ∧
    (∀ v, v.toNat < 2 ^ 32 → s.script = .txn (.wr 3 v) :: rest →
      step s = .next { s with script := rest, IN_LEN := BitVec.ofNat 32 v.toNat }) ∧
    (∀ a v, a.toNat < s.cfg.inCap → s.script = .txn (.wrbIn a v) :: rest →
      ∃ m, step s = .next { s with script := rest, IN := m } ∧
        ∀ x, m.read x = if x = a.toNat then some v else s.IN.read x) ∧
    (∀ v, v.toNat ≠ 1 → v.toNat ≠ 2 → s.script = .txn (.wr 0 v) :: rest → step s = .refused .reservedCommand) ∧
    (∀ v, 2 ^ 32 ≤ v.toNat → s.script = .txn (.wr 3 v) :: rest → step s = .refused .valueTooWide)) ∧
  ∀ (s : State) (rest : List HostEvent),
    (∀ n v, 5 ≤ n → s.script = .txn (.wr n v) :: rest → step s = .refused (.reservedRegister n)) ∧
    (∀ a v, s.cfg.inCap ≤ a.toNat → s.script = .txn (.wrbIn a v) :: rest → step s = .refused (.noSuchAddress a.toNat)) ∧
    (∀ a v, s.cfg.outCap ≤ a.toNat → s.script = .txn (.wrbOut a v) :: rest → step s = .refused (.noSuchAddress a.toNat))

/-- R41, R42, R43, R47, R52: a byte of `IN` the host has written reads back, also while a command runs; a byte of the result
reads back while none runs. A byte of `IN` without a value, and while no command runs one of `OUT`, reads as some value of
which nothing is said (U1, U2, U4) but that it is the same on every read (R47): it hangs on the address and on `inDraw`,
which only a reset changes, or `outDraw`, which an idle machine keeps (`AnIdleMachineKeepsTheResult`). An address the
implementation does not provide is refused.
The free values: notes/assumptions/6.md. Which addresses are refused: notes/assumptions/13.md. -/
def Obligations.BufferReadsReturnTheBytes : Prop :=
  (∀ (s : State) (rest : List HostEvent) (b : Byte),
    (∀ a, a.toNat < s.cfg.inCap → s.IN.read a.toNat = some b → s.script = .txn (.rdbIn a) :: rest →
      step s = .next ((s.setScript rest).addReply (.rdbIn a) (BitVec.ofNat 40 b.toNat))) ∧
    (∀ a, a.toNat < s.cfg.outCap → s.BUSY = false → s.OUT.read a.toNat = some b → s.script = .txn (.rdbOut a) :: rest →
      step s = .next ((s.setScript rest).addReply (.rdbOut a) (BitVec.ofNat 40 b.toNat))) ∧
    (∀ a, s.cfg.inCap ≤ a.toNat → s.script = .txn (.rdbIn a) :: rest → step s = .refused (.noSuchAddress a.toNat)) ∧
    (∀ a, s.cfg.outCap ≤ a.toNat → s.script = .txn (.rdbOut a) :: rest → step s = .refused (.noSuchAddress a.toNat))) ∧
  (∀ (draw : Nat) (a : BitVec 32), ∃ v : Byte, ∀ (s : State) (rest : List HostEvent), s.inDraw = draw →
    a.toNat < s.cfg.inCap → s.IN.read a.toNat = none → s.script = .txn (.rdbIn a) :: rest →
    step s = .next ((s.setScript rest).addReply (.rdbIn a) (BitVec.ofNat 40 v.toNat))) ∧
  (∀ (draw : Nat) (a : BitVec 40), ∃ v : Byte, ∀ (s : State) (rest : List HostEvent), s.outDraw = draw →
    a.toNat < s.cfg.outCap → s.BUSY = false → s.OUT.read a.toNat = none → s.script = .txn (.rdbOut a) :: rest →
    step s = .next ((s.setScript rest).addReply (.rdbOut a) (BitVec.ofNat 40 v.toNat))) ∧
  ∀ s t : State, (∀ rest, s.script ≠ .reset :: rest) → step s = .next t → t.inDraw = s.inDraw

/-- R74: `WAIT` reads `STATUS`; with `DONE` = 1 it is over, otherwise the core gets a turn before it reads again.
`WAIT` as an event is the model's choice (notes/assumptions/18.md). -/
def Obligations.WaitPollsUntilDone : Prop :=
  ∀ (s : State) (rest : List HostEvent), s.script = .wait :: rest →
    (s.DONE = true → step s =
      .next ((s.setScript rest).addReply (.rd 1) (BitVec.ofNat 40 (s.STATUS.toNat % 8)))) ∧
    (s.DONE = false → step s =
      .next ((s.setScript (.yield :: .wait :: rest)).addReply (.rd 1) (BitVec.ofNat 40 (s.STATUS.toNat % 8))))

/-- R74, R170: `COPYBACK`, run to its end, copies the result to `IN` and its length to `IN_LEN`; of a result of 2^32 bytes
or more it is refused (R74: "requires m <= 2^32 - 1").
`COPYBACK` as an event is the model's choice (notes/assumptions/18.md), and so is where the refusal stands (13.md). -/
def Obligations.CopyBackCopiesTheResult : Prop :=
  (∀ (s : State) (d : List Byte), s.idle → s.OUT_LEN.toNat = d.length → s.OUT.holds d → d.length < 2 ^ 32 →
    d.length ≤ s.cfg.inCap → d.length ≤ s.cfg.outCap → s.script = [.copyBack] →
    ∃ t, Host.Core.run Sys2Proof.core (d.length + 2) s = .next t ∧ t.IN.holds d ∧ t.IN_LEN.toNat = d.length ∧
      t.OUT = s.OUT ∧ t.OUT_LEN = s.OUT_LEN ∧ t.idle ∧ t.script = [] ∧
      ∀ a, d.length ≤ a → t.IN.read a = s.IN.read a) ∧
  ∀ (s : State) (rest : List HostEvent), s.BUSY = false → 2 ^ 32 ≤ s.OUT_LEN.toNat → s.script = .copyBack :: rest →
    step s = .refused .copyBackTooLong
end

