-- ==== Sys2Proof/Laws/Bits.lean ====
section
/-! SUPPORT. Bit sequences against numbers, bytes and codes. -/

namespace Sys2Proof.Machine

theorem foldl_natOfBits (l : List Bool) (a : Nat) :
    l.foldl (fun acc b => 2 * acc + b.toNat) a = a * 2 ^ l.length + natOfBits l := by
  induction l generalizing a with
  | nil => simp [natOfBits]
  | cons b l ih =>
    have h0 : natOfBits (b :: l) = b.toNat * 2 ^ l.length + natOfBits l := by
      rw [natOfBits, List.foldl_cons, ih]; simp
    rw [List.foldl_cons, ih, h0, List.length_cons, pow_succ]
    ring

theorem natOfBits_append (l m : List Bool) : natOfBits (l ++ m) = natOfBits l * 2 ^ m.length + natOfBits m := by
  rw [natOfBits, List.foldl_append, foldl_natOfBits]; rfl

theorem natOfBits_cons (b : Bool) (l : List Bool) : natOfBits (b :: l) = b.toNat * 2 ^ l.length + natOfBits l := by
  have := natOfBits_append [b] l
  simpa [natOfBits] using this

theorem natOfBits_lt (l : List Bool) : natOfBits l < 2 ^ l.length := by
  induction l with
  | nil => simp [natOfBits]
  | cons b l ih =>
    rw [natOfBits_cons, List.length_cons, pow_succ]
    cases b <;> simp <;> omega

@[simp] theorem natOfBits_replicate (n : Nat) : natOfBits (List.replicate n false) = 0 := by
  induction n with
  | zero => rfl
  | succ n ih => rw [List.replicate_succ, natOfBits_cons, ih]; simp

/-- The first bits of a sequence are its high bits. -/
theorem natOfBits_take (l : List Bool) (n : Nat) (h : n ≤ l.length) : natOfBits (l.take n) = natOfBits l / 2 ^ (l.length - n) := by
  conv_rhs => rw [← List.take_append_drop n l, natOfBits_append, List.length_append, List.length_drop, List.length_take]
  rw [show min n l.length + (l.length - n) - n = l.length - n by omega]
  have := natOfBits_lt (l.drop n)
  rw [List.length_drop] at this
  rw [Nat.mul_comm, Nat.mul_add_div (by positivity), Nat.div_eq_of_lt this, Nat.add_zero]

/-- The last bits of a sequence are its low bits. -/
theorem natOfBits_drop (l : List Bool) (n : Nat) (h : n ≤ l.length) : natOfBits (l.drop n) = natOfBits l % 2 ^ (l.length - n) := by
  conv_rhs => rw [← List.take_append_drop n l, natOfBits_append, List.length_append, List.length_drop, List.length_take]
  rw [show min n l.length + (l.length - n) - n = l.length - n by omega]
  have := natOfBits_lt (l.drop n)
  rw [List.length_drop] at this
  rw [Nat.mul_comm, Nat.mul_add_mod, Nat.mod_eq_of_lt this]

/-- The bits of a number, most significant first. -/
theorem natOfBits_testBit (p n : Nat) : natOfBits ((List.range n).map fun i => p.testBit (n - 1 - i)) = p % 2 ^ n := by
  induction n with
  | zero => simp [natOfBits, Nat.mod_one]
  | succ n ih =>
    rw [List.range_succ_eq_map, List.map_cons, List.map_map, natOfBits_cons, List.length_map, List.length_range]
    have : ((fun i => p.testBit (n + 1 - 1 - i)) ∘ Nat.succ) = fun i => p.testBit (n - 1 - i) := by
      funext i
      simp only [Function.comp_apply]
      congr 1
      omega
    rw [this, ih, Nat.mod_pow_succ, Nat.toNat_testBit]
    simp only [Nat.add_sub_cancel, Nat.sub_zero]
    ring

@[simp] theorem Code.bits_length (c : Code) : c.bits.length = c.LEN.toNat := by simp [Code.bits]

/-- A code's bits are its pattern (R22). -/
theorem natOfBits_code {c : Code} (h : c.PAT.toNat < 2 ^ c.LEN.toNat) : natOfBits c.bits = c.PAT.toNat := by
  have := natOfBits_testBit c.PAT.toNat c.LEN.toNat
  rw [Nat.mod_eq_of_lt h] at this
  exact this

theorem map_getD_range (l : List Bool) (n : Nat) :
    ((List.range n).map fun i => l.getD i false) = l.take n ++ List.replicate (n - l.length) false := by
  apply List.ext_getElem?
  intro i
  rw [List.getElem?_map]
  by_cases h : i < n
  · rw [List.getElem?_range h, Option.map_some, List.getElem?_append, List.length_take]
    by_cases hl : i < l.length
    · rw [if_pos (by omega), List.getElem?_take, if_pos h, List.getD_eq_getElem?_getD, List.getElem?_eq_getElem hl]; rfl
    · rw [if_neg (by omega), List.getElem?_replicate, if_pos (by omega), List.getD_eq_getElem?_getD,
        List.getElem?_eq_none (by omega)]; rfl
  · rw [List.getElem?_eq_none (by simpa using h), List.getElem?_eq_none (by simp; omega)]; rfl

/-- A byte of the packed sequence: the next eight bits, filled with zeros. -/
theorem byteOfBits_eq (l : List Bool) :
    byteOfBits l = BitVec.ofNat 8 (natOfBits (l.take 8 ++ List.replicate (8 - l.length) false)) := by
  rw [byteOfBits, ← map_getD_range, natOfBits, List.foldl_map]

theorem byteOfBits_take (l : List Bool) (h : 8 ≤ l.length) : byteOfBits l = BitVec.ofNat 8 (natOfBits (l.take 8)) := by
  rw [byteOfBits_eq, show 8 - l.length = 0 by omega]; simp

/-- Bits beyond the eighth do not matter. -/
theorem byteOfBits_append (l m : List Bool) (h : 8 ≤ l.length) : byteOfBits (l ++ m) = byteOfBits l := by
  rw [byteOfBits_take _ h, byteOfBits_take _ (by simp; omega), List.take_append_of_le_length h]

theorem packBits_getElem? (s : List Bool) (k : Nat) :
    (packBits s)[k]? = if k < ceil8 s.length then some (byteOfBits (s.drop (8 * k))) else none := by
  rw [packBits, List.getElem?_map]
  split
  · next h => rw [List.getElem?_range h]; rfl
  · next h => rw [List.getElem?_eq_none (by simpa using h)]; rfl

@[simp] theorem packBits_length (s : List Bool) : (packBits s).length = ceil8 s.length := by simp [packBits]

/-- The bits of a byte are the byte (R67). -/
theorem natOfBits_byteBits (b : Byte) : natOfBits (byteBits b) = b.toNat := by
  have := natOfBits_testBit b.toNat 8
  rw [Nat.mod_eq_of_lt b.isLt] at this
  exact this

@[simp] theorem byteBits_length (b : Byte) : (byteBits b).length = 8 := by simp [byteBits]

theorem byteBits_getElem? (b : Byte) (i : Nat) (h : i < 8) : (byteBits b)[i]? = some (b.getLsbD (7 - i)) := by
  rw [byteBits, List.getElem?_map, List.getElem?_range h]; rfl

/-- Sequences of one length that are one number are one sequence. -/
theorem natOfBits_inj : ∀ {l m : List Bool}, l.length = m.length → natOfBits l = natOfBits m → l = m := by
  intro l
  induction l with
  | nil => intro m h _; exact (List.length_eq_zero_iff.1 h.symm).symm
  | cons b l ih =>
    intro m h hn
    match m, h with
    | c :: m, h =>
      have h' : l.length = m.length := by simpa using h
      rw [natOfBits_cons, natOfBits_cons, h'] at hn
      have hl := natOfBits_lt l
      have hm := natOfBits_lt m
      rw [h'] at hl
      cases b <;> cases c <;> simp only [Bool.toNat_true, Bool.toNat_false] at hn
      · rw [ih h' (by omega)]
      · omega
      · omega
      · rw [ih h' (by omega)]

/-- Packing and taking apart again gives the bits, filled with zeros. -/
theorem byteBits_byteOfBits (l : List Bool) : byteBits (byteOfBits l) = l.take 8 ++ List.replicate (8 - l.length) false := by
  have hlen : (l.take 8 ++ List.replicate (8 - l.length) false).length = 8 := by simp; omega
  apply natOfBits_inj
  · simp only [byteBits_length]; omega
  · rw [natOfBits_byteBits, byteOfBits_eq, BitVec.toNat_ofNat, Nat.mod_eq_of_lt]
    have := natOfBits_lt (l.take 8 ++ List.replicate (8 - l.length) false)
    rwa [hlen] at this

/-- The bits of the packed bytes are the sequence, filled with zeros to whole bytes (R112). -/
theorem flatMap_byteBits_packBits (s : List Bool) :
    (packBits s).flatMap byteBits = s ++ List.replicate (padOf s.length) false := by
  have key : ∀ (n : Nat) (s : List Bool), ceil8 s.length = n →
      ((List.range n).map fun k => byteOfBits (s.drop (8 * k))).flatMap byteBits = s ++ List.replicate (padOf s.length) false := by
    intro n
    induction n with
    | zero =>
      intro s h
      have : s = [] := List.length_eq_zero_iff.1 (by unfold ceil8 at h; omega)
      subst this; rfl
    | succ n ih =>
      intro s h
      rw [List.range_succ_eq_map, List.map_cons, List.flatMap_cons, List.map_map]
      have e : ((fun k => byteOfBits (s.drop (8 * k))) ∘ Nat.succ) = fun k => byteOfBits ((s.drop 8).drop (8 * k)) := by
        funext k
        rw [Function.comp_apply, List.drop_drop, Nat.succ_eq_add_one, Nat.mul_add, Nat.add_comm]
      rw [e, Nat.mul_zero, List.drop_zero, byteBits_byteOfBits]
      by_cases h8 : 8 ≤ s.length
      · rw [ih (s.drop 8) (by rw [List.length_drop]; unfold ceil8 at *; omega), show 8 - s.length = 0 by omega,
          List.replicate_zero, List.append_nil, ← List.append_assoc, List.take_append_drop]
        congr 2
        unfold padOf
        rw [List.length_drop]
        omega
      · have hn : n = 0 := by unfold ceil8 at h; omega
        subst hn
        rw [List.take_of_length_le (by omega)]
        simp only [List.range_zero, List.map_nil, List.flatMap_nil, List.append_nil]
        congr 2
        unfold padOf
        unfold ceil8 at h
        omega
  exact key _ s rfl

end Sys2Proof.Machine
end

