-- ==== Sys2Proof/Laws/Memory.lean ====
section
/-! SUPPORT. The buffers: read after write, the canonical form kept by every operation, and the big-endian images. -/

namespace Sys2Proof.Machine

@[simp] theorem read_nil (a : Nat) : Memory.read [] a = none := rfl

theorem read_cons (b : Nat) (v : Byte) (m : Memory) (a : Nat) :
    Memory.read ((b, v) :: m) a = if a = b then some v else Memory.read m a := rfl

/-- The byte written is the byte read. -/
@[simp] theorem read_write_same (m : Memory) (a : Nat) (v : Byte) : (m.write a v).read a = some v := by
  induction m with
  | nil => simp [Memory.write, Memory.read]
  | cons c m ih =>
    obtain ⟨b, w⟩ := c
    simp only [Memory.write]
    split
    · simp [Memory.read]
    · split
      · simp [Memory.read]
      · simp_all [Memory.read]

/-- A write leaves every other byte alone. -/
theorem read_write_ne (m : Memory) {a x : Nat} (v : Byte) (h : x ≠ a) : (m.write a v).read x = m.read x := by
  induction m with
  | nil => simp [Memory.write, Memory.read, h]
  | cons c m ih =>
    obtain ⟨b, w⟩ := c
    simp only [Memory.write]
    split
    · simp [Memory.read, h]
    · split
      · next hab => subst hab; simp [Memory.read, h]
      · simp [Memory.read, ih]

theorem read_write (m : Memory) (a x : Nat) (v : Byte) :
    (m.write a v).read x = if x = a then some v else m.read x := by
  split
  · next h => subst h; simp
  · next h => exact read_write_ne m v h

/-- Bytes at or beyond `n` have no value after `keepBelow n`, the others keep theirs. -/
theorem read_keepBelow (n : Nat) (m : Memory) (a : Nat) :
    (m.keepBelow n).read a = if a < n then m.read a else none := by
  induction m with
  | nil => simp [Memory.keepBelow]
  | cons c m ih =>
    obtain ⟨b, w⟩ := c
    simp only [Memory.keepBelow, List.filter_cons] at ih ⊢
    by_cases hb : b < n
    · rw [if_pos (by simpa using hb), read_cons, read_cons, ih]
      by_cases ha : a = b
      · subst ha; simp [hb]
      · simp [ha]
    · rw [if_neg (by simpa using hb), ih, read_cons]
      by_cases ha : a = b
      · subst ha; simp [hb]
      · simp [ha]

/-- The addresses of a well-formed buffer's tail lie above its head. -/
theorem wf_cons_iff (a : Nat) (v : Byte) (m : Memory) :
    Memory.wf ((a, v) :: m) = true ↔ (∀ c ∈ m, a < c.1) ∧ Memory.wf m = true := by
  induction m generalizing a v with
  | nil => simp [Memory.wf]
  | cons c m ih =>
    obtain ⟨b, w⟩ := c
    simp only [Memory.wf, Bool.and_eq_true, decide_eq_true_eq, List.mem_cons, forall_eq_or_imp]
    constructor
    · intro ⟨hab, h⟩
      exact ⟨⟨hab, fun c hc => hab.trans ((ih b w).1 h |>.1 c hc)⟩, h⟩
    · intro ⟨⟨hab, _⟩, h⟩
      exact ⟨hab, h⟩

theorem mem_write {m : Memory} {a : Nat} {v : Byte} {c : Host.Cell} (h : c ∈ m.write a v) : c = (a, v) ∨ c ∈ m := by
  induction m with
  | nil => simpa [Memory.write] using h
  | cons d m ih =>
    obtain ⟨b, w⟩ := d
    simp only [Memory.write] at h
    split at h
    · simpa using h
    · split at h
      · rcases List.mem_cons.1 h with h | h
        · exact .inl h
        · exact .inr (List.mem_cons_of_mem _ h)
      · rcases List.mem_cons.1 h with h | h
        · exact .inr (by simp [h])
        · exact (ih h).imp id (List.mem_cons_of_mem _)

/-- A write keeps the canonical form. -/
theorem wf_write {m : Memory} (h : m.wf = true) (a : Nat) (v : Byte) : (m.write a v).wf = true := by
  induction m with
  | nil => simp [Memory.write, Memory.wf]
  | cons c m ih =>
    obtain ⟨b, w⟩ := c
    have hc := (wf_cons_iff b w m).1 h
    simp only [Memory.write]
    split
    · next hab =>
      refine (wf_cons_iff _ _ _).2 ⟨?_, h⟩
      intro c hc'
      rcases List.mem_cons.1 hc' with rfl | hc'
      · exact hab
      · exact hab.trans (hc.1 c hc')
    · split
      · next _ hab => subst hab; exact (wf_cons_iff _ _ _).2 hc
      · next h1 h2 =>
        refine (wf_cons_iff _ _ _).2 ⟨?_, ih hc.2⟩
        intro c hc'
        rcases mem_write hc' with rfl | hc'
        · simp only; omega
        · exact hc.1 c hc'

/-- Dropping the bytes from `n` on keeps the canonical form. -/
theorem wf_keepBelow {m : Memory} (h : m.wf = true) (n : Nat) : (m.keepBelow n).wf = true := by
  induction m with
  | nil => rfl
  | cons c m ih =>
    obtain ⟨b, w⟩ := c
    have hc := (wf_cons_iff b w m).1 h
    simp only [Memory.keepBelow, List.filter_cons]
    split
    · refine (wf_cons_iff _ _ _).2 ⟨fun c hc' => hc.1 c (List.mem_filter.1 hc').1, ih hc.2⟩
    · exact ih hc.2

theorem wf_writeBytes {m : Memory} (h : m.wf = true) (a : Nat) (bs : List Byte) : (m.writeBytes a bs).wf = true := by
  induction bs generalizing m a with
  | nil => exact h
  | cons b bs ih => exact ih (wf_write h a b) (a + 1)

theorem wf_memWrite {m : Memory} (h : m.wf = true) (a n v : Nat) : (memWrite m a n v).wf = true := wf_writeBytes h _ _

/-- What a run of bytes leaves at every address: the bytes written from `a` on, and the rest as before. -/
theorem read_writeBytes (m : Memory) (a : Nat) (bs : List Byte) (x : Nat) :
    (m.writeBytes a bs).read x = if a ≤ x ∧ x < a + bs.length then bs[x - a]? else m.read x := by
  induction bs generalizing m a with
  | nil =>
    rw [if_neg (by simp)]
    rfl
  | cons b bs ih =>
    rw [Memory.writeBytes, ih, read_write]
    by_cases h0 : x = a
    · subst h0; simp
    · by_cases h1 : a + 1 ≤ x ∧ x < a + 1 + bs.length
      · have h2 : a ≤ x ∧ x < a + (b :: bs).length := by simp; omega
        rw [if_pos h1, if_pos h2]
        have h3 : x - a = (x - (a + 1)) + 1 := by omega
        rw [h3, List.getElem?_cons_succ]
      · have h2 : ¬ (a ≤ x ∧ x < a + (b :: bs).length) := by simp; omega
        rw [if_neg h1, if_neg h2, if_neg h0]

@[simp] theorem beBytes_length (n v : Nat) : (beBytes n v).length = n := by
  induction n generalizing v with
  | zero => rfl
  | succ n ih => simp [beBytes, ih]

theorem beNat_append (bs : List Byte) (b : Byte) : beNat (bs ++ [b]) = beNat bs * 256 + b.toNat := by
  simp [beNat, List.foldl_append]

theorem beNat_cons (b : Byte) (bs : List Byte) : beNat (b :: bs) = b.toNat * 256 ^ bs.length + beNat bs := by
  induction bs using List.reverseRecOn with
  | nil => simp [beNat]
  | append_singleton bs c ih =>
    rw [← List.cons_append, beNat_append, ih, beNat_append, List.length_append]
    simp only [List.length_cons, List.length_nil, pow_succ]
    ring

/-- The image of a number read back is the number (R45). -/
theorem beNat_beBytes (n v : Nat) (h : v < 256 ^ n) : beNat (beBytes n v) = v := by
  induction n generalizing v with
  | zero => simp [beBytes, beNat] at *; omega
  | succ n ih =>
    have aux : ∀ k w, beBytes k (w % 256 ^ k) = beBytes k w := by
      intro k
      induction k with
      | zero => intro w; rfl
      | succ k ihk =>
        intro w
        simp only [beBytes]
        have e1 : w % 256 ^ (k + 1) / 256 ^ k = w / 256 ^ k % 256 := by
          rw [pow_succ, Nat.mod_mul_right_div_self]
        have e2 : w % 256 ^ (k + 1) % 256 ^ k = w % 256 ^ k :=
          Nat.mod_mod_of_dvd _ (Dvd.intro _ (pow_succ 256 k).symm)
        congr 1
        · rw [e1]; apply BitVec.eq_of_toNat_eq; simp
        · rw [← ihk (w % 256 ^ (k + 1)), e2, ihk]
    rw [beBytes, beNat_cons, beBytes_length, ← aux n v, ih _ (Nat.mod_lt _ (by positivity))]
    have : v / 256 ^ n < 256 := by
      apply Nat.div_lt_of_lt_mul; rw [← pow_succ]; exact h
    simp only [BitVec.toNat_ofNat, Nat.mod_eq_of_lt (show v / 256 ^ n < 2 ^ 8 from this)]
    exact Nat.div_add_mod' v (256 ^ n)

theorem beNat_lt (bs : List Byte) : beNat bs < 256 ^ bs.length := by
  induction bs with
  | nil => simp [beNat]
  | cons b bs ih =>
    rw [beNat_cons, List.length_cons, pow_succ]
    have := b.isLt
    calc b.toNat * 256 ^ bs.length + beNat bs < b.toNat * 256 ^ bs.length + 256 ^ bs.length := by omega
      _ = (b.toNat + 1) * 256 ^ bs.length := by ring
      _ ≤ 256 * 256 ^ bs.length := Nat.mul_le_mul_right _ (by omega)
      _ = 256 ^ bs.length * 256 := by ring

end Sys2Proof.Machine
end

