-- ==== Sys2Proof/Laws/State.lean ====
section
/-! SUPPORT. One lemma per field per update of State: what each named update does to each field. -/

namespace Sys2Proof.Machine

/-! ## setPHASE -/

@[simp] theorem setPHASE_cfg (s : State) (p : Phase) : (s.setPHASE p).cfg = s.cfg := rfl
@[simp] theorem setPHASE_STATUS (s : State) (p : Phase) : (s.setPHASE p).STATUS = s.STATUS := rfl
@[simp] theorem setPHASE_ERR (s : State) (p : Phase) : (s.setPHASE p).ERR = s.ERR := rfl
@[simp] theorem setPHASE_IN_LEN (s : State) (p : Phase) : (s.setPHASE p).IN_LEN = s.IN_LEN := rfl
@[simp] theorem setPHASE_OUT_LEN (s : State) (p : Phase) : (s.setPHASE p).OUT_LEN = s.OUT_LEN := rfl
@[simp] theorem setPHASE_PHASE (s : State) (p : Phase) : (s.setPHASE p).PHASE = p := rfl
@[simp] theorem setPHASE_MODE (s : State) (p : Phase) : (s.setPHASE p).MODE = s.MODE := rfl
@[simp] theorem setPHASE_work (s : State) (p : Phase) : (s.setPHASE p).work = s.work := rfl
@[simp] theorem setPHASE_IN (s : State) (p : Phase) : (s.setPHASE p).IN = s.IN := rfl
@[simp] theorem setPHASE_OUT (s : State) (p : Phase) : (s.setPHASE p).OUT = s.OUT := rfl
@[simp] theorem setPHASE_script (s : State) (p : Phase) : (s.setPHASE p).script = s.script := rfl
@[simp] theorem setPHASE_replies (s : State) (p : Phase) : (s.setPHASE p).replies = s.replies := rfl
@[simp] theorem setPHASE_draws (s : State) (p : Phase) : (s.setPHASE p).draws = s.draws := rfl
@[simp] theorem setPHASE_inDraw (s : State) (p : Phase) : (s.setPHASE p).inDraw = s.inDraw := rfl
@[simp] theorem setPHASE_outDraw (s : State) (p : Phase) : (s.setPHASE p).outDraw = s.outDraw := rfl

/-! ## setWork -/

@[simp] theorem setWork_cfg (s : State) (w : Work) : (s.setWork w).cfg = s.cfg := rfl
@[simp] theorem setWork_STATUS (s : State) (w : Work) : (s.setWork w).STATUS = s.STATUS := rfl
@[simp] theorem setWork_ERR (s : State) (w : Work) : (s.setWork w).ERR = s.ERR := rfl
@[simp] theorem setWork_IN_LEN (s : State) (w : Work) : (s.setWork w).IN_LEN = s.IN_LEN := rfl
@[simp] theorem setWork_OUT_LEN (s : State) (w : Work) : (s.setWork w).OUT_LEN = s.OUT_LEN := rfl
@[simp] theorem setWork_PHASE (s : State) (w : Work) : (s.setWork w).PHASE = s.PHASE := rfl
@[simp] theorem setWork_MODE (s : State) (w : Work) : (s.setWork w).MODE = s.MODE := rfl
@[simp] theorem setWork_work (s : State) (w : Work) : (s.setWork w).work = w := rfl
@[simp] theorem setWork_IN (s : State) (w : Work) : (s.setWork w).IN = s.IN := rfl
@[simp] theorem setWork_OUT (s : State) (w : Work) : (s.setWork w).OUT = s.OUT := rfl
@[simp] theorem setWork_script (s : State) (w : Work) : (s.setWork w).script = s.script := rfl
@[simp] theorem setWork_replies (s : State) (w : Work) : (s.setWork w).replies = s.replies := rfl
@[simp] theorem setWork_draws (s : State) (w : Work) : (s.setWork w).draws = s.draws := rfl
@[simp] theorem setWork_inDraw (s : State) (w : Work) : (s.setWork w).inDraw = s.inDraw := rfl
@[simp] theorem setWork_outDraw (s : State) (w : Work) : (s.setWork w).outDraw = s.outDraw := rfl

/-! ## setOUT -/

@[simp] theorem setOUT_cfg (s : State) (m : Memory) : (s.setOUT m).cfg = s.cfg := rfl
@[simp] theorem setOUT_STATUS (s : State) (m : Memory) : (s.setOUT m).STATUS = s.STATUS := rfl
@[simp] theorem setOUT_ERR (s : State) (m : Memory) : (s.setOUT m).ERR = s.ERR := rfl
@[simp] theorem setOUT_IN_LEN (s : State) (m : Memory) : (s.setOUT m).IN_LEN = s.IN_LEN := rfl
@[simp] theorem setOUT_OUT_LEN (s : State) (m : Memory) : (s.setOUT m).OUT_LEN = s.OUT_LEN := rfl
@[simp] theorem setOUT_PHASE (s : State) (m : Memory) : (s.setOUT m).PHASE = s.PHASE := rfl
@[simp] theorem setOUT_MODE (s : State) (m : Memory) : (s.setOUT m).MODE = s.MODE := rfl
@[simp] theorem setOUT_work (s : State) (m : Memory) : (s.setOUT m).work = s.work := rfl
@[simp] theorem setOUT_IN (s : State) (m : Memory) : (s.setOUT m).IN = s.IN := rfl
@[simp] theorem setOUT_OUT (s : State) (m : Memory) : (s.setOUT m).OUT = m := rfl
@[simp] theorem setOUT_script (s : State) (m : Memory) : (s.setOUT m).script = s.script := rfl
@[simp] theorem setOUT_replies (s : State) (m : Memory) : (s.setOUT m).replies = s.replies := rfl
@[simp] theorem setOUT_draws (s : State) (m : Memory) : (s.setOUT m).draws = s.draws := rfl
@[simp] theorem setOUT_inDraw (s : State) (m : Memory) : (s.setOUT m).inDraw = s.inDraw := rfl
@[simp] theorem setOUT_outDraw (s : State) (m : Memory) : (s.setOUT m).outDraw = s.outDraw := rfl

/-! ## setScript -/

@[simp] theorem setScript_cfg (s : State) (l : List HostEvent) : (s.setScript l).cfg = s.cfg := rfl
@[simp] theorem setScript_STATUS (s : State) (l : List HostEvent) : (s.setScript l).STATUS = s.STATUS := rfl
@[simp] theorem setScript_ERR (s : State) (l : List HostEvent) : (s.setScript l).ERR = s.ERR := rfl
@[simp] theorem setScript_IN_LEN (s : State) (l : List HostEvent) : (s.setScript l).IN_LEN = s.IN_LEN := rfl
@[simp] theorem setScript_OUT_LEN (s : State) (l : List HostEvent) : (s.setScript l).OUT_LEN = s.OUT_LEN := rfl
@[simp] theorem setScript_PHASE (s : State) (l : List HostEvent) : (s.setScript l).PHASE = s.PHASE := rfl
@[simp] theorem setScript_MODE (s : State) (l : List HostEvent) : (s.setScript l).MODE = s.MODE := rfl
@[simp] theorem setScript_work (s : State) (l : List HostEvent) : (s.setScript l).work = s.work := rfl
@[simp] theorem setScript_IN (s : State) (l : List HostEvent) : (s.setScript l).IN = s.IN := rfl
@[simp] theorem setScript_OUT (s : State) (l : List HostEvent) : (s.setScript l).OUT = s.OUT := rfl
@[simp] theorem setScript_script (s : State) (l : List HostEvent) : (s.setScript l).script = l := rfl
@[simp] theorem setScript_replies (s : State) (l : List HostEvent) : (s.setScript l).replies = s.replies := rfl
@[simp] theorem setScript_draws (s : State) (l : List HostEvent) : (s.setScript l).draws = s.draws := rfl
@[simp] theorem setScript_inDraw (s : State) (l : List HostEvent) : (s.setScript l).inDraw = s.inDraw := rfl
@[simp] theorem setScript_outDraw (s : State) (l : List HostEvent) : (s.setScript l).outDraw = s.outDraw := rfl

/-! ## addReply -/

@[simp] theorem addReply_cfg (s : State) (t : HostTxn) (v : BitVec 40) : (s.addReply t v).cfg = s.cfg := rfl
@[simp] theorem addReply_STATUS (s : State) (t : HostTxn) (v : BitVec 40) : (s.addReply t v).STATUS = s.STATUS := rfl
@[simp] theorem addReply_ERR (s : State) (t : HostTxn) (v : BitVec 40) : (s.addReply t v).ERR = s.ERR := rfl
@[simp] theorem addReply_IN_LEN (s : State) (t : HostTxn) (v : BitVec 40) : (s.addReply t v).IN_LEN = s.IN_LEN := rfl
@[simp] theorem addReply_OUT_LEN (s : State) (t : HostTxn) (v : BitVec 40) : (s.addReply t v).OUT_LEN = s.OUT_LEN := rfl
@[simp] theorem addReply_PHASE (s : State) (t : HostTxn) (v : BitVec 40) : (s.addReply t v).PHASE = s.PHASE := rfl
@[simp] theorem addReply_MODE (s : State) (t : HostTxn) (v : BitVec 40) : (s.addReply t v).MODE = s.MODE := rfl
@[simp] theorem addReply_work (s : State) (t : HostTxn) (v : BitVec 40) : (s.addReply t v).work = s.work := rfl
@[simp] theorem addReply_IN (s : State) (t : HostTxn) (v : BitVec 40) : (s.addReply t v).IN = s.IN := rfl
@[simp] theorem addReply_OUT (s : State) (t : HostTxn) (v : BitVec 40) : (s.addReply t v).OUT = s.OUT := rfl
@[simp] theorem addReply_script (s : State) (t : HostTxn) (v : BitVec 40) : (s.addReply t v).script = s.script := rfl
@[simp] theorem addReply_replies (s : State) (t : HostTxn) (v : BitVec 40) : (s.addReply t v).replies = ⟨t, v⟩ :: s.replies := rfl
@[simp] theorem addReply_draws (s : State) (t : HostTxn) (v : BitVec 40) : (s.addReply t v).draws = s.draws := rfl
@[simp] theorem addReply_inDraw (s : State) (t : HostTxn) (v : BitVec 40) : (s.addReply t v).inDraw = s.inDraw := rfl
@[simp] theorem addReply_outDraw (s : State) (t : HostTxn) (v : BitVec 40) : (s.addReply t v).outDraw = s.outDraw := rfl

/-! ## raiseError -/

@[simp] theorem raiseError_cfg (e : ErrKind) (s : State) : (raiseError e s).cfg = s.cfg := rfl
@[simp] theorem raiseError_STATUS (e : ErrKind) (s : State) : (raiseError e s).STATUS = statusFailed := rfl
@[simp] theorem raiseError_ERR (e : ErrKind) (s : State) : (raiseError e s).ERR = errorCode e := rfl
@[simp] theorem raiseError_IN_LEN (e : ErrKind) (s : State) : (raiseError e s).IN_LEN = s.IN_LEN := rfl
@[simp] theorem raiseError_OUT_LEN (e : ErrKind) (s : State) : (raiseError e s).OUT_LEN = 0 := rfl
@[simp] theorem raiseError_PHASE (e : ErrKind) (s : State) : (raiseError e s).PHASE = .idle := rfl
@[simp] theorem raiseError_MODE (e : ErrKind) (s : State) : (raiseError e s).MODE = s.MODE := rfl
@[simp] theorem raiseError_work (e : ErrKind) (s : State) : (raiseError e s).work = Config.freeWork s.draws := rfl
@[simp] theorem raiseError_IN (e : ErrKind) (s : State) : (raiseError e s).IN = s.IN := rfl
@[simp] theorem raiseError_OUT (e : ErrKind) (s : State) : (raiseError e s).OUT = [] := rfl
@[simp] theorem raiseError_script (e : ErrKind) (s : State) : (raiseError e s).script = s.script := rfl
@[simp] theorem raiseError_replies (e : ErrKind) (s : State) : (raiseError e s).replies = s.replies := rfl
@[simp] theorem raiseError_draws (e : ErrKind) (s : State) : (raiseError e s).draws = s.draws + 1 := rfl
@[simp] theorem raiseError_inDraw (e : ErrKind) (s : State) : (raiseError e s).inDraw = s.inDraw := rfl
@[simp] theorem raiseError_outDraw (e : ErrKind) (s : State) : (raiseError e s).outDraw = s.draws := rfl

/-! ## accept -/

@[simp] theorem accept_cfg (m : Mode) (s : State) : (accept m s).cfg = s.cfg := rfl
@[simp] theorem accept_STATUS (m : Mode) (s : State) : (accept m s).STATUS = statusBusy := rfl
@[simp] theorem accept_ERR (m : Mode) (s : State) : (accept m s).ERR = 0 := rfl
@[simp] theorem accept_IN_LEN (m : Mode) (s : State) : (accept m s).IN_LEN = s.IN_LEN := rfl
@[simp] theorem accept_OUT_LEN (m : Mode) (s : State) : (accept m s).OUT_LEN = 0 := rfl
@[simp] theorem accept_PHASE (m : Mode) (s : State) : (accept m s).PHASE = s.PHASE := rfl
@[simp] theorem accept_MODE (m : Mode) (s : State) : (accept m s).MODE = m := rfl
@[simp] theorem accept_work (m : Mode) (s : State) : (accept m s).work = { s.work with LEN := s.IN_LEN } := rfl
@[simp] theorem accept_IN (m : Mode) (s : State) : (accept m s).IN = s.IN := rfl
@[simp] theorem accept_OUT (m : Mode) (s : State) : (accept m s).OUT = [] := rfl
@[simp] theorem accept_script (m : Mode) (s : State) : (accept m s).script = s.script := rfl
@[simp] theorem accept_replies (m : Mode) (s : State) : (accept m s).replies = s.replies := rfl
@[simp] theorem accept_draws (m : Mode) (s : State) : (accept m s).draws = s.draws + 1 := rfl
@[simp] theorem accept_inDraw (m : Mode) (s : State) : (accept m s).inDraw = s.inDraw := rfl
@[simp] theorem accept_outDraw (m : Mode) (s : State) : (accept m s).outDraw = s.draws := rfl

/-! ## platformReset -/

@[simp] theorem platformReset_cfg (s : State) : (platformReset s).cfg = s.cfg := rfl
@[simp] theorem platformReset_STATUS (s : State) : (platformReset s).STATUS = 0 := rfl
@[simp] theorem platformReset_ERR (s : State) : (platformReset s).ERR = 0 := rfl
@[simp] theorem platformReset_IN_LEN (s : State) : (platformReset s).IN_LEN = 0 := rfl
@[simp] theorem platformReset_OUT_LEN (s : State) : (platformReset s).OUT_LEN = 0 := rfl
@[simp] theorem platformReset_PHASE (s : State) : (platformReset s).PHASE = .idle := rfl
@[simp] theorem platformReset_MODE (s : State) : (platformReset s).MODE = if Config.freeMode s.draws then .decode else .encode := rfl
@[simp] theorem platformReset_work (s : State) : (platformReset s).work = Config.freeWork s.draws := rfl
@[simp] theorem platformReset_IN (s : State) : (platformReset s).IN = [] := rfl
@[simp] theorem platformReset_OUT (s : State) : (platformReset s).OUT = [] := rfl
@[simp] theorem platformReset_script (s : State) : (platformReset s).script = s.script := rfl
@[simp] theorem platformReset_replies (s : State) : (platformReset s).replies = s.replies := rfl
@[simp] theorem platformReset_draws (s : State) : (platformReset s).draws = s.draws + 1 := rfl
@[simp] theorem platformReset_inDraw (s : State) : (platformReset s).inDraw = s.draws := rfl
@[simp] theorem platformReset_outDraw (s : State) : (platformReset s).outDraw = s.draws := rfl

/-! ## The fields of STATUS -/

@[simp] theorem statusBusy_eq : statusBusy = 1#32 := by decide

@[simp] theorem statusDone_eq : statusDone = 2#32 := by decide

@[simp] theorem statusFailed_eq : statusFailed = 6#32 := by decide

theorem BUSY_def (s : State) : s.BUSY = s.STATUS.getLsbD 0 := rfl

theorem DONE_def (s : State) : s.DONE = s.STATUS.getLsbD 1 := rfl

@[simp] theorem BUSY_setPHASE (s : State) (p : Phase) : (s.setPHASE p).BUSY = s.BUSY := rfl

@[simp] theorem BUSY_setWork (s : State) (w : Work) : (s.setWork w).BUSY = s.BUSY := rfl

@[simp] theorem BUSY_setOUT (s : State) (m : Memory) : (s.setOUT m).BUSY = s.BUSY := rfl

@[simp] theorem BUSY_setScript (s : State) (l : List HostEvent) : (s.setScript l).BUSY = s.BUSY := rfl

@[simp] theorem BUSY_addReply (s : State) (t : HostTxn) (v : BitVec 40) : (s.addReply t v).BUSY = s.BUSY := rfl

@[simp] theorem BUSY_raiseError (e : ErrKind) (s : State) : (raiseError e s).BUSY = false := by
  simp only [BUSY_def, raiseError_STATUS]; decide

@[simp] theorem BUSY_accept (m : Mode) (s : State) : (accept m s).BUSY = true := by
  simp only [BUSY_def, accept_STATUS]; decide

@[simp] theorem BUSY_platformReset (s : State) : (platformReset s).BUSY = false := by
  simp only [BUSY_def, platformReset_STATUS]; decide

/-- `PHASE` decodes to an operation exactly when it is not IDLE. -/
theorem decodePhase_code (p : Phase) : decodePhase p.code = .error .idlePhase ↔ p = .idle := by
  cases p <;> decide

end Sys2Proof.Machine
end

