-- ==== Sys2Proof/Laws/Outcome.lean ====
section
/-! SUPPORT. What the shared operations can answer, said once: settling, completion, the start of a command, and the
core's reads. -/

namespace Sys2Proof.Machine

/-- A phase answers a next state in two ways only: its own, or the error entry of the state it began in. -/
theorem settle_eq_next {s t : State} {r : Except Halt State} :
    settle s r = .next t ↔ r = .ok t ∨ ∃ e, r = .error (.raise e) ∧ t = raiseError e s := by
  rcases r with (e | f | f) | u
  · simp [settle, eq_comm]
  · simp [settle]
  · simp [settle]
  · simp [settle]

@[simp] theorem settle_ok (s t : State) : settle s (.ok t) = .next t := rfl

@[simp] theorem settle_raise (s : State) (e : ErrKind) : settle s (.error (.raise e)) = .next (raiseError e s) := rfl

@[simp] theorem settle_fault (s : State) (f : Fault) : settle s (.error (.fault f)) = .fault f := rfl

@[simp] theorem settle_refuse (s : State) (r : Refusal) : settle s (.error (.refuse r)) = .refused r := rfl

/-- The state a successful completion leaves. -/
def completed (n : BitVec 40) (s : State) : State :=
  { s with
    OUT_LEN := n
    ERR     := 0
    PHASE   := .idle
    STATUS  := statusDone
    work    := Config.freeWork s.draws
    OUT     := s.OUT.keepBelow n.toNat
    outDraw := s.draws
    draws   := s.draws + 1 }

@[simp] theorem completed_cfg (n : BitVec 40) (s : State) : (completed n s).cfg = s.cfg := rfl
@[simp] theorem completed_STATUS (n : BitVec 40) (s : State) : (completed n s).STATUS = statusDone := rfl
@[simp] theorem completed_ERR (n : BitVec 40) (s : State) : (completed n s).ERR = 0 := rfl
@[simp] theorem completed_IN_LEN (n : BitVec 40) (s : State) : (completed n s).IN_LEN = s.IN_LEN := rfl
@[simp] theorem completed_OUT_LEN (n : BitVec 40) (s : State) : (completed n s).OUT_LEN = n := rfl
@[simp] theorem completed_PHASE (n : BitVec 40) (s : State) : (completed n s).PHASE = .idle := rfl
@[simp] theorem completed_MODE (n : BitVec 40) (s : State) : (completed n s).MODE = s.MODE := rfl
@[simp] theorem completed_work (n : BitVec 40) (s : State) : (completed n s).work = Config.freeWork s.draws := rfl
@[simp] theorem completed_IN (n : BitVec 40) (s : State) : (completed n s).IN = s.IN := rfl
@[simp] theorem completed_OUT (n : BitVec 40) (s : State) : (completed n s).OUT = s.OUT.keepBelow n.toNat := rfl
@[simp] theorem completed_script (n : BitVec 40) (s : State) : (completed n s).script = s.script := rfl
@[simp] theorem completed_replies (n : BitVec 40) (s : State) : (completed n s).replies = s.replies := rfl
@[simp] theorem completed_draws (n : BitVec 40) (s : State) : (completed n s).draws = s.draws + 1 := rfl
@[simp] theorem completed_inDraw (n : BitVec 40) (s : State) : (completed n s).inDraw = s.inDraw := rfl
@[simp] theorem completed_outDraw (n : BitVec 40) (s : State) : (completed n s).outDraw = s.draws := rfl

@[simp] theorem BUSY_completed (n : BitVec 40) (s : State) : (completed n s).BUSY = false := by
  simp only [BUSY_def, completed_STATUS]; decide

theorem complete_eq (n : BitVec 40) (s : State) :
    complete n s = if s.cfg.outCap < n.toNat then .error (.refuse .resultExceedsCapacity) else .ok (completed n s) := rfl

/-- A completion answers a state only within `OUT_CAP`. -/
theorem complete_eq_ok {n : BitVec 40} {s t : State} :
    complete n s = .ok t ↔ n.toNat ≤ s.cfg.outCap ∧ t = completed n s := by
  rw [complete_eq]
  split
  · simp; omega
  · simp [eq_comm]; omega

/-- A completion raises nothing. -/
theorem complete_ne_raise (n : BitVec 40) (s : State) (e : ErrKind) : complete n s ≠ .error (.raise e) := by
  rw [complete_eq]; split <;> simp

/-- A command answers a next state in three ways: dropped, its own beginning, or the error entry. -/
theorem startCommand_eq_next {m : Mode} {f : State → Except Halt State} {s t : State} :
    startCommand m f s = .next t ↔
      (s.BUSY = true ∧ t = s) ∨
      (s.BUSY = false ∧ s.IN_LEN.toNat ≤ s.cfg.inCap ∧
        (f (accept m s) = .ok t ∨ ∃ e, f (accept m s) = .error (.raise e) ∧ t = raiseError e (accept m s))) := by
  unfold startCommand
  cases h : s.BUSY
  · by_cases hc : s.cfg.inCap < s.IN_LEN.toNat
    · simp [hc]
    · simp only [Bool.false_eq_true, if_false, if_neg hc, settle_eq_next]
      simp; intro _; omega
  · simp [eq_comm]

/-- The core reads a byte exactly when the host has written it. -/
theorem memRead1_eq_ok {s : State} {a : Nat} {b : Byte} : memRead1 s a = .ok b ↔ s.IN.read a = some b := by
  unfold memRead1
  cases s.IN.read a <;> simp

theorem memRead1_ne_raise (s : State) (a : Nat) (e : ErrKind) : memRead1 s a ≠ .error (.raise e) := by
  unfold memRead1; cases s.IN.read a <;> simp

/-- A run of bytes is read exactly when every byte of it has a value, and then as those values. -/
theorem memReadBytes_eq_ok {s : State} {a n : Nat} {bs : List Byte} :
    memReadBytes s a n = .ok bs ↔ bs.length = n ∧ ∀ i, i < n → s.IN.read (a + i) = bs[i]? := by
  induction n generalizing a bs with
  | zero =>
    simp only [memReadBytes, Except.ok.injEq]
    constructor
    · rintro rfl; simp
    · rintro ⟨h, -⟩; exact (List.length_eq_zero_iff.1 h).symm
  | succ n ih =>
    simp only [memReadBytes, bind, Except.bind, pure, Except.pure]
    cases hr : memRead1 s a with
    | error h =>
      simp only [reduceCtorEq, false_iff, not_and]
      intro hl hb
      have h0 := hb 0 (by omega)
      cases bs with
      | nil => simp at hl
      | cons b bs =>
        have := memRead1_eq_ok.2 (show s.IN.read a = some b by simpa using h0)
        simp [hr] at this
    | ok b =>
      have hb := memRead1_eq_ok.1 hr
      cases hm : memReadBytes s (a + 1) n with
      | error h =>
        simp only [reduceCtorEq, false_iff, not_and]
        intro hl hbs
        cases bs with
        | nil => simp at hl
        | cons c cs =>
          have := ih.2 (show cs.length = n ∧ ∀ i, i < n → s.IN.read (a + 1 + i) = cs[i]? from
            ⟨by simpa using hl, fun i hi => by
              have := hbs (i + 1) (by omega)
              rw [show a + (i + 1) = a + 1 + i by omega] at this
              simpa using this⟩)
          simp [hm] at this
      | ok cs =>
        have hcs := ih.1 hm
        simp only [Except.ok.injEq]
        constructor
        · rintro rfl
          refine ⟨by simp [hcs.1], ?_⟩
          intro i hi
          cases i with
          | zero => simpa using hb
          | succ i =>
            have := hcs.2 i (by omega)
            rw [show a + (i + 1) = a + 1 + i by omega]
            simpa using this
        · rintro ⟨hl, h⟩
          cases bs with
          | nil => simp at hl
          | cons d ds =>
            have h0 := h 0 (by omega)
            have hd : d = b := by
              have := hb; simp only [Nat.add_zero] at h0; rw [this] at h0; simpa using h0.symm
            have hds : ds = cs := by
              have := ih.2 (show ds.length = n ∧ ∀ i, i < n → s.IN.read (a + 1 + i) = ds[i]? from
                ⟨by simpa using hl, fun i hi => by
                  have := h (i + 1) (by omega)
                  rw [show a + (i + 1) = a + 1 + i by omega] at this
                  simpa using this⟩)
              rw [hm] at this; simpa using this.symm
            rw [hd, hds]

theorem memReadBytes_ne_raise (s : State) (a n : Nat) (e : ErrKind) : memReadBytes s a n ≠ .error (.raise e) := by
  induction n generalizing a with
  | zero => simp [memReadBytes]
  | succ n ih =>
    simp only [memReadBytes, bind, Except.bind, pure, Except.pure]
    cases hr : memRead1 s a with
    | error h => intro h'; exact memRead1_ne_raise s a e (hr.trans (by simpa using h'))
    | ok b =>
      cases hm : memReadBytes s (a + 1) n with
      | error h => intro h'; exact ih (a + 1) (hm.trans (by simpa using h'))
      | ok cs => simp

theorem memRead_ne_raise (s : State) (a n : Nat) (e : ErrKind) : memRead s a n ≠ .error (.raise e) := by
  unfold memRead
  cases h : memReadBytes s a n with
  | error x => intro h'; exact memReadBytes_ne_raise s a n e (h.trans (by simpa [bind, Except.bind] using h'))
  | ok bs => simp [bind, Except.bind, pure, Except.pure]

theorem memRead_eq_ok {s : State} {a n v : Nat} :
    memRead s a n = .ok v ↔ ∃ bs : List Byte, memReadBytes s a n = .ok bs ∧ beNat bs = v := by
  unfold memRead
  cases memReadBytes s a n <;> simp [bind, Except.bind, pure, Except.pure]

/-- The core's read of a run of bytes faults at the first byte without a value (U15). -/
theorem memReadBytes_fault {s : State} {x : Nat} (hx : s.IN.read x = none) :
    ∀ (n a : Nat), a ≤ x → x < a + n → (∀ y, a ≤ y → y < x → s.IN.read y ≠ none) →
      memReadBytes s a n = .error (.fault (.unwrittenInput x)) := by
  intro n
  induction n with
  | zero => intro a h1 h2; omega
  | succ n ih =>
    intro a h1 h2 h3
    by_cases hax : a = x
    · subst hax; simp [memReadBytes, memRead1, hx, bind, Except.bind]
    · obtain ⟨b, hb⟩ := Option.ne_none_iff_exists'.1 (h3 a (le_refl _) (by omega))
      simp [memReadBytes, memRead1, hb, bind, Except.bind, ih (a + 1) (by omega) (by omega) (fun y hy => h3 y (by omega))]

end Sys2Proof.Machine
end

