-- ==== Sys2Proof/Laws/Tables.lean ====
section
/-! SUPPORT. The tables indexed by symbol: read after write, the ascending list of present symbols, and what FCOUNT
counts. -/

namespace Sys2Proof.Machine

theorem FreqTable.get_put (f : FreqTable) (a b : Byte) (c : Count) :
    (f.put a c).get b = if a = b then some c else f.get b := by
  unfold FreqTable.get FreqTable.put
  rw [Vector.getElem_set]
  simp only [BitVec.toNat_inj]

@[simp] theorem FreqTable.get_clear (b : Byte) : FreqTable.clear.get b = none := by
  simp [FreqTable.get, FreqTable.clear]

theorem CodeTable.get_put (f : CodeTable) (a b : Byte) (c : Code) :
    (f.put a c).get b = if a = b then some c else f.get b := by
  unfold CodeTable.get CodeTable.put
  rw [Vector.getElem_set]
  simp only [BitVec.toNat_inj]

@[simp] theorem CodeTable.get_clear (b : Byte) : CodeTable.clear.get b = none := by
  simp [CodeTable.get, CodeTable.clear]

/-- Two frequency tables with the same entries are the same. -/
theorem FreqTable.ext_get {f g : FreqTable} (h : ∀ b, f.get b = g.get b) : f = g := by
  apply Vector.ext
  intro i hi
  have := h (BitVec.ofNat 8 i)
  simpa [FreqTable.get, Nat.mod_eq_of_lt hi] using this

theorem mem_allSymbols (b : Byte) : b ∈ allSymbols := by
  unfold allSymbols
  exact List.mem_map.2 ⟨b.toNat, by simpa using b.isLt, by simp⟩

theorem allSymbols_pairwise : allSymbols.Pairwise (fun a b => a.toNat < b.toNat) := by
  unfold allSymbols
  rw [List.pairwise_map]
  refine List.Pairwise.imp_of_mem ?_ (List.pairwise_lt_range (n := 256))
  intro a b ha hb hab
  simp only [List.mem_range] at ha hb
  simpa [Nat.mod_eq_of_lt ha, Nat.mod_eq_of_lt hb] using hab

theorem allSymbols_nodup : allSymbols.Nodup :=
  allSymbols_pairwise.imp fun h e => by simp [e] at h

theorem allSymbols_length : allSymbols.length = 256 := by simp [allSymbols]

/-- A partial function on symbols, listed in ascending symbol order. -/
theorem mem_filterMap_allSymbols {α : Type} (g : Byte → Option α) (b : Byte) (x : α) :
    (b, x) ∈ allSymbols.filterMap (fun s => (g s).map fun y => (s, y)) ↔ g b = some x := by
  rw [List.mem_filterMap]
  constructor
  · rintro ⟨s, _, hs⟩
    rw [Option.map_eq_some_iff] at hs
    obtain ⟨y, hy, he⟩ := hs
    cases he; exact hy
  · intro h
    exact ⟨b, mem_allSymbols b, by simp [h]⟩

theorem filterMap_allSymbols_pairwise {α : Type} (g : Byte → Option α) :
    (allSymbols.filterMap (fun s => (g s).map fun y => (s, y))).Pairwise (fun a b => a.1.toNat < b.1.toNat) := by
  rw [List.pairwise_filterMap]
  refine allSymbols_pairwise.imp ?_
  intro a b hab x hx y hy
  rw [Option.map_eq_some_iff] at hx hy
  obtain ⟨_, _, rfl⟩ := hx
  obtain ⟨_, _, rfl⟩ := hy
  exact hab

theorem filterMap_allSymbols_length {α : Type} (g : Byte → Option α) :
    (allSymbols.filterMap (fun s => (g s).map fun y => (s, y))).length ≤ 256 := by
  rw [← allSymbols_length]; exact List.length_filterMap_le _ _

/-- A list in ascending symbol order is determined by its entries. -/
theorem eq_of_pairwise_of_mem {α : Type} {l m : List (Byte × α)}
    (hl : l.Pairwise fun a b => a.1.toNat < b.1.toNat) (hm : m.Pairwise fun a b => a.1.toNat < b.1.toNat)
    (h : ∀ e, e ∈ l ↔ e ∈ m) : l = m := by
  have nodup : ∀ {k : List (Byte × α)}, (k.Pairwise fun a b => a.1.toNat < b.1.toNat) → k.Nodup :=
    fun hk => hk.imp fun hab e => by simp [e] at hab
  refine List.Perm.eq_of_pairwise ?_ hl hm ((List.perm_ext_iff_of_nodup (nodup hl) (nodup hm)).2 h)
  intro a b _ _ hab hba
  omega

/-- The list MKLEAF and FTSER go through holds exactly the present symbols. -/
theorem mem_present (f : FreqTable) (b : Byte) (c : Count) : (b, c) ∈ f.present ↔ f.get b = some c :=
  mem_filterMap_allSymbols f.get b c

/-- ... in ascending symbol order. -/
theorem present_pairwise (f : FreqTable) : f.present.Pairwise (fun a b => a.1.toNat < b.1.toNat) :=
  filterMap_allSymbols_pairwise f.get

theorem present_length (f : FreqTable) : f.present.length ≤ 256 := filterMap_allSymbols_length f.get

/-- FCOUNT's loop from any table: `CNT` goes up by the number of occurrences. -/
theorem get_foldl_countByte (f : FreqTable) (bs : List Byte) (b : Byte) :
    (bs.foldl countByte f).get b =
      if bs.count b = 0 then f.get b else some ((f.get b).getD 0 + BitVec.ofNat 32 (bs.count b)) := by
  induction bs generalizing f with
  | nil => simp
  | cons a bs ih =>
    rw [List.foldl_cons, ih, countByte, FreqTable.get_put, List.count_cons]
    by_cases hab : a = b
    · subst hab
      by_cases hc : bs.count a = 0
      · simp [hc]
      · simp only [hc, if_true, if_false, beq_self_eq_true, Option.getD_some, Nat.add_eq_zero_iff, one_ne_zero, and_false]
        congr 1
        rw [BitVec.add_assoc, BitVec.ofNat_add]
        congr 1
        exact BitVec.add_comm _ _
    · simp [hab]

/-- FCOUNT counts: a symbol is present exactly when it occurs, with the number of its occurrences (R80). -/
theorem get_countBytes (bs : List Byte) (b : Byte) :
    (countBytes bs).get b = if bs.count b = 0 then none else some (BitVec.ofNat 32 (bs.count b)) := by
  rw [countBytes, get_foldl_countByte]; simp

/-- The occurrences of all symbols add up to the length. -/
theorem sum_count (d : List Byte) : (allSymbols.map fun b => d.count b).sum = d.length := by
  induction d with
  | nil => simp
  | cons a d ih =>
    have hsplit : ∀ l : List Byte, (l.map fun b => (a :: d).count b).sum =
        (l.map fun b => d.count b).sum + (l.map fun b => if (a == b) = true then 1 else 0).sum := by
      intro l
      induction l with
      | nil => rfl
      | cons c l ih2 =>
        rw [List.map_cons, List.sum_cons, ih2, List.map_cons, List.sum_cons, List.map_cons, List.sum_cons, List.count_cons]
        omega
    have : (allSymbols.map fun b => if (a == b) = true then 1 else 0).sum = allSymbols.count a := by
      generalize allSymbols = l
      induction l with
      | nil => rfl
      | cons c l ih2 =>
        rw [List.map_cons, List.sum_cons, ih2, List.count_cons]
        by_cases hac : a = c
        · subst hac; simp; omega
        · simp [hac, Ne.symm hac]
    rw [hsplit, ih, List.length_cons, this, List.count_eq_one_of_mem allSymbols_nodup (mem_allSymbols a)]

end Sys2Proof.Machine
end

