-- ==== Sys2Proof/Laws/BitPacker.lean ====
section
/-! SUPPORT. BPACK's accumulator against the bit sequence it has taken (R111, R112). -/

namespace Sys2Proof.Machine

/-- The packer has taken the bits `s` since it began with `base` in `OPTR` and `out` in `OUT`, and written `k` bytes of
them. -/
structure Packer.Took (p : Packer) (s : List Bool) (base : Nat) (out : Memory) (k : Nat) : Prop where
  le    : 8 * k ≤ s.length
  ACCN  : p.ACCN.toNat = s.length - 8 * k
  ACC   : p.ACC.toNat = natOfBits (s.drop (8 * k))
  OPTR  : p.OPTR.toNat = base + k
  TBITS : p.TBITS.toNat = s.length
  out   : ∀ a, p.out.read a = if base ≤ a ∧ a < base + k then some (byteOfBits (s.drop (8 * (a - base)))) else out.read a

theorem Packer.Took.start (hlen : BitVec 19) (out : Memory) :
    (Packer.start hlen out).Took [] (1 + hlen.toNat) out 0 := by
  have := hlen.isLt
  refine ⟨by simp, rfl, rfl, ?_, rfl, ?_⟩
  · simp only [Packer.start, payloadAddr, BitVec.toNat_ofNat]; omega
  · intro a; rw [if_neg (by omega)]; rfl

/-- One byte is drained. -/
theorem Packer.Took.drainByte {p : Packer} {s : List Bool} {base k : Nat} {out : Memory} (h : p.Took s base out k)
    (h8 : 8 ≤ s.length - 8 * k) (h64 : s.length - 8 * k ≤ 64) (hb : base + k + 1 < 2 ^ 40) :
    p.drainByte.Took s base out (k + 1) := by
  have hl : (s.drop (8 * k)).length = s.length - 8 * k := List.length_drop
  have hn : p.ACCN.toNat - 8 = s.length - 8 * (k + 1) := by rw [h.ACCN]; omega
  have hbyte : BitVec.ofNat 8 (p.ACC.toNat >>> (s.length - 8 * (k + 1))) = byteOfBits (s.drop (8 * k)) := by
    rw [byteOfBits_take _ (by omega), natOfBits_take _ 8 (by omega), h.ACC, Nat.shiftRight_eq_div_pow, hl]
    congr 3
  refine ⟨by omega, ?_, ?_, ?_, h.TBITS, ?_⟩
  · simp only [Packer.drainByte, hn, BitVec.toNat_ofNat]; omega
  · simp only [Packer.drainByte, hn, lowBits, BitVec.toNat_ofNat]
    rw [show s.drop (8 * (k + 1)) = (s.drop (8 * k)).drop 8 by rw [List.drop_drop]; congr 1,
      natOfBits_drop _ 8 (by omega), h.ACC, hl, show s.length - 8 * k - 8 = s.length - 8 * (k + 1) by omega]
    apply Nat.mod_eq_of_lt
    refine lt_of_lt_of_le (Nat.mod_lt _ (by positivity)) (Nat.pow_le_pow_right (by omega) (by omega))
  · simp only [Packer.drainByte, Packer.emit, BitVec.toNat_add, h.OPTR]
    rw [show (1 : BitVec 40).toNat = 1 from rfl]; omega
  · intro a
    simp only [Packer.drainByte, Packer.emit, hn, h.OPTR, hbyte, read_write]
    by_cases ha : a = base + k
    · subst ha
      rw [if_pos rfl, if_pos (by omega), show base + k - base = k by omega]
    · rw [if_neg ha, h.out]
      by_cases hr : base ≤ a ∧ a < base + k
      · rw [if_pos hr, if_pos (by omega)]
      · rw [if_neg hr, if_neg (by omega)]

/-- Whole bytes are drained: fewer than eight bits are left. -/
theorem Packer.Took.drain {s : List Bool} {base : Nat} {out : Memory} (hb : base + s.length < 2 ^ 40) :
    ∀ (fuel : Nat) {p : Packer} {k : Nat}, p.Took s base out k → s.length - 8 * k ≤ 64 → s.length - 8 * k < 8 * (fuel + 1) →
      (Packer.drain fuel p).Took s base out (s.length / 8) := by
  intro fuel
  induction fuel with
  | zero =>
    intro p k h _ hf
    have := h.le
    rw [show s.length / 8 = k by omega]
    exact h
  | succ fuel ih =>
    intro p k h h64 hf
    have := h.le
    simp only [Packer.drain, h.ACCN]
    split
    · next h8 => exact ih (h.drainByte h8 h64 (by omega)) (by omega) (by omega)
    · rw [show s.length / 8 = k by omega]
      exact h

/-- One code is taken: its bits follow those taken before (R110, R112); at most 57 bits fit (R111). -/
theorem Packer.Took.takeCode {p : Packer} {s : List Bool} {base : Nat} {out : Memory} (h : p.Took s base out (s.length / 8))
    {c : Code} (hl : c.LEN.toNat ≤ 57) (hc : c.PAT.toNat < 2 ^ c.LEN.toNat) (hb : base + (s.length + c.LEN.toNat) < 2 ^ 40) :
    ∃ p', p.takeCode c = .ok p' ∧ p'.Took (s ++ c.bits) base out ((s ++ c.bits).length / 8) := by
  have hlen : (s ++ c.bits).length = s.length + c.LEN.toNat := by simp
  have hA : p.ACCN.toNat = s.length % 8 := by rw [h.ACCN]; omega
  refine ⟨_, by rw [Packer.takeCode, if_pos (by omega)], ?_⟩
  have hacc : p.ACC.toNat < 2 ^ (s.length % 8) := by
    rw [h.ACC]
    have := natOfBits_lt (s.drop (8 * (s.length / 8)))
    rwa [List.length_drop, show s.length - 8 * (s.length / 8) = s.length % 8 by omega] at this
  have hshift : p.ACC.toNat * 2 ^ c.LEN.toNat + c.PAT.toNat < 2 ^ 64 := by
    have h1 : p.ACC.toNat * 2 ^ c.LEN.toNat + c.PAT.toNat < 2 ^ (s.length % 8) * 2 ^ c.LEN.toNat :=
      calc p.ACC.toNat * 2 ^ c.LEN.toNat + c.PAT.toNat < p.ACC.toNat * 2 ^ c.LEN.toNat + 2 ^ c.LEN.toNat := by omega
        _ = (p.ACC.toNat + 1) * 2 ^ c.LEN.toNat := by ring
        _ ≤ 2 ^ (s.length % 8) * 2 ^ c.LEN.toNat := Nat.mul_le_mul_right _ hacc
    rw [← pow_add] at h1
    exact lt_of_lt_of_le h1 (Nat.pow_le_pow_right (by omega) (by omega))
  refine Packer.Took.drain (k := s.length / 8) (by rw [hlen]; exact hb) 8 ⟨?_, ?_, ?_, h.OPTR, ?_, ?_⟩ ?_ ?_
  · rw [hlen]; omega
  · rw [BitVec.toNat_add, hA, hlen]; omega
  · rw [List.drop_append_of_le_length (by omega), natOfBits_append, natOfBits_code hc, ← h.ACC, Code.bits_length,
      BitVec.toNat_or, BitVec.toNat_shiftLeft, Nat.mod_eq_of_lt, Nat.shiftLeft_eq, ← Nat.shiftLeft_eq,
      ← Nat.shiftLeft_add_eq_or_of_lt hc]
    rw [Nat.shiftLeft_eq]; omega
  · simp only [BitVec.toNat_add, BitVec.toNat_setWidth, h.TBITS, hlen]
    omega
  · intro a
    rw [h.out]
    by_cases hr : base ≤ a ∧ a < base + s.length / 8
    · rw [if_pos hr, if_pos hr, List.drop_append_of_le_length (by omega), byteOfBits_append]
      rw [List.length_drop]; omega
    · rw [if_neg hr, if_neg hr]
  · rw [hlen]; omega
  · rw [hlen]; omega

/-- All codes are taken. -/
theorem Packer.Took.takeBytes {t : CodeTable} {base : Nat} {out : Memory} :
    ∀ (d : List Byte) {p : Packer} {s : List Bool}, p.Took s base out (s.length / 8) →
      (∀ b ∈ d, ∃ c, t.get b = some c ∧ c.LEN.toNat ≤ 57 ∧ c.PAT.toNat < 2 ^ c.LEN.toNat) →
      base + (s.length + 57 * d.length) < 2 ^ 40 →
      ∃ p', Packer.takeBytes t p d = .ok p' ∧
        p'.Took (s ++ d.flatMap fun b => ((t.get b).map Code.bits).getD []) base out
          ((s ++ d.flatMap fun b => ((t.get b).map Code.bits).getD []).length / 8) := by
  intro d
  induction d with
  | nil => intro p s h _ _; exact ⟨p, rfl, by simpa using h⟩
  | cons b d ih =>
    intro p s h hd hb
    obtain ⟨c, hc, hl, hp⟩ := hd b (by simp)
    simp only [List.length_cons] at hb
    obtain ⟨p1, h1, g1⟩ := h.takeCode hl hp (by omega)
    obtain ⟨p2, h2, g2⟩ := ih g1 (fun x hx => hd x (by simp [hx])) (by rw [List.length_append, Code.bits_length]; omega)
    refine ⟨p2, ?_, ?_⟩
    · simp only [Packer.takeBytes, Packer.takeByte, hc, h1]; exact h2
    · rw [List.flatMap_cons, hc, Option.map_some, Option.getD_some, ← List.append_assoc]; exact g2

/-- The bits left over go out, and the packed bytes stand from `base` on (R112). -/
theorem Packer.Took.flush {p : Packer} {s : List Bool} {base : Nat} {out : Memory} (h : p.Took s base out (s.length / 8))
    (hb : base + s.length + 1 < 2 ^ 40) :
    p.flush.OPTR.toNat = base + ceil8 s.length ∧
      ∀ a, p.flush.out.read a = if base ≤ a ∧ a < base + ceil8 s.length then (packBits s)[a - base]? else out.read a := by
  have hA : p.ACCN.toNat = s.length % 8 := by rw [h.ACCN]; omega
  have pack : ∀ {a : Nat}, base ≤ a → a < base + ceil8 s.length → (packBits s)[a - base]? = some (byteOfBits (s.drop (8 * (a - base)))) := by
    intro a h1 h2
    rw [packBits_getElem?, if_pos (by omega)]
  unfold Packer.flush
  split
  · next h0 =>
    have hz : s.length % 8 = 0 := by rw [← hA, h0]; rfl
    have hc : ceil8 s.length = s.length / 8 := by unfold ceil8; omega
    rw [hc] at pack ⊢
    refine ⟨h.OPTR, fun a => ?_⟩
    rw [h.out]
    by_cases hr : base ≤ a ∧ a < base + s.length / 8
    · rw [if_pos hr, if_pos hr, pack hr.1 hr.2]
    · rw [if_neg hr, if_neg hr]
  · next h0 =>
    have hz : s.length % 8 ≠ 0 := by
      intro hz; apply h0; apply BitVec.eq_of_toNat_eq; rw [hA, hz]; rfl
    have hc : ceil8 s.length = s.length / 8 + 1 := by unfold ceil8; omega
    have hl : (s.drop (8 * (s.length / 8))).length = s.length % 8 := by rw [List.length_drop]; omega
    have hbyte : BitVec.ofNat 8 (p.ACC.toNat <<< (8 - p.ACCN.toNat)) = byteOfBits (s.drop (8 * (s.length / 8))) := by
      rw [byteOfBits_eq, hl, List.take_of_length_le (by omega), natOfBits_append, natOfBits_replicate, h.ACC, hA,
        Nat.shiftLeft_eq, List.length_replicate, Nat.add_zero]
    rw [hc] at pack ⊢
    refine ⟨?_, fun a => ?_⟩
    · simp only [Packer.emit, BitVec.toNat_add, h.OPTR]
      rw [show (1 : BitVec 40).toNat = 1 from rfl]; omega
    · simp only [Packer.emit, h.OPTR, hbyte, read_write]
      by_cases ha : a = base + s.length / 8
      · subst ha
        rw [if_pos rfl, if_pos (by omega), pack (by omega) (by omega), show base + s.length / 8 - base = s.length / 8 by omega]
      · rw [if_neg ha, h.out]
        by_cases hr : base ≤ a ∧ a < base + s.length / 8
        · rw [if_pos hr, if_pos (by omega), pack hr.1 (by omega)]
        · rw [if_neg hr, if_neg (by omega)]

/-- The padding count (R112). -/
theorem Packer.Took.padc {p : Packer} {s : List Bool} {base : Nat} {out : Memory} (h : p.Took s base out (s.length / 8)) :
    p.padc.toNat = padOf s.length := by
  rw [Packer.padc, BitVec.toNat_ofNat, h.ACCN, padOf]
  omega

end Sys2Proof.Machine
end

