-- ==== Sys2Proof/Laws/Tree.lean ====
section
/-! SUPPORT. The tree builder: inserting by count, merging, and the node table against the tree as a term. -/

namespace Sys2Proof.Machine

/-! ## Inserting behind every entry of at most its count -/

theorem insertByCount_perm (nodes : List Node) (q : List NodeIdx) (p : NodeIdx) :
    (insertByCount nodes q p).Perm (p :: q) := by
  unfold insertByCount
  exact (List.perm_middle).trans (by rw [List.take_append_drop])

theorem insertByCount_length (nodes : List Node) (q : List NodeIdx) (p : NodeIdx) :
    (insertByCount nodes q p).length = q.length + 1 := by
  simpa using (insertByCount_perm nodes q p).length_eq

theorem putBehind_perm (q : List HTree) (t : HTree) : (HTree.putBehind q t).Perm (t :: q) := by
  unfold HTree.putBehind
  exact (List.perm_middle).trans (by rw [List.take_append_drop])

theorem putBehind_length (q : List HTree) (t : HTree) : (HTree.putBehind q t).length = q.length + 1 := by
  simpa using (putBehind_perm q t).length_eq

/-- In a list sorted by a key, the entries of key at most `c` are its first ones. -/
theorem countP_le_prefix {α : Type} (key : α → Nat) (c : Nat) :
    ∀ q : List α, q.Pairwise (fun a b => key a ≤ key b) →
      (∀ x ∈ q.take (q.countP fun j => decide (key j ≤ c)), key x ≤ c) ∧
      (∀ x ∈ q.drop (q.countP fun j => decide (key j ≤ c)), c < key x) := by
  intro q
  induction q with
  | nil => simp
  | cons a q ih =>
    intro h
    rw [List.pairwise_cons] at h
    obtain ⟨ih1, ih2⟩ := ih h.2
    by_cases ha : key a ≤ c
    · rw [List.countP_cons_of_pos (by simpa using ha)]
      refine ⟨?_, by simpa using ih2⟩
      intro x hx
      rw [List.take_succ_cons] at hx
      rcases List.mem_cons.1 hx with rfl | hx
      · exact ha
      · exact ih1 x hx
    · have h0 : q.countP (fun j => decide (key j ≤ c)) = 0 := by
        rw [List.countP_eq_zero]
        intro x hx hk
        have := h.1 x hx
        simp at hk
        omega
      rw [List.countP_cons_of_neg (by simpa using ha), h0]
      simp only [List.take_zero, List.not_mem_nil, false_imp_iff, implies_true, List.drop_zero, true_and]
      intro x hx
      rcases List.mem_cons.1 hx with rfl | hx
      · omega
      · have := h.1 x hx; omega

/-- Inserting behind the entries of at most its key keeps a list sorted, and puts the new entry behind the entries of
its own key. -/
theorem insert_sorted {α : Type} (key : α → Nat) (q : List α) (p : α)
    (h : q.Pairwise (fun a b => key a ≤ key b)) :
    (q.take (q.countP fun j => decide (key j ≤ key p)) ++ p :: q.drop (q.countP fun j => decide (key j ≤ key p))).Pairwise
        (fun a b => key a ≤ key b) ∧
    ∀ c, (q.take (q.countP fun j => decide (key j ≤ key p)) ++
        p :: q.drop (q.countP fun j => decide (key j ≤ key p))).filter (fun x => key x == c) =
      (q ++ [p]).filter (fun x => key x == c) := by
  obtain ⟨h1, h2⟩ := countP_le_prefix key (key p) q h
  generalize hk : (q.countP fun j => decide (key j ≤ key p)) = k at h1 h2 ⊢
  have hq : q = q.take k ++ q.drop k := (List.take_append_drop k q).symm
  constructor
  · rw [hq] at h
    rw [List.pairwise_append] at h ⊢
    refine ⟨h.1, ?_, ?_⟩
    · rw [List.pairwise_cons]
      exact ⟨fun x hx => (h2 x hx).le, h.2.1⟩
    · intro a ha b hb
      rcases List.mem_cons.1 hb with rfl | hb
      · exact h1 a ha
      · exact h.2.2 a ha b hb
  · intro c
    conv_rhs => rw [hq]
    simp only [List.filter_append, List.filter_cons, List.filter_nil, List.append_assoc]
    congr 1
    by_cases hc : key p = c
    · have h0 : (q.drop k).filter (fun x => key x == c) = [] := by
        rw [List.filter_eq_nil_iff]
        intro x hx hxc
        have := h2 x hx
        simp at hxc
        omega
      simp [hc, h0]
    · simp [hc]

/-- The sort by repeated insertion: sorted, a permutation, and stable (R87): the entries of each key keep their order. -/
theorem sort_by_insertion {α : Type} (key : α → Nat) (ins : List α → α → List α)
    (hins : ∀ q p, ins q p = q.take (q.countP fun j => decide (key j ≤ key p)) ++
      p :: q.drop (q.countP fun j => decide (key j ≤ key p))) :
    ∀ (q acc : List α), acc.Pairwise (fun a b => key a ≤ key b) →
      (q.foldl ins acc).Pairwise (fun a b => key a ≤ key b) ∧ (q.foldl ins acc).Perm (acc ++ q) ∧
      ∀ c, (q.foldl ins acc).filter (fun x => key x == c) = (acc ++ q).filter (fun x => key x == c) := by
  intro q
  induction q with
  | nil => intro acc h; simpa using h
  | cons p q ih =>
    intro acc h
    obtain ⟨hs, hf⟩ := insert_sorted key acc p h
    rw [← hins] at hs hf
    obtain ⟨g1, g2, g3⟩ := ih (ins acc p) hs
    rw [List.foldl_cons]
    refine ⟨g1, g2.trans ?_, ?_⟩
    · have : (ins acc p).Perm (p :: acc) := by
        rw [hins]; exact (List.perm_middle).trans (by rw [List.take_append_drop])
      exact (this.append_right q).trans (List.perm_middle.symm.trans (List.Perm.refl _))
    · intro c
      rw [g3, List.filter_append, hf, ← List.filter_append, List.append_assoc]
      rfl

theorem insertByCount_eq (nodes : List Node) (q : List NodeIdx) (p : NodeIdx) :
    insertByCount nodes q p =
      q.take (q.countP fun j => decide ((countAt nodes j).toNat ≤ (countAt nodes p).toNat)) ++
        p :: q.drop (q.countP fun j => decide ((countAt nodes j).toNat ≤ (countAt nodes p).toNat)) := rfl

/-- What the stable sort of R87 answers. -/
theorem stableSort_spec (nodes : List Node) (q : List NodeIdx) :
    (stableSort nodes q).Pairwise (fun a b => (countAt nodes a).toNat ≤ (countAt nodes b).toNat) ∧
    (stableSort nodes q).Perm q ∧
    ∀ c, (stableSort nodes q).filter (fun x => (countAt nodes x).toNat == c) =
      q.filter (fun x => (countAt nodes x).toNat == c) := by
  have := sort_by_insertion (fun j => (countAt nodes j).toNat) (insertByCount nodes) (insertByCount_eq nodes) q []
    List.Pairwise.nil
  simpa [stableSort] using this

/-! ## The node table against trees -/

/-- A slot keeps its tree when slots are appended. -/
theorem represents_append {nodes : List Node} (more : List Node) :
    ∀ {t : HTree} {i : NodeIdx}, represents nodes i t → represents (nodes ++ more) i t := by
  have get : ∀ {i : Nat} {n : Node}, nodes[i]? = some n → (nodes ++ more)[i]? = some n := by
    intro i n h
    rw [List.getElem?_append_left (List.getElem?_eq_some_iff.1 h).1]; exact h
  intro t
  induction t with
  | leaf s c => rintro i ⟨n, h, hc⟩; exact ⟨n, get h, hc⟩
  | node c l r ihl ihr =>
    rintro i ⟨n, a, b, h, hc, hl, hr⟩
    exact ⟨n, a, b, get h, hc, ihl hl, ihr hr⟩

/-- The count of a slot is the count of its tree. -/
theorem countAt_of_represents {nodes : List Node} {t : HTree} {i : NodeIdx} (h : represents nodes i t) :
    (countAt nodes i).toNat = t.count := by
  cases t with
  | leaf s c => obtain ⟨n, h, hc⟩ := h; simp [countAt, h, Node.CNT, HTree.count, hc]
  | node c l r => obtain ⟨n, a, b, h, hc, -, -⟩ := h; simp [countAt, h, Node.CNT, HTree.count, hc]

theorem lt_length_of_represents {nodes : List Node} {t : HTree} {i : NodeIdx} (h : represents nodes i t) :
    i.toNat < nodes.length := by
  cases t with
  | leaf s c => obtain ⟨n, h, hc⟩ := h; exact (List.getElem?_eq_some_iff.1 h).1
  | node c l r => obtain ⟨n, a, b, h, hc, -, -⟩ := h; exact (List.getElem?_eq_some_iff.1 h).1

theorem countP_of_forall₂ {nodes : List Node} {q : List NodeIdx} {ts : List HTree}
    (h : List.Forall₂ (represents nodes) q ts) (c : Nat) :
    (q.countP fun j => decide ((countAt nodes j).toNat ≤ c)) = ts.countP fun u => decide (u.count ≤ c) := by
  induction h with
  | nil => rfl
  | cons h _ ih => simp only [List.countP_cons, ih, countAt_of_represents h]

/-- Inserting an entry and inserting its tree go together. -/
theorem forall₂_insert {nodes : List Node} {q : List NodeIdx} {ts : List HTree} {p : NodeIdx} {t : HTree}
    (h : List.Forall₂ (represents nodes) q ts) (hp : represents nodes p t) :
    List.Forall₂ (represents nodes) (insertByCount nodes q p) (HTree.putBehind ts t) := by
  rw [insertByCount_eq, HTree.putBehind, countAt_of_represents hp, countP_of_forall₂ h]
  exact List.rel_append (List.forall₂_take _ h) (List.Forall₂.cons hp (List.forall₂_drop _ h))

theorem forall₂_foldl_insert {nodes : List Node} {q : List NodeIdx} {ts : List HTree}
    (h : List.Forall₂ (represents nodes) q ts) :
    ∀ {q0 : List NodeIdx} {ts0 : List HTree}, List.Forall₂ (represents nodes) q0 ts0 →
      List.Forall₂ (represents nodes) (q.foldl (insertByCount nodes) q0) (ts.foldl HTree.putBehind ts0) := by
  induction h with
  | nil => intro q0 ts0 h0; exact h0
  | cons hp _ ih => intro q0 ts0 h0; exact ih (forall₂_insert h0 hp)

theorem checkQueue_of_forall₂ {nodes : List Node} {q : List NodeIdx} {ts : List HTree}
    (h : List.Forall₂ (represents nodes) q ts) : checkQueue nodes q = .ok () := by
  induction h with
  | nil => rfl
  | cons hp _ ih =>
    have := lt_length_of_represents hp
    simp only [checkQueue, nodeAt, List.getElem?_eq_getElem this, ih]

/-- One merge step, on the table and on the trees (R88). -/
theorem mergeStep_represents {nodes : List Node} {a b : NodeIdx} {rest : List NodeIdx} {u v : HTree} {ts : List HTree}
    (ha : represents nodes a u) (hb : represents nodes b v) (h : List.Forall₂ (represents nodes) rest ts)
    (hlen : nodes.length < 511) (hsum : u.count + v.count < 2 ^ 40) :
    ∃ q', mergeStep nodes a b rest =
        .ok (nodes ++ [.inner (countAt nodes a + countAt nodes b) a b], q') ∧
      q' = insertByCount (nodes ++ [.inner (countAt nodes a + countAt nodes b) a b]) rest (BitVec.ofNat 9 nodes.length) ∧
      List.Forall₂ (represents (nodes ++ [.inner (countAt nodes a + countAt nodes b) a b])) q'
        (HTree.putBehind ts (.node (u.count + v.count) u v)) := by
  refine ⟨_, by simp only [mergeStep, if_pos hlen], rfl, ?_⟩
  refine forall₂_insert (h.imp fun _ _ => represents_append _) ?_
  refine ⟨countAt nodes a + countAt nodes b, a, b, ?_, ?_, represents_append _ ha, represents_append _ hb⟩
  · have : (BitVec.ofNat 9 nodes.length).toNat = nodes.length := by
      rw [BitVec.toNat_ofNat]; exact Nat.mod_eq_of_lt (by omega)
    rw [this]; simp
  · rw [BitVec.toNat_add, countAt_of_represents ha, countAt_of_represents hb, Nat.mod_eq_of_lt hsum]

/-- TBUILD's merging does on the table what `HTree.mergeAll` does on trees (R88, R89): it never runs out of slots or
of count bits when the leaves did not. -/
theorem mergeAll_represents :
    ∀ (fuel : Nat) {nodes : List Node} {q : List NodeIdx} {ts : List HTree},
      List.Forall₂ (represents nodes) q ts → nodes.length + q.length ≤ 512 → (ts.map HTree.count).sum < 2 ^ 40 →
      ∃ nodes' q', mergeAll fuel nodes q = .ok (nodes', q') ∧
        List.Forall₂ (represents nodes') q' (HTree.mergeAll fuel ts) ∧
        nodes'.length + q'.length = nodes.length + q.length ∧ nodes <+: nodes' := by
  intro fuel
  induction fuel with
  | zero =>
    intro nodes q ts h _ _
    exact ⟨nodes, q, by simp [mergeAll], by simpa [HTree.mergeAll] using h, rfl, List.prefix_refl _⟩
  | succ fuel ih =>
    intro nodes q ts h hlen hsum
    match q, ts, h with
    | [], _, .nil => exact ⟨nodes, [], rfl, .nil, rfl, List.prefix_refl _⟩
    | [i], _, .cons hi .nil => exact ⟨nodes, [i], rfl, .cons hi .nil, rfl, List.prefix_refl _⟩
    | a :: b :: rest, u :: v :: ts, .cons ha (.cons hb h) =>
      simp only [List.length_cons, List.map_cons, List.sum_cons] at hlen hsum
      obtain ⟨q', hm, hq', hf⟩ := mergeStep_represents ha hb h (by omega) (by omega)
      have hl' : q'.length = rest.length + 1 := by rw [hq', insertByCount_length]
      have hs' : ((HTree.putBehind ts (.node (u.count + v.count) u v)).map HTree.count).sum < 2 ^ 40 := by
        rw [((putBehind_perm ts _).map HTree.count).sum_eq]
        rw [List.map_cons, List.sum_cons, show (HTree.node (u.count + v.count) u v).count = u.count + v.count from rfl]
        omega
      obtain ⟨nodes'', q'', h1, h2, h3, h4⟩ := ih hf (by simp [hl']; omega) hs'
      refine ⟨nodes'', q'', ?_, h2, ?_, (List.prefix_append _ _).trans h4⟩
      · simp only [mergeAll, hm]; exact h1
      · rw [h3, hl']; simp; omega

/-- Merging a list of n + 1 trees with enough fuel leaves one tree. -/
theorem HTree.mergeAll_length :
    ∀ (fuel : Nat) (ts : List HTree), ts ≠ [] → ts.length ≤ fuel + 1 → ∃ t, HTree.mergeAll fuel ts = [t] := by
  intro fuel
  induction fuel with
  | zero =>
    intro ts h hl
    match ts, h with
    | [t], _ => exact ⟨t, rfl⟩
    | _ :: _ :: _, _ => simp at hl
  | succ fuel ih =>
    intro ts h hl
    match ts, h with
    | [t], _ => exact ⟨t, rfl⟩
    | a :: b :: rest, _ =>
      refine ih _ ?_ ?_
      · rw [← List.length_pos_iff, putBehind_length]; omega
      · rw [putBehind_length]; simpa using hl

/-- A property of trees that merging keeps holds of every tree that merging leaves. -/
theorem HTree.mergeAll_all {P : HTree → Prop}
    (hnode : ∀ u v, P u → P v → P (.node (u.count + v.count) u v)) :
    ∀ (fuel : Nat) (ts : List HTree), (∀ t ∈ ts, P t) → ∀ t ∈ HTree.mergeAll fuel ts, P t := by
  intro fuel
  induction fuel with
  | zero => intro ts h; simpa [HTree.mergeAll] using h
  | succ fuel ih =>
    intro ts h
    match ts with
    | [] => simp [HTree.mergeAll]
    | [t] => simpa [HTree.mergeAll] using h
    | a :: b :: rest =>
      refine ih _ ?_
      intro t ht
      rcases List.mem_cons.1 ((putBehind_perm rest _).mem_iff.1 ht) with rfl | ht
      · exact hnode a b (h a (by simp)) (h b (by simp))
      · exact h t (by simp [ht])

/-- A sum over trees that adds up over children is the same after merging. -/
theorem HTree.mergeAll_sum (f : HTree → Nat) (hf : ∀ u v, f (.node (u.count + v.count) u v) = f u + f v) :
    ∀ (fuel : Nat) (ts : List HTree), ((HTree.mergeAll fuel ts).map f).sum = (ts.map f).sum := by
  intro fuel
  induction fuel with
  | zero => intro ts; rfl
  | succ fuel ih =>
    intro ts
    match ts with
    | [] => rfl
    | [t] => rfl
    | a :: b :: rest =>
      rw [HTree.mergeAll, ih, ((putBehind_perm rest _).map f).sum_eq]
      simp [hf]; omega

/-- The leaves of a tree, left to right. -/
def HTree.leafPairs : HTree → List (Byte × Nat)
  | .leaf s c => [(s, c)]
  | .node _ l r => l.leafPairs ++ r.leafPairs

/-- Merging neither loses nor repeats a leaf. -/
theorem HTree.mergeAll_leafPairs :
    ∀ (fuel : Nat) (ts : List HTree), ((HTree.mergeAll fuel ts).flatMap leafPairs).Perm (ts.flatMap leafPairs) := by
  intro fuel
  induction fuel with
  | zero => intro ts; rfl
  | succ fuel ih =>
    intro ts
    match ts with
    | [] => rfl
    | [t] => rfl
    | a :: b :: rest =>
      refine (ih _).trans ((List.Perm.flatMap_right _ (putBehind_perm rest _)).trans ?_)
      simp [leafPairs]

theorem foldl_putBehind_perm (ts : List HTree) : ∀ q : List HTree, (ts.foldl HTree.putBehind q).Perm (q ++ ts) := by
  induction ts with
  | nil => intro q; simp
  | cons t ts ih =>
    intro q
    refine (ih _).trans (((putBehind_perm q t).append_right ts).trans ?_)
    exact List.perm_middle.symm

/-- A non-empty leaf list has a tree, made of its leaves, each internal node counting what its children count. -/
theorem HTree.build_spec (es : List (Byte × Nat)) (h : es ≠ []) :
    ∃ t, HTree.build es = some t ∧ t.leafPairs.Perm es ∧ t.summed ∧ t.count = (es.map Prod.snd).sum ∧
      HTree.mergeAll es.length ((es.map fun e => .leaf e.1 e.2).foldl HTree.putBehind []) = [t] := by
  have hp := foldl_putBehind_perm (es.map fun e => HTree.leaf e.1 e.2) []
  rw [List.nil_append] at hp
  obtain ⟨t, ht⟩ := HTree.mergeAll_length es.length _ (by
    rw [← List.length_pos_iff, hp.length_eq, List.length_map]; exact List.length_pos_iff.2 h) (by
    rw [hp.length_eq, List.length_map]; omega)
  refine ⟨t, by rw [HTree.build, ht]; rfl, ?_, ?_, ?_, ht⟩
  · have := HTree.mergeAll_leafPairs es.length ((es.map fun e => HTree.leaf e.1 e.2).foldl HTree.putBehind [])
    rw [ht] at this
    simp only [List.flatMap_cons, List.flatMap_nil, List.append_nil] at this
    refine this.trans ((List.Perm.flatMap_right _ hp).trans ?_)
    have : ∀ l : List (Byte × Nat), (l.map fun e => HTree.leaf e.1 e.2).flatMap leafPairs = l := by
      intro l; induction l with
      | nil => rfl
      | cons e l ih => simp [leafPairs, ih]
    rw [this]
  · have := HTree.mergeAll_all (P := HTree.summed) (fun u v hu hv => ⟨rfl, hu, hv⟩) es.length
      ((es.map fun e => HTree.leaf e.1 e.2).foldl HTree.putBehind []) (fun u hu => by
        obtain ⟨e, _, rfl⟩ := List.mem_map.1 (hp.mem_iff.1 hu)
        exact trivial)
    exact this t (by rw [ht]; simp)
  · have := HTree.mergeAll_sum HTree.count (fun u v => rfl) es.length
      ((es.map fun e => HTree.leaf e.1 e.2).foldl HTree.putBehind [])
    rw [ht, (hp.map HTree.count).sum_eq, List.map_map] at this
    simpa [HTree.count, Function.comp_def] using this

theorem countAt_append {nodes : List Node} (more : List Node) {j : NodeIdx} (h : j.toNat < nodes.length) :
    countAt (nodes ++ more) j = countAt nodes j := by
  simp [countAt, List.getElem?_append_left h]

/-- MKLEAF's slots are the leaves of the leaf list. -/
theorem leaves_represent (es : List (Byte × Count)) (hl : es.length ≤ 256) :
    List.Forall₂ (represents (es.map fun e => Node.leaf e.1 (e.2.setWidth 40))) ((List.range es.length).map (BitVec.ofNat 9))
      ((es.map fun e => (e.1, e.2.toNat)).map fun e => HTree.leaf e.1 e.2) := by
  rw [List.forall₂_iff_get]
  refine ⟨by simp, ?_⟩
  intro i h1 h2
  simp at h1
  simp only [List.get_eq_getElem, List.getElem_map, List.getElem_range]
  refine ⟨(es[i].2).setWidth 40, ?_, ?_⟩
  · rw [BitVec.toNat_ofNat, Nat.mod_eq_of_lt (by omega)]
    simp [h1]
  · simp; have := es[i].2.isLt; omega

/-- The counts of at most 256 leaves add up below 2^40 (R94, R133 (d)). -/
theorem sum_counts_lt (es : List (Byte × Count)) (hl : es.length ≤ 256) : (es.map fun e => e.2.toNat).sum < 2 ^ 40 := by
  have : (es.map fun e => e.2.toNat).sum ≤ es.length * (2 ^ 32 - 1) := by
    clear hl
    induction es with
    | nil => simp
    | cons e es ih => simp only [List.map_cons, List.sum_cons, List.length_cons]; have := e.2.isLt; omega
  have h256 : es.length * (2 ^ 32 - 1) ≤ 256 * (2 ^ 32 - 1) := Nat.mul_le_mul_right _ hl
  omega

/-- After merging two or more entries the one left is the last slot. -/
theorem mergeAll_root :
    ∀ (fuel : Nat) (nodes : List Node) (q : List NodeIdx) (nodes' : List Node) (r : NodeIdx),
      2 ≤ q.length → nodes.length + q.length ≤ 512 → mergeAll fuel nodes q = .ok (nodes', [r]) →
      r.toNat + 1 = nodes'.length := by
  intro fuel
  induction fuel with
  | zero => intro nodes q nodes' r h2 hl h; simp [mergeAll] at h; rw [h.2] at h2; simp at h2
  | succ fuel ih =>
    intro nodes q nodes' r h2 hl h
    match q with
    | [] => simp at h2
    | [_] => simp at h2
    | a :: b :: rest =>
      simp only [List.length_cons] at hl
      simp only [mergeAll, mergeStep, if_pos (show nodes.length < 511 by omega)] at h
      by_cases hr : rest = []
      · subst hr
        have : insertByCount (nodes ++ [Node.inner (countAt nodes a + countAt nodes b) a b]) []
            (BitVec.ofNat 9 nodes.length) = [BitVec.ofNat 9 nodes.length] := by
          simp [insertByCount]
        rw [this] at h
        cases fuel <;> (simp only [mergeAll] at h; cases h; rw [BitVec.toNat_ofNat, Nat.mod_eq_of_lt (by omega)]; simp)
      · refine ih _ _ _ _ ?_ ?_ h
        · rw [insertByCount_length]; have := List.length_pos_iff.2 hr; omega
        · rw [insertByCount_length]; simp; omega

theorem HTree.paths_fst (t : HTree) : t.paths.map Prod.fst = t.leafPairs.map Prod.fst := by
  induction t with
  | leaf s c => rfl
  | node c l r ihl ihr => simp [HTree.paths, HTree.leafPairs, ← ihl, ← ihr, Function.comp_def]

theorem HTree.leafPairs_length (t : HTree) : t.leafPairs.length = t.leaves := by
  induction t with
  | leaf s c => rfl
  | node c l r ihl ihr => simp [HTree.leafPairs, HTree.leaves, ihl, ihr]

end Sys2Proof.Machine
end

