-- ==== Sys2Proof/Laws/CodeTable.lean ====
section
/-! SUPPORT. CGEN: the code a path leads to, its bits, and what `visit` writes. -/

namespace Sys2Proof.Machine

/-- One branch (R68): 2*`PAT` to the left, 2*`PAT` + 1 to the right, `LEN` + 1. -/
def Code.branch (c : Code) (b : Bool) : Code := ⟨if b then 2 * c.PAT + 1 else 2 * c.PAT, c.LEN + 1⟩

/-- The code reached along a path. -/
def Code.along (c : Code) (path : List Bool) : Code := path.foldl Code.branch c

@[simp] theorem Code.along_nil (c : Code) : c.along [] = c := rfl
@[simp] theorem Code.along_cons (c : Code) (b : Bool) (path : List Bool) : c.along (b :: path) = (c.branch b).along path := rfl

theorem Code.branch_LEN {c : Code} (b : Bool) (h : c.LEN.toNat < 64) : (c.branch b).LEN.toNat = c.LEN.toNat + 1 := by
  simp only [Code.branch, BitVec.toNat_add]
  rw [show (1 : BitVec 7).toNat = 1 from rfl]
  omega

theorem Code.branch_PAT {c : Code} (b : Bool) (h : c.PAT.toNat < 2 ^ 63) :
    (c.branch b).PAT.toNat = 2 * c.PAT.toNat + b.toNat := by
  cases b <;> simp only [Code.branch, Bool.toNat_true, Bool.toNat_false, if_true, Bool.false_eq_true, if_false,
    BitVec.toNat_add, BitVec.toNat_mul]
  · rw [show (2 : BitVec 64).toNat = 2 from rfl]; omega
  · rw [show (2 : BitVec 64).toNat = 2 from rfl, show (1 : BitVec 64).toNat = 1 from rfl]; omega

theorem Code.branch_PAT_lt {c : Code} (b : Bool) (hl : c.LEN.toNat < 64) (h : c.PAT.toNat < 2 ^ c.LEN.toNat) :
    (c.branch b).PAT.toNat < 2 ^ (c.branch b).LEN.toNat := by
  have h63 : c.PAT.toNat < 2 ^ 63 := lt_of_lt_of_le h (Nat.pow_le_pow_right (by omega) (by omega))
  rw [branch_PAT b h63, branch_LEN b hl, pow_succ]
  have := b.toNat_le
  omega

/-- A branch adds its bit at the end. -/
theorem Code.bits_branch {c : Code} (b : Bool) (hl : c.LEN.toNat < 64) (h : c.PAT.toNat < 2 ^ c.LEN.toNat) :
    (c.branch b).bits = c.bits ++ [b] := by
  have h63 : c.PAT.toNat < 2 ^ 63 := lt_of_lt_of_le h (Nat.pow_le_pow_right (by omega) (by omega))
  unfold Code.bits
  rw [branch_LEN b hl, List.range_succ, List.map_append]
  congr 1
  · apply List.map_congr_left
    intro i hi
    rw [List.mem_range] at hi
    rw [BitVec.getLsbD, BitVec.getLsbD, branch_PAT b h63]
    rw [show c.LEN.toNat + 1 - 1 - i = (c.LEN.toNat - 1 - i) + 1 by omega, Nat.testBit_succ]
    congr 1
    have := b.toNat_le
    omega
  · simp only [List.map_cons, List.map_nil, List.cons.injEq, and_true]
    rw [BitVec.getLsbD, branch_PAT b h63, show c.LEN.toNat + 1 - 1 - c.LEN.toNat = 0 by omega, Nat.testBit_zero]
    cases b <;> simp [Nat.add_mod]

/-- Along a path of at most 64 branches in all, the bits are those so far and then the path's (R68). -/
theorem Code.along_spec (path : List Bool) :
    ∀ {c : Code}, c.LEN.toNat + path.length ≤ 64 → c.PAT.toNat < 2 ^ c.LEN.toNat →
      (c.along path).bits = c.bits ++ path ∧ (c.along path).LEN.toNat = c.LEN.toNat + path.length ∧
      (c.along path).PAT.toNat < 2 ^ (c.along path).LEN.toNat := by
  induction path with
  | nil => intro c _ h; simpa using h
  | cons b path ih =>
    intro c hl h
    simp only [List.length_cons] at hl
    have h1 := branch_LEN (c := c) b (by omega)
    obtain ⟨g1, g2, g3⟩ := ih (c := c.branch b) (by omega) (branch_PAT_lt b (by omega) h)
    refine ⟨?_, ?_, g3⟩
    · rw [along_cons, g1, bits_branch b (by omega) h]; simp
    · rw [along_cons, g2, h1]; simp; omega

theorem lookup_append {α β : Type} [BEq α] (l m : List (α × β)) (a : α) :
    (l ++ m).lookup a = (l.lookup a).or (m.lookup a) := by
  induction l with
  | nil => simp
  | cons e l ih =>
    obtain ⟨x, y⟩ := e
    simp only [List.cons_append, List.lookup_cons, ih]
    split <;> simp

theorem lookup_map_snd {α β γ : Type} [BEq α] (l : List (α × β)) (f : β → γ) (a : α) :
    (l.map fun e => (e.1, f e.2)).lookup a = (l.lookup a).map f := by
  induction l with
  | nil => rfl
  | cons e l ih =>
    obtain ⟨x, y⟩ := e
    simp only [List.map_cons, List.lookup_cons, ih]
    split <;> simp

theorem lookup_eq_none_of_not_mem {β : Type} {l : List (Byte × β)} {a : Byte} (h : a ∉ l.map Prod.fst) : l.lookup a = none := by
  induction l with
  | nil => rfl
  | cons e l ih =>
    obtain ⟨x, y⟩ := e
    simp only [List.map_cons, List.mem_cons, not_or] at h
    rw [List.lookup_cons, beq_false_of_ne h.1]
    exact ih h.2

theorem lookup_isSome_of_mem {β : Type} {l : List (Byte × β)} {a : Byte} (h : a ∈ l.map Prod.fst) : ∃ y, l.lookup a = some y := by
  induction l with
  | nil => simp at h
  | cons e l ih =>
    obtain ⟨x, y⟩ := e
    rw [List.lookup_cons]
    by_cases hax : a = x
    · subst hax; simp
    · rw [beq_false_of_ne hax]
      exact ih (by simpa [hax] using h)

theorem mem_of_lookup {β : Type} {l : List (Byte × β)} {a : Byte} {y : β} (h : l.lookup a = some y) : (a, y) ∈ l := by
  induction l with
  | nil => simp at h
  | cons e l ih =>
    obtain ⟨x, z⟩ := e
    rw [List.lookup_cons] at h
    by_cases hax : a = x
    · subst hax; simp at h; subst h; exact List.mem_cons_self
    · rw [beq_false_of_ne hax] at h
      exact List.mem_cons_of_mem _ (ih h)

/-- With distinct keys, an entry is what its key looks up. -/
theorem lookup_of_mem {β : Type} {l : List (Byte × β)} {a : Byte} {y : β} (hn : (l.map Prod.fst).Nodup) (h : (a, y) ∈ l) :
    l.lookup a = some y := by
  induction l with
  | nil => simp at h
  | cons e l ih =>
    obtain ⟨x, z⟩ := e
    rw [List.map_cons, List.nodup_cons] at hn
    rw [List.lookup_cons]
    rcases List.mem_cons.1 h with h' | h'
    · cases h'; simp
    · have : a ≠ x := fun hax => hn.1 (List.mem_map.2 ⟨_, h', hax⟩)
      rw [beq_false_of_ne this]
      exact ih hn.2 h'

/-- A tree's slot holds a value. -/
theorem nodeAt_of_represents_leaf {nodes : List Node} {i : NodeIdx} {s : Byte} {c : Nat} (h : represents nodes i (.leaf s c)) :
    ∃ n, nodeAt nodes i = .ok (.leaf s n) ∧ n.toNat = c := by
  obtain ⟨n, h, hc⟩ := h
  exact ⟨n, by simp [nodeAt, h], hc⟩

theorem nodeAt_of_represents_node {nodes : List Node} {i : NodeIdx} {c : Nat} {l r : HTree}
    (h : represents nodes i (.node c l r)) :
    ∃ n a b, nodeAt nodes i = .ok (.inner n a b) ∧ n.toNat = c ∧ represents nodes a l ∧ represents nodes b r := by
  obtain ⟨n, a, b, h, hc, hl, hr⟩ := h
  exact ⟨n, a, b, by simp [nodeAt, h], hc, hl, hr⟩

/-- `visit` gives each leaf's symbol the code its path leads to, and leaves every other entry (R95). -/
theorem visit_spec {nodes : List Node} :
    ∀ (t : HTree) {i : NodeIdx} {fuel : Nat} (c : Code) (tab : CodeTable), represents nodes i t → t.depth < fuel →
      (t.paths.map Prod.fst).Nodup →
      ∃ tab', visit nodes fuel i c.PAT c.LEN tab = .ok tab' ∧
        ∀ b, tab'.get b = ((t.paths.lookup b).map c.along).or (tab.get b) := by
  intro t
  induction t with
  | leaf s n =>
    intro i fuel c tab h hf _
    obtain ⟨m, hm, -⟩ := nodeAt_of_represents_leaf h
    match fuel, hf with
    | fuel + 1, _ =>
      refine ⟨tab.put s c, by simp only [visit, hm], ?_⟩
      intro b
      rw [CodeTable.get_put, HTree.paths, List.lookup_cons]
      by_cases hb : s = b
      · subst hb; simp
      · rw [if_neg hb, beq_false_of_ne (Ne.symm hb)]; simp
  | node n l r ihl ihr =>
    intro i fuel c tab h hf hn
    obtain ⟨m, a, b, hm, -, hl, hr⟩ := nodeAt_of_represents_node h
    match fuel, hf with
    | fuel + 1, hf =>
      rw [HTree.depth] at hf
      simp only [HTree.paths, List.map_append, List.map_map, Function.comp_def] at hn
      have hn' := List.nodup_append.1 hn
      obtain ⟨t1, h1, g1⟩ := ihl (fuel := fuel) (c.branch false) tab hl (by omega) hn'.1
      obtain ⟨t2, h2, g2⟩ := ihr (fuel := fuel) (c.branch true) t1 hr (by omega) hn'.2.1
      refine ⟨t2, ?_, ?_⟩
      · simp only [visit, hm]
        rw [show 2 * c.PAT = (c.branch false).PAT from rfl, show c.LEN + 1 = (c.branch false).LEN from rfl, h1]
        exact h2
      · intro x
        rw [g2, g1, HTree.paths, lookup_append, lookup_map_snd, lookup_map_snd]
        by_cases hx : x ∈ r.paths.map Prod.fst
        · have : l.paths.lookup x = none := lookup_eq_none_of_not_mem fun hxl => hn'.2.2 _ hxl _ hx rfl
          rw [this]
          simp [Option.map_map, Function.comp_def]
        · rw [lookup_eq_none_of_not_mem hx]
          simp [Option.map_map, Function.comp_def]

/-- A path is no longer than the tree is deep. -/
theorem HTree.length_le_depth : ∀ (t : HTree) {b : Byte} {p : List Bool}, (b, p) ∈ t.paths → p.length ≤ t.depth := by
  intro t
  induction t with
  | leaf s c => intro b p h; simp [paths] at h; simp [h.2]
  | node c l r ihl ihr =>
    intro b p h
    simp only [paths, List.mem_append, List.mem_map, Prod.mk.injEq, Prod.exists] at h
    rcases h with ⟨x, q, hq, rfl, rfl⟩ | ⟨x, q, hq, rfl, rfl⟩
    · have := ihl hq; simp [depth]; omega
    · have := ihr hq; simp [depth]; omega

/-- When one path begins with another, both lead to one leaf. -/
theorem HTree.eq_of_prefix :
    ∀ (t : HTree) {a b : Byte} {p q : List Bool}, (a, p) ∈ t.paths → (b, q) ∈ t.paths → p <+: q → a = b := by
  intro t
  induction t with
  | leaf s c =>
    intro a b p q ha hb _
    simp [paths] at ha hb
    rw [ha.1, hb.1]
  | node c l r ihl ihr =>
    intro a b p q ha hb hpq
    simp only [paths, List.mem_append, List.mem_map, Prod.mk.injEq, Prod.exists] at ha hb
    rcases ha with ⟨x, u, hu, rfl, rfl⟩ | ⟨x, u, hu, rfl, rfl⟩ <;> rcases hb with ⟨y, v, hv, rfl, rfl⟩ | ⟨y, v, hv, rfl, rfl⟩
    · exact ihl hu hv (by simpa using hpq)
    · simp at hpq
    · simp at hpq
    · exact ihr hu hv (by simpa using hpq)

/-- What CGEN writes: for every symbol of the tree the code its path leads to (R95, R96). -/
theorem generateCodes_spec {w : Work} {t : HTree} (hT : w.TREE = true) (h : represents w.NODE w.ROOT t) (hd : t.depth ≤ 64)
    (hn : (t.paths.map Prod.fst).Nodup) :
    ∃ c, generateCodes w = .ok c ∧ ∀ b, c.get b = (t.codes.lookup b).map (Code.along ⟨0, 0⟩) := by
  unfold generateCodes
  rw [if_pos hT]
  cases t with
  | leaf s n =>
    obtain ⟨m, hm, -⟩ := nodeAt_of_represents_leaf h
    refine ⟨CodeTable.clear.put s ⟨0, 1⟩, by simp [hm, bind, Except.bind, pure, Except.pure], ?_⟩
    intro b
    rw [CodeTable.get_put, HTree.codes, List.lookup_cons]
    by_cases hb : s = b
    · subst hb; simp [Code.branch]
    · rw [if_neg hb, beq_false_of_ne (Ne.symm hb)]; simp
  | node n l r =>
    obtain ⟨m, a, b, hm, -, -⟩ := nodeAt_of_represents_node h
    obtain ⟨tab, h1, h2⟩ := visit_spec _ (fuel := 65) ⟨0, 0⟩ CodeTable.clear h (by omega) hn
    refine ⟨tab, ?_, ?_⟩
    · simp only [hm, bind, Except.bind]; exact h1
    · intro x; rw [h2, CodeTable.get_clear, Option.or_none]; rfl

theorem HTree.codes_length {t : HTree} (hd : t.depth ≤ 64) {b : Byte} {p : List Bool} (h : (b, p) ∈ t.codes) :
    p.length ≤ 64 := by
  cases t with
  | leaf s c => simp [HTree.codes] at h; simp [h.2]
  | node c l r => exact (HTree.length_le_depth _ h).trans hd

/-- The code of a path from the root: the path's bits, its length, and a pattern below 2^LEN (R22, R68). -/
theorem Code.along_root {p : List Bool} (h : p.length ≤ 64) :
    (Code.along ⟨0, 0⟩ p).bits = p ∧ (Code.along ⟨0, 0⟩ p).LEN.toNat = p.length ∧
      (Code.along ⟨0, 0⟩ p).PAT.toNat < 2 ^ (Code.along ⟨0, 0⟩ p).LEN.toNat := by
  have := Code.along_spec p (c := ⟨0, 0⟩) (by simpa using h) (by simp)
  simpa [Code.bits] using this

theorem HTree.codes_eq_of_prefix {t : HTree} {a b : Byte} {p q : List Bool} (ha : (a, p) ∈ t.codes) (hb : (b, q) ∈ t.codes)
    (h : p <+: q) : a = b := by
  cases t with
  | leaf s c => simp [HTree.codes] at ha hb; rw [ha.1, hb.1]
  | node c l r => exact HTree.eq_of_prefix _ ha hb h

theorem HTree.codes_fst (t : HTree) : t.codes.map Prod.fst = t.paths.map Prod.fst := by
  cases t <;> rfl

end Sys2Proof.Machine
end

