-- ==== Sys2Proof/Laws/BitWalker.lean ====
section
/-! SUPPORT. TWALK against reading a bit sequence off the tree as a term (R115 to R117). -/

namespace Sys2Proof.Machine

/-- A slot is at most one tree. -/
theorem represents_unique {nodes : List Node} :
    ∀ {t u : HTree} {i : NodeIdx}, represents nodes i t → represents nodes i u → t = u := by
  intro t
  induction t with
  | leaf s c =>
    intro u i h h'
    obtain ⟨n, h, hc⟩ := h
    cases u with
    | leaf s' c' => obtain ⟨n', h', hc'⟩ := h'; rw [h] at h'; cases h'; rw [← hc, hc']
    | node c' l r => obtain ⟨n', a, b, h', -⟩ := h'; rw [h] at h'; cases h'
  | node c l r ihl ihr =>
    intro u i h h'
    obtain ⟨n, a, b, h, hc, hl, hr⟩ := h
    cases u with
    | leaf s' c' => obtain ⟨n', h', -⟩ := h'; rw [h] at h'; cases h'
    | node c' l' r' =>
      obtain ⟨n', a', b', h', hc', hl', hr'⟩ := h'
      rw [h] at h'; cases h'
      rw [← hc, hc', ihl hl hl', ihr hr hr']

theorem HTree.leaves_pos (t : HTree) : 0 < t.leaves := by
  induction t with
  | leaf s c => exact Nat.one_pos
  | node c l r ihl ihr => rw [HTree.leaves]; omega

/-- Reading one symbol leaves no more bits than there were. -/
theorem HTree.readOne_length :
    ∀ {t : HTree} {bits rest : List Bool} {b : Byte}, t.readOne bits = some (b, rest) → rest.length ≤ bits.length := by
  intro t
  induction t with
  | leaf s c => intro bits rest b h; simp [readOne] at h; rw [h.2]
  | node c l r ihl ihr =>
    intro bits rest b h
    match bits, h with
    | false :: bits, h => have := ihl (by simpa [readOne] using h); simp; omega
    | true :: bits, h => have := ihr (by simpa [readOne] using h); simp; omega

/-- A symbol takes at least one bit (R115, R116). -/
theorem HTree.readSymbol_length {t : HTree} {bits rest : List Bool} {b : Byte} (h : t.readSymbol bits = some (b, rest)) :
    rest.length < bits.length := by
  cases t with
  | leaf s c =>
    match bits, h with
    | false :: bits, h => simp [readSymbol] at h; simp [h.2]
  | node c l r =>
    match bits, h with
    | false :: bits, h => have := readOne_length (t := l) (by simpa [readSymbol, readOne] using h); simp; omega
    | true :: bits, h => have := readOne_length (t := r) (by simpa [readSymbol, readOne] using h); simp; omega

theorem HTree.readAll_cons (t : HTree) (k : Nat) (x : Bool) (bits : List Bool) :
    t.readAll (k + 1) (x :: bits) =
      (t.readSymbol (x :: bits)).bind fun e => (t.readAll k e.2).map fun d => e.1 :: d := by
  rw [readAll]
  · cases t.readSymbol (x :: bits) <;> rfl
  · simp

/-- Enough fuel is enough. -/
theorem HTree.readAll_fuel (t : HTree) :
    ∀ (k : Nat) (bits : List Bool), bits.length ≤ k → t.readAll k bits = t.readAll bits.length bits := by
  intro k
  induction k using Nat.strongRecOn with
  | ind k ih =>
    intro bits hk
    match k, bits, hk with
    | 0, [], _ => rfl
    | _ + 1, [], _ => rfl
    | k + 1, b :: bits, hk =>
      rw [List.length_cons, readAll_cons, readAll_cons]
      cases hr : t.readSymbol (b :: bits) with
      | none => rfl
      | some e =>
        obtain ⟨y, rest⟩ := e
        have hl : rest.length ≤ bits.length := Nat.lt_succ_iff.1 (readSymbol_length hr)
        rw [List.length_cons] at hk
        show (t.readAll k rest).map _ = (t.readAll bits.length rest).map _
        rw [ih k (by omega) rest (by omega), ih bits.length (by omega) rest hl]

/-- The symbols a bit sequence holds (none when it is no whole number of codes). -/
def HTree.read (t : HTree) (bits : List Bool) : Option (List Byte) := t.readAll bits.length bits

@[simp] theorem HTree.read_nil (t : HTree) : t.read [] = some [] := rfl

theorem HTree.read_cons (t : HTree) (x : Bool) (bits : List Bool) :
    t.read (x :: bits) = (t.readSymbol (x :: bits)).bind fun e => (t.read e.2).map fun d => e.1 :: d := by
  rw [read, List.length_cons, readAll_cons]
  cases hr : t.readSymbol (x :: bits) with
  | none => rfl
  | some e =>
    obtain ⟨y, rest⟩ := e
    have := readSymbol_length hr
    simp only [Option.bind_some, read]
    rw [readAll_fuel t bits.length rest (by simpa using this)]

/-- The walk's result in terms of the symbols read (R117). -/
theorem walkResult_eq_ok {t : HTree} {bits : List Bool} {d : List Byte} :
    walkResult t bits = .ok d ↔ t.read bits = some d ∧ d.length = t.count := by
  rw [walkResult, ← HTree.read]
  cases t.read bits with
  | none => simp
  | some e =>
    by_cases h : e.length = t.count
    · simp only [h, if_true, Except.ok.injEq, Option.some.injEq]
      constructor
      · rintro rfl; exact ⟨rfl, h⟩
      · exact And.left
    · simp only [h, if_false, reduceCtorEq, Option.some.injEq, false_iff]
      rintro ⟨rfl, h'⟩; exact h h'

theorem walkResult_error {t : HTree} {bits : List Bool} {e : ErrKind} (h : walkResult t bits = .error e) : e = .corruptTree := by
  rw [walkResult] at h
  split at h
  · cases h; rfl
  · split at h <;> cases h; rfl

/-- The symbols still to come when the walk stands at the node `u` of `t`. -/
def HTree.restFrom (t u : HTree) (bits : List Bool) : Option (List Byte) :=
  (u.readOne bits).bind fun e => (t.read e.2).map fun d => e.1 :: d

/-- The same, where no bit at the root is the end and no bit below it is not. -/
def HTree.remaining (t u : HTree) (atRoot : Bool) (bits : List Bool) : Option (List Byte) :=
  if bits = [] then (if atRoot then some [] else none) else t.restFrom u bits

theorem HTree.remaining_root (c : Nat) (l r : HTree) (bits : List Bool) :
    (HTree.node c l r).remaining (.node c l r) true bits = (HTree.node c l r).read bits := by
  cases bits with
  | nil => rfl
  | cons z bits => rw [read_cons]; rfl

theorem HTree.remaining_below (t : HTree) (c : Nat) (l r : HTree) (bits : List Bool) :
    t.remaining (.node c l r) false bits = t.restFrom (.node c l r) bits := by
  cases bits with
  | nil => rfl
  | cons z bits => rfl

/-- The walk's rounds end in `CorruptTree`, or in a state that the end-of-walk checks reject (R117 (a), (c)). -/
def Walker.fails (root : NodeIdx) (total : NodeCount) (r : Except Halt Walker) : Prop :=
  r = .error (.raise .corruptTree) ∨ ∃ w, r = .ok w ∧ (w.WALK ≠ root ∨ w.EMIT ≠ total)

/-- The walk's rounds end with `n` symbols written in all, the last of them `d`. -/
def Walker.finishes (s : State) (w : Walker) (d : List Byte) (r : Except Halt Walker) : Prop :=
  ∃ w', r = .ok w' ∧ w'.WALK = s.work.ROOT ∧ w'.EMIT.toNat = w.EMIT.toNat + d.length ∧
    w'.out = w.out.writeBytes w.OPTR.toNat d

theorem add_one_toNat {x : BitVec 40} {n : Nat} (h : x.toNat < n) (hn : n < 2 ^ 40) : (x + 1).toNat = x.toNat + 1 := by
  rw [BitVec.toNat_add, show (1 : BitVec 40).toNat = 1 from rfl]; omega

/-- One round below a tree of two leaves or more (R115). -/
theorem Walker.round_inner {s : State} {m : NodeCount} {a b : NodeIdx} {w : Walker} {c : Nat} {l r : HTree} {x : Bool}
    (hu : represents s.work.NODE w.WALK (.node c l r)) (hb : payloadBit s w.BPOS.toNat = .ok x) :
    ∃ i, represents s.work.NODE i (if x then r else l) ∧
      w.round s (.inner m a b) =
        match (if x then r else l) with
        | .leaf y _ =>
          if w.EMIT = m then .error (.raise .corruptTree)
          else .ok { WALK := s.work.ROOT, BPOS := w.BPOS + 1, EMIT := w.EMIT + 1, OPTR := w.OPTR + 1,
                     out := w.out.write w.OPTR.toNat y }
        | .node _ _ _ => .ok { w with BPOS := w.BPOS + 1, WALK := i } := by
  obtain ⟨n, i, j, hn, -, hl, hr⟩ := nodeAt_of_represents_node hu
  refine ⟨if x then j else i, ?_, ?_⟩
  · cases x
    · exact hl
    · exact hr
  · have hv : represents s.work.NODE (if x then j else i) (if x then r else l) := by
      cases x
      · exact hl
      · exact hr
    simp only [Walker.round, hb, bind, Except.bind, Walker.target, hn]
    cases ht : (if x then r else l) with
    | leaf y k =>
      rw [ht] at hv
      obtain ⟨n', hn', -⟩ := nodeAt_of_represents_leaf hv
      simp only [hn', Node.CNT]
      rfl
    | node k u v =>
      rw [ht] at hv
      obtain ⟨n', p, q, hn', -⟩ := nodeAt_of_represents_node hv
      simp only [hn']

/-- The rounds on a tree of two leaves or more. -/
theorem Walker.rounds_inner {s : State} {m : NodeCount} {a b : NodeIdx} {t : HTree} {tc : Nat} {tl tr : HTree}
    (htt : t = .node tc tl tr) (ht : represents s.work.NODE s.work.ROOT t) :
    ∀ (bits : List Bool) {w : Walker} {c : Nat} {l r : HTree}, represents s.work.NODE w.WALK (.node c l r) →
      ((w.WALK = s.work.ROOT ∧ HTree.node c l r = t) ∨ (HTree.node c l r).leaves < t.leaves) →
      w.OPTR = w.EMIT → w.EMIT.toNat ≤ m.toNat → w.BPOS.toNat + bits.length < 2 ^ 40 →
      (∀ j x, bits[j]? = some x → payloadBit s (w.BPOS.toNat + j) = .ok x) →
      (∀ d, t.remaining (.node c l r) (w.WALK = s.work.ROOT) bits = some d → w.EMIT.toNat + d.length = m.toNat →
        Walker.finishes s w d (Walker.rounds s (.inner m a b) bits.length w)) ∧
      ((∀ d, t.remaining (.node c l r) (w.WALK = s.work.ROOT) bits = some d → w.EMIT.toNat + d.length ≠ m.toNat) →
        Walker.fails s.work.ROOT m (Walker.rounds s (.inner m a b) bits.length w)) := by
  intro bits
  induction bits with
  | nil =>
    intro w c l r hu hroot ho hm hp hb
    simp only [HTree.remaining, if_true, List.length_nil, Walker.rounds]
    by_cases hw : w.WALK = s.work.ROOT
    · simp only [hw, decide_true, if_true]
      refine ⟨?_, ?_⟩
      · rintro d hd hn
        cases hd
        exact ⟨w, rfl, hw, by simp, rfl⟩
      · intro h
        exact .inr ⟨w, rfl, .inr fun he => h [] rfl (by simp [he])⟩
    · simp only [hw, decide_false, Bool.false_eq_true, if_false]
      exact ⟨fun d hd => (by cases hd), fun _ => .inr ⟨w, rfl, .inl hw⟩⟩
  | cons x bits ih =>
    intro w c l r hu hroot ho hm hp hb
    rw [List.length_cons] at hp
    have hx := hb 0 x rfl
    rw [Nat.add_zero] at hx
    obtain ⟨i, hi, hround⟩ := Walker.round_inner (m := m) (a := a) (b := b) hu hx
    have hB : (w.BPOS + 1).toNat = w.BPOS.toNat + 1 := add_one_toNat (n := w.BPOS.toNat + 1) (by omega) (by omega)
    have hb' : ∀ j y, bits[j]? = some y → payloadBit s ((w.BPOS + 1).toNat + j) = .ok y := by
      intro j y hy
      have := hb (j + 1) y (by simpa using hy)
      rwa [hB, Nat.add_assoc, Nat.add_comm 1 j]
    have hread : (HTree.node c l r).readOne (x :: bits) = (if x then r else l).readOne bits := by cases x <;> rfl
    have hlv : (if x then r else l).leaves < (HTree.node c l r).leaves := by
      have := l.leaves_pos; have := r.leaves_pos
      cases x <;> simp [HTree.leaves] <;> omega
    simp only [HTree.remaining, reduceCtorEq, if_false, HTree.restFrom, hread, List.length_cons, Walker.rounds]
    generalize (if x then r else l) = v at *
    cases v with
    | leaf y k =>
      simp only at hround
      simp only [HTree.readOne, Option.bind_some]
      by_cases he : w.EMIT = m
      · rw [hround, if_pos he]
        refine ⟨?_, fun _ => .inl rfl⟩
        intro d hd hn
        obtain ⟨d', -, rfl⟩ := Option.map_eq_some_iff.1 hd
        simp [he] at hn
      · rw [hround, if_neg he]
        have hlt : w.EMIT.toNat < m.toNat := lt_of_le_of_ne hm fun h => he (BitVec.eq_of_toNat_eq h)
        have hE : (w.EMIT + 1).toNat = w.EMIT.toNat + 1 := add_one_toNat hlt m.isLt
        subst htt
        have := ih (w := ⟨s.work.ROOT, w.BPOS + 1, w.EMIT + 1, w.OPTR + 1, w.out.write w.OPTR.toNat y⟩) ht (.inl ⟨rfl, rfl⟩)
          (by simp [ho]) (by simp only; omega) (by simp only; omega) hb'
        simp only [decide_true, HTree.remaining_root] at this
        refine ⟨?_, ?_⟩
        · intro d hd hn
          obtain ⟨d', hd', rfl⟩ := Option.map_eq_some_iff.1 hd
          rw [List.length_cons] at hn
          obtain ⟨w', h1, h2, h3, h4⟩ := this.1 d' hd' (by rw [hE]; omega)
          refine ⟨w', h1, h2, ?_, ?_⟩
          · rw [h3]; simp only [hE, List.length_cons]; omega
          · rw [h4]; simp only [Memory.writeBytes]
            rw [ho, hE]
        · intro h
          refine this.2 fun d' hd' hn => h (y :: d') (by rw [hd']; rfl) ?_
          rw [List.length_cons]; simp only [hE] at hn; omega
    | node k vl vr =>
      simp only at hround
      rw [hround]
      have hne : i ≠ s.work.ROOT := by
        rintro rfl
        have := represents_unique hi ht
        rw [← this] at hroot
        rcases hroot with ⟨-, h⟩ | h
        · rw [h] at hlv; omega
        · omega
      have := ih (w := { w with BPOS := w.BPOS + 1, WALK := i }) hi
        (.inr (by rcases hroot with ⟨-, h⟩ | h
                  · rw [← h]; exact hlv
                  · omega))
        ho hm (by simp only; omega) hb'
      simp only [hne, decide_false, HTree.remaining_below, HTree.restFrom] at this
      exact this

/-- The rounds on a one-leaf tree (R116). -/
theorem Walker.rounds_leaf {s : State} {m : NodeCount} {y : Byte} {c : Nat}
    (hr : nodeAt s.work.NODE s.work.ROOT = .ok (.leaf y m)) :
    ∀ (bits : List Bool) {w : Walker}, w.WALK = s.work.ROOT → w.OPTR = w.EMIT → w.EMIT.toNat ≤ m.toNat →
      w.BPOS.toNat + bits.length < 2 ^ 40 → (∀ j x, bits[j]? = some x → payloadBit s (w.BPOS.toNat + j) = .ok x) →
      (∀ d, (HTree.leaf y c).read bits = some d → w.EMIT.toNat + d.length = m.toNat →
        Walker.finishes s w d (Walker.rounds s (.leaf y m) bits.length w)) ∧
      ((∀ d, (HTree.leaf y c).read bits = some d → w.EMIT.toNat + d.length ≠ m.toNat) →
        Walker.fails s.work.ROOT m (Walker.rounds s (.leaf y m) bits.length w)) := by
  intro bits
  induction bits with
  | nil =>
    intro w hw ho hm hp hb
    simp only [List.length_nil, Walker.rounds, HTree.read_nil]
    refine ⟨?_, ?_⟩
    · rintro d hd hn
      cases hd
      exact ⟨w, rfl, hw, by simp, rfl⟩
    · intro h
      exact .inr ⟨w, rfl, .inr fun he => h [] rfl (by simp [he])⟩
  | cons x bits ih =>
    intro w hw ho hm hp hb
    rw [List.length_cons] at hp
    have hx := hb 0 x rfl
    rw [Nat.add_zero] at hx
    have hB : (w.BPOS + 1).toNat = w.BPOS.toNat + 1 := add_one_toNat (n := w.BPOS.toNat + 1) (by omega) (by omega)
    have hb' : ∀ j z, bits[j]? = some z → payloadBit s ((w.BPOS + 1).toNat + j) = .ok z := by
      intro j z hz
      have := hb (j + 1) z (by simpa using hz)
      rwa [hB, Nat.add_assoc, Nat.add_comm 1 j]
    rw [HTree.read_cons]
    simp only [List.length_cons, Walker.rounds]
    cases x with
    | true =>
      have : w.round s (.leaf y m) = .error (.raise .corruptTree) := by
        simp [Walker.round, hx, bind, Except.bind, Walker.target]
      rw [this]
      refine ⟨fun d hd => ?_, fun _ => .inl rfl⟩
      simp [HTree.readSymbol] at hd
    | false =>
      have hround : w.round s (.leaf y m) =
          if w.EMIT = m then .error (.raise .corruptTree)
          else .ok { WALK := s.work.ROOT, BPOS := w.BPOS + 1, EMIT := w.EMIT + 1, OPTR := w.OPTR + 1,
                     out := w.out.write w.OPTR.toNat y } := by
        simp only [Walker.round, hx, bind, Except.bind, Walker.target, hr, Bool.false_eq_true, if_false, Node.CNT]
        rfl
      simp only [HTree.readSymbol, Option.bind_some]
      by_cases he : w.EMIT = m
      · rw [hround, if_pos he]
        refine ⟨?_, fun _ => .inl rfl⟩
        intro d hd hn
        obtain ⟨d', -, rfl⟩ := Option.map_eq_some_iff.1 hd
        simp [he] at hn
      · rw [hround, if_neg he]
        have hlt : w.EMIT.toNat < m.toNat := lt_of_le_of_ne hm fun h => he (BitVec.eq_of_toNat_eq h)
        have hE : (w.EMIT + 1).toNat = w.EMIT.toNat + 1 := add_one_toNat hlt m.isLt
        have := ih (w := ⟨s.work.ROOT, w.BPOS + 1, w.EMIT + 1, w.OPTR + 1, w.out.write w.OPTR.toNat y⟩) rfl
          (by simp [ho]) (by simp only; omega) (by simp only; omega) hb'
        refine ⟨?_, ?_⟩
        · intro d hd hn
          obtain ⟨d', hd', rfl⟩ := Option.map_eq_some_iff.1 hd
          rw [List.length_cons] at hn
          obtain ⟨w', h1, h2, h3, h4⟩ := this.1 d' hd' (by simp only [hE]; omega)
          refine ⟨w', h1, h2, ?_, ?_⟩
          · rw [h3]; simp only [hE, List.length_cons]; omega
          · rw [h4]; simp only [Memory.writeBytes]
            rw [ho, hE]
        · intro h
          refine this.2 fun d' hd' hn => h (y :: d') (by rw [hd']; rfl) ?_
          rw [List.length_cons]; simp only [hE] at hn; omega

/-- TWALK up to its completion, for any tree: the symbols when they are as many as the root counts, else `CorruptTree`. -/
theorem walkPayload_spec {s : State} {t : HTree} {bits : List Bool} (hT : s.work.TREE = true)
    (ht : represents s.work.NODE s.work.ROOT t) (hl : s.work.TBITS.toNat = bits.length)
    (hb : ∀ j x, bits[j]? = some x → payloadBit s j = .ok x) :
    (∀ d, walkResult t bits = .ok d →
      ∃ w, walkPayload s = .ok w ∧ w.EMIT.toNat = d.length ∧ w.out = s.OUT.writeBytes 0 d) ∧
    (∀ e, walkResult t bits = .error e → walkPayload s = .error (.raise .corruptTree)) := by
  have hlt : bits.length < 2 ^ 40 := hl ▸ s.work.TBITS.isLt
  have key : ∃ (root : Node), nodeAt s.work.NODE s.work.ROOT = .ok root ∧ root.CNT.toNat = t.count ∧
      (∀ d, t.read bits = some d → d.length = t.count →
        Walker.finishes s (Walker.start s) d (Walker.rounds s root bits.length (Walker.start s))) ∧
      ((∀ d, t.read bits = some d → d.length ≠ t.count) →
        Walker.fails s.work.ROOT root.CNT (Walker.rounds s root bits.length (Walker.start s))) := by
    cases t with
    | leaf y c =>
      obtain ⟨m, hm, hc⟩ := nodeAt_of_represents_leaf ht
      have := Walker.rounds_leaf (c := c) hm bits (w := Walker.start s) rfl rfl (by simp [Walker.start])
        (by simpa [Walker.start] using hlt) (by simpa [Walker.start] using hb)
      refine ⟨_, hm, hc, ?_, ?_⟩
      · intro d hd hn
        exact this.1 d hd (by simpa [Walker.start, hc, HTree.count] using hn)
      · intro h
        exact this.2 fun d hd hn => h d hd (by simpa [Walker.start, hc, HTree.count] using hn)
    | node c l r =>
      obtain ⟨m, a, b, hm, hc, -, -⟩ := nodeAt_of_represents_node ht
      have := Walker.rounds_inner (m := m) (a := a) (b := b) rfl ht bits (w := Walker.start s) ht (.inl ⟨rfl, rfl⟩) rfl
        (by simp [Walker.start]) (by simpa [Walker.start] using hlt) (by simpa [Walker.start] using hb)
      rw [show (decide ((Walker.start s).WALK = s.work.ROOT)) = true from decide_eq_true rfl] at this
      simp only [HTree.remaining_root] at this
      refine ⟨_, hm, hc, ?_, ?_⟩
      · intro d hd hn
        exact this.1 d hd (by simpa [Walker.start, hc, HTree.count] using hn)
      · intro h
        exact this.2 fun d hd hn => h d hd (by simpa [Walker.start, hc, HTree.count] using hn)
  obtain ⟨root, hroot, hcnt, hok, hbad⟩ := key
  have hwp : walkPayload s = (Walker.rounds s root bits.length (Walker.start s)).bind fun w =>
      if w.WALK ≠ s.work.ROOT then .error (.raise .corruptTree)
      else if w.EMIT ≠ root.CNT then .error (.raise .corruptTree) else .ok w := by
    simp only [walkPayload, hT, if_true, hroot, hl, bind, Except.bind]
  refine ⟨?_, ?_⟩
  · intro d hd
    obtain ⟨hr, hc⟩ := walkResult_eq_ok.1 hd
    obtain ⟨w, h1, h2, h3, h4⟩ := hok d hr hc
    have hE : w.EMIT.toNat = d.length := by simpa [Walker.start] using h3
    refine ⟨w, ?_, hE, by simpa [Walker.start] using h4⟩
    have : w.EMIT = root.CNT := BitVec.eq_of_toNat_eq (by rw [hE, hcnt, hc])
    rw [hwp, h1]
    simp [Except.bind, h2, this]
  · intro e he
    have : ∀ d, t.read bits = some d → d.length ≠ t.count := by
      intro d hd hc
      rw [walkResult_eq_ok.2 ⟨hd, hc⟩] at he
      cases he
    rw [hwp]
    rcases hbad this with h | ⟨w, h, h' | h'⟩
    · rw [h]; rfl
    · rw [h]; simp [Except.bind, h']
    · rw [h]
      by_cases hw : w.WALK = s.work.ROOT
      · simp [Except.bind, hw, h']
      · simp [Except.bind, hw]

/-! ## Codes and the walk -/

/-- Following the path to a leaf reads its symbol. -/
theorem HTree.readOne_path :
    ∀ {t : HTree} {b : Byte} {p : List Bool} (rest : List Bool), (b, p) ∈ t.paths → t.readOne (p ++ rest) = some (b, rest) := by
  intro t
  induction t with
  | leaf s c => intro b p rest h; simp [paths] at h; simp [readOne, h]
  | node c l r ihl ihr =>
    intro b p rest h
    simp only [paths, List.mem_append, List.mem_map, Prod.mk.injEq, Prod.exists] at h
    rcases h with ⟨x, q, hq, rfl, rfl⟩ | ⟨x, q, hq, rfl, rfl⟩
    · exact ihl rest hq
    · exact ihr rest hq

/-- What is read is the path to the symbol read. -/
theorem HTree.path_of_readOne :
    ∀ {t : HTree} {b : Byte} {bits rest : List Bool}, t.readOne bits = some (b, rest) →
      ∃ p, (b, p) ∈ t.paths ∧ bits = p ++ rest := by
  intro t
  induction t with
  | leaf s c => intro b bits rest h; simp [readOne] at h; exact ⟨[], by simp [paths, h]⟩
  | node c l r ihl ihr =>
    intro b bits rest h
    match bits, h with
    | false :: bits, h =>
      obtain ⟨p, hp, rfl⟩ := ihl (by simpa [readOne] using h)
      exact ⟨false :: p, by simpa [paths] using hp, rfl⟩
    | true :: bits, h =>
      obtain ⟨p, hp, rfl⟩ := ihr (by simpa [readOne] using h)
      exact ⟨true :: p, by simpa [paths] using hp, rfl⟩

/-- TWALK reads a code as its symbol (R115, R116). -/
theorem HTree.readSymbol_code {t : HTree} {b : Byte} {p : List Bool} (rest : List Bool) (h : (b, p) ∈ t.codes) :
    t.readSymbol (p ++ rest) = some (b, rest) := by
  cases t with
  | leaf s c => simp [codes] at h; simp [h.1, h.2, readSymbol]
  | node c l r => exact readOne_path rest h

/-- What TWALK reads as a symbol is its code. -/
theorem HTree.code_of_readSymbol {t : HTree} {b : Byte} {bits rest : List Bool} (h : t.readSymbol bits = some (b, rest)) :
    ∃ p, (b, p) ∈ t.codes ∧ bits = p ++ rest := by
  cases t with
  | leaf s c =>
    match bits, h with
    | false :: bits, h => simp [readSymbol] at h; exact ⟨[false], by simp [codes, h]⟩
  | node c l r => exact path_of_readOne h

/-- Reading goes on where it stopped. -/
theorem HTree.read_append (t : HTree) :
    ∀ {d : List Byte} {bits : List Bool} (more : List Bool), t.read bits = some d →
      t.read (bits ++ more) = (t.read more).map fun e => d ++ e := by
  intro d
  induction d with
  | nil =>
    intro bits more h
    cases bits with
    | nil => simp
    | cons x bits =>
      rw [read_cons] at h
      obtain ⟨⟨y, rest⟩, -, h⟩ := Option.bind_eq_some_iff.1 h
      obtain ⟨d', -, h⟩ := Option.map_eq_some_iff.1 h
      cases h
  | cons y d ih =>
    intro bits more h
    cases bits with
    | nil => cases h
    | cons x bits =>
      rw [read_cons] at h
      obtain ⟨⟨y', rest⟩, hs, h⟩ := Option.bind_eq_some_iff.1 h
      obtain ⟨d', hd', h⟩ := Option.map_eq_some_iff.1 h
      cases h
      obtain ⟨p, hp, hb⟩ := code_of_readSymbol hs
      have := readSymbol_code (rest ++ more) hp
      rw [← List.append_assoc, ← hb] at this
      rw [List.cons_append, read_cons, ← List.cons_append, this, Option.bind_some]
      simp only
      rw [ih more hd']
      cases t.read more <;> rfl

/-- Reading the codes of a byte sequence gives that byte sequence (R118). -/
theorem HTree.read_codeBits {t : HTree} :
    ∀ {d : List Byte}, (∀ b ∈ d, t.codeOf b ≠ none) → t.read (codeBits t d) = some d := by
  intro d
  induction d with
  | nil => intro _; rfl
  | cons b d ih =>
    intro h
    obtain ⟨p, hp⟩ := Option.ne_none_iff_exists'.1 (h b (by simp))
    have hm := mem_of_lookup hp
    have : t.read p = some [b] := by
      have hs := readSymbol_code [] hm
      rw [List.append_nil] at hs
      cases p with
      | nil => cases t <;> simp [codes] at hm; simp [readSymbol, readOne] at hs
      | cons x p => rw [read_cons, hs]; rfl
    have hc : codeBits t (b :: d) = p ++ codeBits t d := by simp [codeBits, hp]
    rw [hc, t.read_append _ this, ih fun b hb => h b (by simp [hb])]
    rfl

/-- The bits read are the codes of the symbols read, when no symbol has two leaves (R130). -/
theorem HTree.codeBits_of_read {t : HTree} (hn : (t.paths.map Prod.fst).Nodup) :
    ∀ {d : List Byte} {bits : List Bool}, t.read bits = some d → codeBits t d = bits := by
  intro d
  induction d with
  | nil =>
    intro bits h
    cases bits with
    | nil => rfl
    | cons x bits =>
      rw [read_cons] at h
      obtain ⟨⟨y, rest⟩, -, h⟩ := Option.bind_eq_some_iff.1 h
      obtain ⟨d', -, h⟩ := Option.map_eq_some_iff.1 h
      cases h
  | cons y d ih =>
    intro bits h
    cases bits with
    | nil => cases h
    | cons x bits =>
      rw [read_cons] at h
      obtain ⟨⟨y', rest⟩, hs, h⟩ := Option.bind_eq_some_iff.1 h
      obtain ⟨d', hd', h⟩ := Option.map_eq_some_iff.1 h
      cases h
      obtain ⟨p, hp, hb⟩ := code_of_readSymbol hs
      have hl : t.codeOf y' = some p := lookup_of_mem (by rwa [codes_fst]) hp
      have hc : codeBits t (y' :: d) = p ++ codeBits t d := by simp [codeBits, hl]
      rw [hc, ih hd', hb]

/-- A proper beginning of the codes of a byte sequence holds fewer symbols, when it holds a whole number (R129). -/
theorem HTree.read_cut {t : HTree} {d e : List Byte} {bits more : List Bool} (h : t.read (bits ++ more) = some d)
    (hm : more ≠ []) (he : t.read bits = some e) : e.length < d.length := by
  rw [t.read_append more he] at h
  obtain ⟨f, hf, rfl⟩ := Option.map_eq_some_iff.1 h
  cases f with
  | nil =>
    cases more with
    | nil => exact absurd rfl hm
    | cons x more =>
      rw [read_cons] at hf
      obtain ⟨⟨y, rest⟩, -, hf⟩ := Option.bind_eq_some_iff.1 hf
      obtain ⟨d', -, hf⟩ := Option.map_eq_some_iff.1 hf
      cases hf
  | cons y f => simp

/-! ## Where the walk reads -/

/-- Rounds can be cut anywhere. -/
theorem Walker.rounds_add (s : State) (n : Node) (k m : Nat) (w : Walker) :
    Walker.rounds s n (k + m) w = (Walker.rounds s n k w).bind (Walker.rounds s n m) := by
  induction k generalizing w with
  | zero => rw [Nat.zero_add]; rfl
  | succ k ih =>
    rw [show k + 1 + m = k + m + 1 by omega, Walker.rounds, Walker.rounds]
    cases w.round s n with
    | error h => rfl
    | ok w' => exact ih w'

/-- A round whose bit lies in a byte the host has not written faults (U15). -/
theorem Walker.round_fault {s : State} {w : Walker} (n : Node)
    (h : s.IN.read (payloadAddr s.work.HLEN + w.BPOS.toNat / 8) = none) :
    w.round s n = .error (.fault (.unwrittenInput (payloadAddr s.work.HLEN + w.BPOS.toNat / 8))) := by
  simp only [Walker.round, payloadBit, memRead1, h, bind, Except.bind]

/-- The rounds over the beginning of codes of at most as many symbols as are still to come all go on, on a tree of two
leaves or more. -/
theorem Walker.rounds_prefix_inner {s : State} {m : NodeCount} {a b : NodeIdx} {t : HTree} {tc : Nat} {tl tr : HTree}
    (htt : t = .node tc tl tr) (ht : represents s.work.NODE s.work.ROOT t) {more : List Bool} :
    ∀ (bits : List Bool) {w : Walker} {c : Nat} {l r : HTree} {d : List Byte}, represents s.work.NODE w.WALK (.node c l r) →
      ((w.WALK = s.work.ROOT ∧ HTree.node c l r = t) ∨ (HTree.node c l r).leaves < t.leaves) →
      t.remaining (.node c l r) (w.WALK = s.work.ROOT) (bits ++ more) = some d → w.EMIT.toNat + d.length ≤ m.toNat →
      w.BPOS.toNat + bits.length < 2 ^ 40 → (∀ j x, bits[j]? = some x → payloadBit s (w.BPOS.toNat + j) = .ok x) →
      ∃ w', Walker.rounds s (.inner m a b) bits.length w = .ok w' ∧ w'.BPOS.toNat = w.BPOS.toNat + bits.length := by
  intro bits
  induction bits with
  | nil => intro w c l r d _ _ _ _ _ _; exact ⟨w, rfl, rfl⟩
  | cons x bits ih =>
    intro w c l r d hu hroot hd hm hp hb
    rw [List.length_cons] at hp
    have hx := hb 0 x rfl
    rw [Nat.add_zero] at hx
    obtain ⟨i, hi, hround⟩ := Walker.round_inner (m := m) (a := a) (b := b) hu hx
    have hB : (w.BPOS + 1).toNat = w.BPOS.toNat + 1 := add_one_toNat (n := w.BPOS.toNat + 1) (by omega) (by omega)
    have hb' : ∀ j y, bits[j]? = some y → payloadBit s ((w.BPOS + 1).toNat + j) = .ok y := by
      intro j y hy
      have := hb (j + 1) y (by simpa using hy)
      rwa [hB, Nat.add_assoc, Nat.add_comm 1 j]
    have hread : (HTree.node c l r).readOne (x :: (bits ++ more)) = (if x then r else l).readOne (bits ++ more) := by
      cases x <;> rfl
    have hlv : (if x then r else l).leaves < (HTree.node c l r).leaves := by
      have := l.leaves_pos; have := r.leaves_pos
      cases x <;> simp [HTree.leaves] <;> omega
    simp only [List.cons_append, HTree.remaining, reduceCtorEq, if_false, HTree.restFrom, hread] at hd
    simp only [List.length_cons, Walker.rounds]
    generalize (if x then r else l) = v at *
    cases v with
    | leaf y k =>
      simp only at hround
      simp only [HTree.readOne, Option.bind_some] at hd
      obtain ⟨d', hd', rfl⟩ := Option.map_eq_some_iff.1 hd
      rw [List.length_cons] at hm
      have he : w.EMIT ≠ m := by rintro rfl; omega
      have hE : (w.EMIT + 1).toNat = w.EMIT.toNat + 1 := add_one_toNat (n := m.toNat) (by omega) m.isLt
      rw [hround, if_neg he]
      subst htt
      obtain ⟨w', h1, h2⟩ := ih (w := ⟨s.work.ROOT, w.BPOS + 1, w.EMIT + 1, w.OPTR + 1, w.out.write w.OPTR.toNat y⟩)
        (d := d') ht (.inl ⟨rfl, rfl⟩) (by simpa only [decide_true, HTree.remaining_root] using hd')
        (by simp only [hE]; omega) (by simp only [hB]; omega) hb'
      exact ⟨w', h1, by rw [h2]; simp only [hB]; omega⟩
    | node k vl vr =>
      simp only at hround
      rw [hround]
      have hne : i ≠ s.work.ROOT := by
        rintro rfl
        have := represents_unique hi ht
        rw [← this] at hroot
        rcases hroot with ⟨-, h⟩ | h
        · rw [h] at hlv; omega
        · omega
      obtain ⟨w', h1, h2⟩ := ih (w := { w with BPOS := w.BPOS + 1, WALK := i }) (d := d) hi
        (.inr (by rcases hroot with ⟨-, h⟩ | h
                  · rw [← h]; exact hlv
                  · omega))
        (by simpa only [hne, decide_false, HTree.remaining_below, HTree.restFrom] using hd) hm (by simp only [hB]; omega) hb'
      exact ⟨w', h1, by rw [h2]; simp only [hB]; omega⟩

/-- The same on a one-leaf tree, where every code is one bit 0. -/
theorem Walker.rounds_prefix_leaf {s : State} {m : NodeCount} {y : Byte} (hr : nodeAt s.work.NODE s.work.ROOT = .ok (.leaf y m)) :
    ∀ (n : Nat) {w : Walker}, w.EMIT.toNat + n ≤ m.toNat → w.BPOS.toNat + n < 2 ^ 40 →
      (∀ j, j < n → payloadBit s (w.BPOS.toNat + j) = .ok false) →
      ∃ w', Walker.rounds s (.leaf y m) n w = .ok w' ∧ w'.BPOS.toNat = w.BPOS.toNat + n := by
  intro n
  induction n with
  | zero => intro w _ _ _; exact ⟨w, rfl, rfl⟩
  | succ n ih =>
    intro w hm hp hb
    have hx := hb 0 (by omega)
    rw [Nat.add_zero] at hx
    have hB : (w.BPOS + 1).toNat = w.BPOS.toNat + 1 := add_one_toNat (n := w.BPOS.toNat + 1) (by omega) (by omega)
    have he : w.EMIT ≠ m := by rintro rfl; omega
    have hE : (w.EMIT + 1).toNat = w.EMIT.toNat + 1 := add_one_toNat (n := m.toNat) (by omega) m.isLt
    have hround : w.round s (.leaf y m) =
        .ok ⟨s.work.ROOT, w.BPOS + 1, w.EMIT + 1, w.OPTR + 1, w.out.write w.OPTR.toNat y⟩ := by
      simp only [Walker.round, hx, bind, Except.bind, Walker.target, hr, Bool.false_eq_true, if_false, Node.CNT]
      exact if_neg he
    obtain ⟨w', h1, h2⟩ := ih (w := ⟨s.work.ROOT, w.BPOS + 1, w.EMIT + 1, w.OPTR + 1, w.out.write w.OPTR.toNat y⟩)
      (by simp only [hE]; omega) (by simp only [hB]; omega) (fun j hj => by
        have := hb (j + 1) (by omega)
        rwa [show w.BPOS.toNat + (j + 1) = (w.BPOS + 1).toNat + j by rw [hB]; omega] at this)
    exact ⟨w', by rw [Walker.rounds, hround]; exact h1, by rw [h2]; simp only [hB]; omega⟩

/-- The codes of a one-leaf tree's symbols are bits 0. -/
theorem HTree.codeBits_leaf {y : Byte} {c : Nat} {d : List Byte} (h : ∀ b ∈ d, (HTree.leaf y c).codeOf b ≠ none) :
    codeBits (.leaf y c) d = List.replicate d.length false := by
  induction d with
  | nil => rfl
  | cons b d ih =>
    obtain ⟨p, hp⟩ := Option.ne_none_iff_exists'.1 (h b (by simp))
    have hm := mem_of_lookup hp
    simp only [codes, List.mem_singleton, Prod.mk.injEq] at hm
    have := ih fun x hx => h x (by simp [hx])
    rw [codeBits] at this ⊢
    rw [List.flatMap_cons, hp, this, hm.2]
    rfl

/-- TWALK faults at a payload byte that the host has not written, when the bits before it begin codes of at most as many
symbols as the root counts (U15). -/
theorem walkPayload_fault {s : State} {t : HTree} {d : List Byte} {bits : List Bool} (hT : s.work.TREE = true)
    (ht : represents s.work.NODE s.work.ROOT t) (hd : ∀ b ∈ d, t.codeOf b ≠ none) (hc : d.length ≤ t.count)
    (hp : bits <+: codeBits t d) (hl : bits.length < s.work.TBITS.toNat)
    (hb : ∀ j x, bits[j]? = some x → payloadBit s j = .ok x)
    (h : s.IN.read (payloadAddr s.work.HLEN + bits.length / 8) = none) :
    walkPayload s = .error (.fault (.unwrittenInput (payloadAddr s.work.HLEN + bits.length / 8))) := by
  have hlt : bits.length < 2 ^ 40 := hl.trans s.work.TBITS.isLt
  obtain ⟨more, hmore⟩ := hp
  obtain ⟨root, hroot, w', hw, hpos⟩ : ∃ root, nodeAt s.work.NODE s.work.ROOT = .ok root ∧
      ∃ w', Walker.rounds s root bits.length (Walker.start s) = .ok w' ∧ w'.BPOS.toNat = bits.length := by
    cases t with
    | leaf y c =>
      obtain ⟨m, hm, hcm⟩ := nodeAt_of_represents_leaf ht
      rw [HTree.codeBits_leaf hd] at hmore
      have hlen := congrArg List.length hmore
      rw [List.length_append, List.length_replicate] at hlen
      obtain ⟨w', h1, h2⟩ := Walker.rounds_prefix_leaf hm bits.length (w := Walker.start s)
        (by simp only [Walker.start, HTree.count] at hc ⊢; rw [hcm]; simpa using by omega) (by simpa [Walker.start] using hlt)
        (fun j hj => by
          have hz : bits[j]? = some false := by
            have := congrArg (fun l => l[j]?) hmore
            simp only [List.getElem?_append_left hj, List.getElem?_replicate] at this
            rw [this, if_pos (by omega)]
          simpa [Walker.start] using hb j false hz)
      exact ⟨_, hm, w', h1, by simpa [Walker.start] using h2⟩
    | node c l r =>
      obtain ⟨m, a, b, hm, hcm, -, -⟩ := nodeAt_of_represents_node ht
      have hread := HTree.read_codeBits hd
      rw [← hmore] at hread
      obtain ⟨w', h1, h2⟩ := Walker.rounds_prefix_inner (m := m) (a := a) (b := b) (more := more) rfl ht bits
        (w := Walker.start s) (d := d) ht (.inl ⟨rfl, rfl⟩)
        (by rw [show (decide ((Walker.start s).WALK = s.work.ROOT)) = true from decide_eq_true rfl, HTree.remaining_root]
            exact hread)
        (by simpa [Walker.start, hcm, HTree.count] using hc) (by simpa [Walker.start] using hlt)
        (by simpa [Walker.start] using hb)
      exact ⟨_, hm, w', h1, by simpa [Walker.start] using h2⟩
  obtain ⟨k, hk⟩ : ∃ k, s.work.TBITS.toNat = bits.length + (k + 1) := ⟨s.work.TBITS.toNat - bits.length - 1, by omega⟩
  have hround : w'.round s root = .error (.fault (.unwrittenInput (payloadAddr s.work.HLEN + bits.length / 8))) := by
    rw [← hpos] at h ⊢
    exact Walker.round_fault root h
  simp only [walkPayload, hT, if_true, hroot, hk, bind, Except.bind, Walker.rounds_add, hw, Walker.rounds, hround]

end Sys2Proof.Machine
end

