-- ==== Sys2Proof/Laws/FreqCodec.lean ====
section
/-! SUPPORT. The header: what FTSER writes, and what FTDES reads (R100 to R108). -/

namespace Sys2Proof.Machine

theorem read_memWrite (m : Memory) (a n v x : Nat) :
    (memWrite m a n v).read x = if a ≤ x ∧ x < a + n then (beBytes n v)[x - a]? else m.read x := by
  rw [memWrite, read_writeBytes, beBytes_length]

/-- One entry of the header as bytes (R66). -/
def entryBytes (e : Byte × Nat) : List Byte := e.1 :: beBytes 4 e.2

@[simp] theorem entryBytes_length (e : Byte × Nat) : (entryBytes e).length = 5 := by simp [entryBytes]

theorem flatMap_entryBytes_length (es : List (Byte × Nat)) : (es.flatMap entryBytes).length = 5 * es.length := by
  induction es with
  | nil => rfl
  | cons e es ih => rw [List.flatMap_cons, List.length_append, ih, entryBytes_length, List.length_cons]; omega

theorem headerBytes_eq (es : List (Byte × Nat)) : headerBytes es = beBytes 2 es.length ++ es.flatMap entryBytes := rfl

theorem headerBytes_length (es : List (Byte × Nat)) : (headerBytes es).length = hdrBytes es.length := by
  rw [headerBytes_eq, List.length_append, beBytes_length, flatMap_entryBytes_length, hdrBytes]

/-- The entries as FTSER leaves them (R101). -/
theorem read_writeEntries (es : List (Byte × Count)) :
    ∀ (m : Memory) (o x : Nat), (writeEntries m o es).read x =
      if o ≤ x ∧ x < o + 5 * es.length then ((es.map fun e => (e.1, e.2.toNat)).flatMap entryBytes)[x - o]? else m.read x := by
  induction es with
  | nil => intro m o x; rw [if_neg (by simp)]; rfl
  | cons e es ih =>
    intro m o x
    obtain ⟨s, c⟩ := e
    have hs : beBytes 1 s.toNat = [s] := by simp [beBytes]
    rw [writeEntries, ih, read_memWrite, read_memWrite, hs, List.map_cons, List.flatMap_cons, List.length_cons]
    by_cases h1 : o + 5 ≤ x ∧ x < o + 5 + 5 * es.length
    · rw [if_pos h1, if_pos (by omega), List.getElem?_append_right (by rw [entryBytes_length]; omega), entryBytes_length]
      congr 1
    · rw [if_neg h1]
      by_cases h2 : o + 1 ≤ x ∧ x < o + 1 + 4
      · rw [if_pos h2, if_pos (by omega), List.getElem?_append_left (by rw [entryBytes_length]; omega), entryBytes,
          show x - o = (x - (o + 1)) + 1 by omega, List.getElem?_cons_succ]
      · rw [if_neg h2]
        by_cases h3 : o ≤ x ∧ x < o + 1
        · rw [if_pos h3, if_pos (by omega), show x - o = 0 by omega]; rfl
        · rw [if_neg h3, if_neg (by omega)]

/-- The header as FTSER leaves it (R100, R101). -/
theorem read_writeHeader {m : Memory} {nsym : BitVec 9} {f : FreqTable} (h : nsym.toNat = f.present.length) (x : Nat) :
    (writeHeader m nsym f).read x =
      if 1 ≤ x ∧ x < 1 + hdrBytes f.present.length then (headerBytes (f.present.map fun e => (e.1, e.2.toNat)))[x - 1]?
      else m.read x := by
  rw [writeHeader, read_writeEntries, read_memWrite, headerBytes_eq, List.length_map, h, hdrBytes, entryAddr]
  by_cases h1 : 3 + 5 * 0 ≤ x ∧ x < 3 + 5 * 0 + 5 * f.present.length
  · rw [if_pos h1, if_pos (by omega), List.getElem?_append_right (by rw [beBytes_length]; omega), beBytes_length]
    congr 1
  · rw [if_neg h1]
    by_cases h2 : 1 ≤ x ∧ x < 1 + 2
    · rw [if_pos h2, if_pos (by omega), List.getElem?_append_left (by rw [beBytes_length]; omega)]
    · rw [if_neg h2, if_neg (by omega)]

/-- `IN` agrees with `k` from address `a` up to but not including `b`. -/
def Memory.agrees (m : Memory) (k : List Byte) (a b : Nat) : Prop := ∀ i, a ≤ i → i < b → m.read i = k[i]?

theorem agrees_of_holds {m : Memory} {k : List Byte} (h : m.holds k) (a : Nat) : m.agrees k a k.length := fun i _ hi => h i hi

/-- A run of bytes that `IN` agrees on, as the core reads it. -/
theorem memReadBytes_of_agrees {s : State} {k : List Byte} {a n : Nat} (h : s.IN.agrees k a (a + n)) (hl : a + n ≤ k.length) :
    memReadBytes s a n = .ok ((k.drop a).take n) := by
  refine memReadBytes_eq_ok.2 ⟨by rw [List.length_take, List.length_drop]; omega, ?_⟩
  intro i hi
  rw [List.getElem?_take, if_pos hi, List.getElem?_drop]
  exact h (a + i) (by omega) (by omega)

theorem memRead_of_agrees {s : State} {k : List Byte} {a n : Nat} (h : s.IN.agrees k a (a + n)) (hl : a + n ≤ k.length) :
    memRead s a n = .ok (beNat ((k.drop a).take n)) :=
  memRead_eq_ok.2 ⟨_, memReadBytes_of_agrees h hl, rfl⟩

theorem memRead1_of_agrees {s : State} {k : List Byte} {a : Nat} (h : s.IN.agrees k a (a + 1)) (hl : a < k.length) :
    memRead1 s a = .ok (k.getD a 0) := by
  rw [memRead1_eq_ok, h a (le_refl _) (by omega), List.getD_eq_getElem?_getD, List.getElem?_eq_getElem hl]
  rfl

/-- The whole input. -/
theorem inputBytes_of_runsOn {s : State} {d : List Byte} (h : s.runsOn d) : inputBytes s = .ok d := by
  unfold inputBytes
  rw [h.2]
  exact memReadBytes_eq_ok.2 ⟨rfl, fun i hi => by simpa using h.1 i hi⟩

/-- FTDES's table after reading entries with distinct symbols, none of them present before; in every other case it ends in
`InvalidEntryCount` (R104). -/
def tableOf (f : FreqTable) (es : List (Byte × Nat)) : FreqTable := es.foldl (fun f e => f.put e.1 (BitVec.ofNat 32 e.2)) f

theorem get_tableOf (es : List (Byte × Nat)) :
    ∀ (f : FreqTable), (es.map Prod.fst).Nodup → ∀ b,
      (tableOf f es).get b = ((es.lookup b).map (BitVec.ofNat 32)).or (f.get b) := by
  induction es with
  | nil => intro f _ b; simp [tableOf]
  | cons e es ih =>
    intro f hn b
    rw [List.map_cons, List.nodup_cons] at hn
    rw [tableOf, List.foldl_cons]
    have := ih (f.put e.1 (BitVec.ofNat 32 e.2)) hn.2 b
    rw [tableOf] at this
    obtain ⟨x, c⟩ := e
    rw [this, FreqTable.get_put, List.lookup_cons]
    by_cases hb : x = b
    · subst hb
      rw [lookup_eq_none_of_not_mem hn.1, beq_self_eq_true]
      simp
    · rw [if_neg hb, beq_false_of_ne (Ne.symm hb)]

theorem readEntries_spec {s : State} {k : List Byte} :
    ∀ (n i : Nat) (f : FreqTable), entryAddr (i + n) ≤ k.length → s.IN.agrees k (entryAddr i) (entryAddr (i + n)) →
      readEntries s n i f =
        if (∀ j, j < n → f.get (headerEntry k (i + j)).1 = none) ∧
            ((List.range n).map fun j => (headerEntry k (i + j)).1).Nodup
        then .ok (tableOf f ((List.range n).map fun j => headerEntry k (i + j)))
        else .error (.raise .invalidEntryCount) := by
  intro n
  induction n with
  | zero => intro i f _ _; simp [readEntries, tableOf]
  | succ n ih =>
    intro i f hl h
    simp only [entryAddr] at hl h
    have e1 : memRead1 s (entryAddr i) = .ok (headerEntry k i).1 :=
      memRead1_of_agrees (fun j h1 h2 => h j (by simp only [entryAddr] at h1; omega) (by simp only [entryAddr] at h2; omega))
        (by simp only [entryAddr]; omega)
    have e2 : memRead s (entryAddr i + 1) 4 = .ok (headerEntry k i).2 :=
      memRead_of_agrees (fun j h1 h2 => h j (by simp only [entryAddr] at h1; omega) (by simp only [entryAddr] at h2; omega))
        (by simp only [entryAddr]; omega)
    have shift : ∀ j, i + (j + 1) = i + 1 + j := fun j => by omega
    simp only [readEntries, e1, e2, bind, Except.bind]
    have hmap : ∀ {α : Type} (g : Nat → α), (List.range (n + 1)).map (fun j => g (i + j)) =
        g i :: (List.range n).map fun j => g (i + 1 + j) := by
      intro α g
      rw [List.range_succ_eq_map, List.map_cons, List.map_map, Nat.add_zero]
      congr 1
      apply List.map_congr_left
      intro j _
      rw [Function.comp_apply, Nat.succ_eq_add_one, shift]
    rw [hmap (fun x => (headerEntry k x).1), hmap (headerEntry k)]
    cases hf : f.get (headerEntry k i).1 with
    | some c =>
      simp only
      rw [if_neg]
      rintro ⟨hall, -⟩
      have := hall 0 (by omega)
      rw [Nat.add_zero, hf] at this
      cases this
    | none =>
      simp only
      rw [ih (i + 1) _ (by simp only [entryAddr]; omega) fun j h1 h2 =>
        h j (by simp only [entryAddr] at h1; omega) (by simp only [entryAddr] at h2; omega)]
      simp only [FreqTable.get_put, List.nodup_cons, List.mem_map, List.mem_range, not_exists, not_and, tableOf,
        List.foldl_cons]
      congr 1
      apply propext
      constructor
      · rintro ⟨hall, hn⟩
        refine ⟨?_, ?_, hn⟩
        · intro j hj
          cases j with
          | zero => simpa using hf
          | succ j =>
            have := hall j (by omega)
            rw [shift]
            split at this
            · cases this
            · exact this
        · intro j hj he
          have := hall j hj
          rw [if_pos he.symm] at this
          cases this
      · rintro ⟨hall, hx, hn⟩
        refine ⟨?_, hn⟩
        intro j hj
        rw [if_neg fun he => hx j hj he.symm]
        have := hall (j + 1) (by omega)
        rwa [shift] at this

/-- FTDES on a container, all cases (R104, R106). It looks at the header's bytes only. -/
theorem readHeader_spec {s : State} {k : List Byte} {n : Nat} (hL : s.work.LEN.toNat = k.length)
    (hn : n = beNat ((k.drop 1).take 2)) (h : s.IN.agrees k 1 (min (1 + hdrBytes n) k.length)) :
    readHeader s =
      if k.length < 3 ∨ k.length - 1 < hdrBytes n then .error (.raise .truncatedHeader)
      else if n = 0 ∨ ¬ ((headerEntries k n).map Prod.fst).Nodup then .error (.raise .invalidEntryCount)
      else .ok { s.work with
        N16 := BitVec.ofNat 16 n, HLEN := BitVec.ofNat 19 (hdrBytes n), FREQ := tableOf FreqTable.clear (headerEntries k n) } := by
  unfold readHeader
  rw [hL]
  simp only
  have hh : hdrBytes n = 2 + 5 * n := rfl
  by_cases h3 : k.length < 3
  · rw [if_pos (by omega), if_pos (.inl h3)]
  · rw [if_neg (by omega), memRead_of_agrees (fun j h1 h2 => h j h1 (by omega)) (by omega), ← hn]
    simp only [bind, Except.bind, pure, Except.pure]
    by_cases h4 : k.length - 1 < hdrBytes n
    · rw [if_pos h4, if_pos (.inr h4)]
    · rw [if_neg h4, if_neg (show ¬ (k.length < 3 ∨ k.length - 1 < hdrBytes n) by omega)]
      by_cases h0 : n = 0
      · rw [if_pos h0, if_pos (.inl h0)]
      · rw [if_neg h0, readEntries_spec n 0 _ (by simp only [entryAddr]; omega) (fun j h1 h2 =>
          h j (by simp only [entryAddr] at h1; omega) (by simp only [entryAddr] at h2; omega))]
        simp only [FreqTable.get_clear, implies_true, true_and, Nat.zero_add]
        rw [show ((List.range n).map fun j => (headerEntry k j).1) = (headerEntries k n).map Prod.fst by
          simp [headerEntries, Function.comp_def]]
        by_cases hn : ((headerEntries k n).map Prod.fst).Nodup
        · rw [if_pos hn, if_neg (by simp [h0, hn])]; rfl
        · rw [if_neg hn, if_pos (.inr hn)]

theorem beNat2_lt (k : List Byte) : beNat ((k.drop 1).take 2) < 65536 := by
  have h := beNat_lt ((k.drop 1).take 2)
  have hl : ((k.drop 1).take 2).length ≤ 2 := List.length_take_le _ _
  calc beNat ((k.drop 1).take 2) < 256 ^ ((k.drop 1).take 2).length := h
    _ ≤ 256 ^ 2 := Nat.pow_le_pow_right (by omega) hl
    _ = 65536 := by norm_num

theorem beNat4_lt (k : List Byte) : beNat (k.take 4) < 2 ^ 32 := by
  have h := beNat_lt (k.take 4)
  have hl : (k.take 4).length ≤ 4 := List.length_take_le _ _
  calc beNat (k.take 4) < 256 ^ (k.take 4).length := h
    _ ≤ 256 ^ 4 := Nat.pow_le_pow_right (by omega) hl
    _ = 2 ^ 32 := by norm_num

@[simp] theorem headerEntries_length (k : List Byte) (n : Nat) : (headerEntries k n).length = n := by simp [headerEntries]

/-- Distinct symbols number at most 256 (R107). -/
theorem length_le_of_nodup {es : List (Byte × Nat)} (h : (es.map Prod.fst).Nodup) : es.length ≤ 256 := by
  have := (List.subperm_of_subset h (fun b _ => mem_allSymbols b)).length_le
  rwa [allSymbols_length, List.length_map] at this

/-- A container that begins with a header is read as its entries. -/
theorem headerEntries_headerBytes {k rest : List Byte} {p : Byte} {es : List (Byte × Nat)} (hk : k = p :: (headerBytes es ++ rest))
    (hn : es.length < 65536) (hc : ∀ e ∈ es, e.2 < 2 ^ 32) :
    beNat ((k.drop 1).take 2) = es.length ∧ headerEntries k es.length = es := by
  subst hk
  constructor
  · rw [List.drop_succ_cons, List.drop_zero, headerBytes_eq, List.append_assoc, List.take_append_of_le_length (by simp),
      List.take_of_length_le (by simp), beNat_beBytes _ _ (by norm_num; exact hn)]
  · have hdrop : ∀ (es : List (Byte × Nat)) (i : Nat) (hi : i < es.length),
        (es.flatMap entryBytes).drop (5 * i) = entryBytes es[i] ++ (es.drop (i + 1)).flatMap entryBytes := by
      intro es
      induction es with
      | nil => intro i hi; simp at hi
      | cons e es ih =>
        intro i hi
        cases i with
        | zero => simp
        | succ i =>
          rw [List.flatMap_cons, show 5 * (i + 1) = (entryBytes e).length + 5 * i by rw [entryBytes_length]; omega,
            ← List.drop_drop, List.drop_left, ih i (by simpa using hi)]
          simp
    apply List.ext_getElem (by simp)
    intro i h1 h2
    rw [headerEntries_length] at h1
    have hd : (p :: (headerBytes es ++ rest)).drop (entryAddr i) =
        entryBytes es[i] ++ ((es.drop (i + 1)).flatMap entryBytes ++ rest) := by
      rw [entryAddr, show 3 + 5 * i = (2 + 5 * i) + 1 by omega, List.drop_succ_cons, headerBytes_eq, List.append_assoc,
        show 2 + 5 * i = (beBytes 2 es.length).length + 5 * i by rw [beBytes_length], ← List.drop_drop, List.drop_left,
        List.drop_append_of_le_length (by rw [flatMap_entryBytes_length]; omega), hdrop es i h1, List.append_assoc]
    simp only [headerEntries, List.getElem_map, List.getElem_range, headerEntry]
    have h3 : (p :: (headerBytes es ++ rest)).getD (entryAddr i) 0 = es[i].1 := by
      rw [List.getD_eq_getElem?_getD, ← Nat.add_zero (entryAddr i), ← List.getElem?_drop, hd]; rfl
    have h4 : ((p :: (headerBytes es ++ rest)).drop (entryAddr i + 1)).take 4 = beBytes 4 es[i].2 := by
      rw [← List.drop_drop, hd, entryBytes, List.cons_append, List.drop_succ_cons, List.drop_zero,
        List.take_append_of_le_length (by simp), List.take_of_length_le (by simp)]
    rw [h3, h4, beNat_beBytes _ _ (by have := hc es[i] (List.getElem_mem _); norm_num at this ⊢; exact this)]

/-- The number of present symbols. -/
theorem countP_put {f : FreqTable} {b : Byte} (c : Count) (h : f.get b = none) :
    (allSymbols.countP fun x => ((f.put b c).get x).isSome) = (allSymbols.countP fun x => (f.get x).isSome) + 1 := by
  have key : ∀ l : List Byte, (l.countP fun x => ((f.put b c).get x).isSome) = (l.countP fun x => (f.get x).isSome) + l.count b := by
    intro l
    induction l with
    | nil => rfl
    | cons a l ih =>
      rw [List.countP_cons, List.countP_cons, List.count_cons, ih, FreqTable.get_put]
      by_cases hab : b = a
      · subst hab; simp [h]; omega
      · simp [hab, Ne.symm hab]; omega
  rw [key, List.count_eq_one_of_mem allSymbols_nodup (mem_allSymbols b)]

/-- Each entry FTDES accepts adds a present symbol (R107). -/
theorem readEntries_countP {s : State} :
    ∀ {n i : Nat} {f f' : FreqTable}, readEntries s n i f = .ok f' →
      (allSymbols.countP fun x => (f'.get x).isSome) = (allSymbols.countP fun x => (f.get x).isSome) + n := by
  intro n
  induction n with
  | zero => intro i f f' h; cases h; rfl
  | succ n ih =>
    intro i f f' h
    simp only [readEntries, bind, Except.bind] at h
    split at h
    · cases h
    · split at h
      · cases h
      · split at h
        · cases h
        · next hf => rw [ih h, countP_put _ hf]; omega

theorem countP_clear : (allSymbols.countP fun x => (FreqTable.clear.get x).isSome) = 0 := by
  rw [List.countP_eq_zero]; simp

theorem present_length_eq (f : FreqTable) : f.present.length = allSymbols.countP fun b => (f.get b).isSome := by
  unfold FreqTable.present
  generalize allSymbols = l
  induction l with
  | nil => rfl
  | cons a l ih =>
    rw [List.filterMap_cons, List.countP_cons]
    cases f.get a <;> simp [ih]

/-- FTDES's loop faults at the first byte without a value, when the entries wholly before it have symbols that are new
(U15). -/
theorem readEntries_fault {s : State} {a : Nat} (ha : s.IN.read a = none) :
    ∀ (k i : Nat) (f : FreqTable), entryAddr i ≤ a → a < entryAddr (i + k) →
      (∀ x, entryAddr i ≤ x → x < a → s.IN.read x ≠ none) →
      (∀ j, i ≤ j → entryAddr (j + 1) ≤ a → ∀ b, s.IN.read (entryAddr j) = some b → f.get b = none) →
      (∀ i' j, i ≤ i' → i' < j → entryAddr (j + 1) ≤ a → s.IN.read (entryAddr i') ≠ s.IN.read (entryAddr j)) →
      readEntries s k i f = .error (.fault (.unwrittenInput a)) := by
  intro k
  induction k with
  | zero => intro i f h1 h2; simp only [Nat.add_zero] at h2; omega
  | succ k ih =>
    intro i f h1 h2 hx hf hd
    simp only [entryAddr] at h1 h2
    have h4 : ∀ {n o : Nat}, entryAddr i ≤ o → o ≤ a → a < o + n → memRead s o n = .error (.fault (.unwrittenInput a)) := by
      intro n o h0 h3 h4
      rw [memRead, memReadBytes_fault ha n o h3 h4 fun y hy => hx y (h0.trans hy)]
      rfl
    by_cases hi : a = entryAddr i
    · subst hi
      simp only [readEntries, memRead1, ha, bind, Except.bind]
    · obtain ⟨b, hb⟩ := Option.ne_none_iff_exists'.1 (hx (entryAddr i) le_rfl (by simp only [entryAddr] at hi ⊢; omega))
      rw [readEntries, memRead1_eq_ok.2 hb]
      by_cases h5 : a < entryAddr (i + 1)
      · rw [h4 (by omega) (by simp only [entryAddr] at hi ⊢; omega) (by simp only [entryAddr] at h5 ⊢; omega)]
        rfl
      · have h6 : entryAddr (i + 1) ≤ a := by omega
        obtain ⟨bs, hbs⟩ : ∃ bs, memReadBytes s (entryAddr i + 1) 4 = .ok bs := by
          refine ⟨(List.range 4).map fun o => (s.IN.read (entryAddr i + 1 + o)).getD 0, memReadBytes_eq_ok.2 ⟨by simp, ?_⟩⟩
          intro o ho
          obtain ⟨v, hv⟩ := Option.ne_none_iff_exists'.1
            (hx (entryAddr i + 1 + o) (by omega) (by simp only [entryAddr] at h6 ⊢; omega))
          rw [List.getElem?_map, List.getElem?_range ho, hv, Option.map_some, hv, Option.getD_some]
        have hnew := hf i le_rfl h6 b hb
        simp only [bind, Except.bind, memRead, hbs, pure, Except.pure, hnew]
        refine ih (i + 1) _ h6 (by rw [show i + 1 + k = i + (k + 1) by omega]; exact h2)
          (fun x h => hx x (by simp only [entryAddr] at h ⊢; omega)) ?_ fun i' j h => hd i' j (by omega)
        intro j hj h7 c hc
        rw [FreqTable.get_put, if_neg]
        · exact hf j (by omega) h7 c hc
        · rintro rfl
          exact hd i j le_rfl (by omega) h7 (hb.trans hc.symm)

end Sys2Proof.Machine
end

