-- ==== Sys2Proof/Laws/Sequencer.lean ====
section
/-! SUPPORT. What each operation can answer as a next state, said once: handing over to its successor, completing, or
entering an error. Everything about the sequencer follows from these lemmas without unfolding a meaning again. -/

namespace Sys2Proof.Machine

/-- A phase hands over to `p`: it has written working registers and tables other than `LEN`, and perhaps bytes of `OUT`. -/
def handsOver (s : State) (p : Phase) (t : State) : Prop :=
  ∃ (w : Work) (m : Memory), t = ((s.setWork w).setOUT m).setPHASE p ∧ w.LEN = s.work.LEN ∧ (s.OUT.wf = true → m.wf = true)

/-- A command completes: bytes of `OUT` written, then `completed`. -/
def completes (s : State) (t : State) : Prop :=
  ∃ (n : BitVec 40) (m : Memory), t = completed n (s.setOUT m) ∧ n.toNat ≤ s.cfg.outCap ∧ (s.OUT.wf = true → m.wf = true)

/-- An error entry of one of these kinds. -/
def enters (ks : List ErrKind) (s : State) (t : State) : Prop := ∃ e ∈ ks, t = raiseError e s

theorem handsOver_setWork (s : State) (w : Work) (p : Phase) (h : w.LEN = s.work.LEN) :
    handsOver s p ((s.setWork w).setPHASE p) := ⟨w, s.OUT, rfl, h, id⟩

theorem execFcount_next {s t : State} (h0 : execFcount s = .next t) :
    handsOver s .mkleaf t ∨ enters [.emptyInput] s t := by
  rcases settle_eq_next.1 h0 with h | ⟨e, h, rfl⟩
  · split at h
    · cases h
    · cases hb : inputBytes s <;> simp [hb, bind, Except.bind, pure, Except.pure] at h
      subst h; exact .inl (handsOver_setWork _ _ _ rfl)
  · split at h
    · cases h; exact .inr ⟨_, by simp, rfl⟩
    · cases hb : inputBytes s <;> simp [hb, bind, Except.bind, pure, Except.pure] at h
      exact absurd (hb.trans (by rw [h])) (memReadBytes_ne_raise s _ _ e)

theorem execMkleaf_next {s t : State} (h0 : execMkleaf s = .next t) : handsOver s .tbuild t := by
  cases h0; exact handsOver_setWork _ _ _ rfl

/-- A queue check ends in a fault or not at all. -/
theorem checkQueue_ne_raise (nodes : List Node) (q : List NodeIdx) (e : ErrKind) :
    checkQueue nodes q ≠ .error (.raise e) := by
  induction q with
  | nil => simp [checkQueue]
  | cons j q ih =>
    simp only [checkQueue, nodeAt]
    cases nodes[j.toNat]? <;> simp [ih]

/-- Merging raises nothing. -/
theorem mergeAll_ne_raise (fuel : Nat) (nodes : List Node) (q : List NodeIdx) (e : ErrKind) :
    Machine.mergeAll fuel nodes q ≠ .error (.raise e) := by
  induction fuel generalizing nodes q with
  | zero => simp [mergeAll]
  | succ fuel ih =>
    match q with
    | [] => simp [mergeAll]
    | [_] => simp [mergeAll]
    | a :: b :: rest =>
      simp only [mergeAll, mergeStep]
      by_cases hl : nodes.length < 511
      · simp only [if_pos hl]; exact ih _ _
      · simp [if_neg hl]

theorem buildTree_ok {w w' : Work} (h : buildTree w = .ok w') : w'.LEN = w.LEN := by
  unfold buildTree at h
  split at h
  · cases h; rfl
  · cases hc : checkQueue w.NODE w.QUEUE <;> simp [hc, bind, Except.bind, pure, Except.pure] at h
    split at h
    · cases h
    · cases h; rfl

theorem buildTree_ne_raise (w : Work) (e : ErrKind) : buildTree w ≠ .error (.raise e) := by
  unfold buildTree
  split
  · simp
  · cases hc : checkQueue w.NODE w.QUEUE with
    | error x =>
      simp only [bind, Except.bind]
      intro h; exact checkQueue_ne_raise _ _ e (hc.trans (by simpa using h))
    | ok u =>
      simp only [bind, Except.bind, pure, Except.pure]
      split
      · next x hx => intro h; exact mergeAll_ne_raise _ _ _ e (hx.trans (by simpa using h))
      · simp

theorem execTbuild_next {s t : State} (h0 : execTbuild s = .next t) : handsOver s (afterTbuild s.MODE) t := by
  rcases settle_eq_next.1 h0 with h | ⟨e, h, rfl⟩
  · cases hb : buildTree s.work <;> simp [hb, bind, Except.bind, pure, Except.pure] at h
    subst h; exact handsOver_setWork _ _ _ (buildTree_ok hb)
  · cases hb : buildTree s.work <;> simp [hb, bind, Except.bind, pure, Except.pure] at h
    exact absurd (hb.trans (by rw [h])) (buildTree_ne_raise _ e)

theorem nodeAt_ne_raise (nodes : List Node) (i : NodeIdx) (e : ErrKind) : nodeAt nodes i ≠ .error (.raise e) := by
  unfold nodeAt; cases nodes[i.toNat]? <;> simp

theorem visit_ne_raise (nodes : List Node) (e : ErrKind) :
    ∀ (fuel : Nat) (n : NodeIdx) (pat : BitVec 64) (len : BitVec 7) (t : CodeTable),
      visit nodes fuel n pat len t ≠ .error (.raise e) := by
  intro fuel
  induction fuel with
  | zero => intros; simp [visit]
  | succ fuel ih =>
    intro n pat len t
    simp only [visit]
    split
    · next h hn => intro hh; exact nodeAt_ne_raise nodes n e (hn.trans (by simpa using hh))
    · simp
    · split
      · next h hv => intro hh; exact ih _ _ _ _ (hv.trans (by simpa using hh))
      · exact ih _ _ _ _

theorem generateCodes_ne_raise (w : Work) (e : ErrKind) : generateCodes w ≠ .error (.raise e) := by
  unfold generateCodes
  split
  · cases hn : nodeAt w.NODE w.ROOT with
    | error x =>
      simp only [bind, Except.bind]
      intro h; exact nodeAt_ne_raise _ _ e (hn.trans (by simpa using h))
    | ok n =>
      simp only [bind, Except.bind, pure, Except.pure]
      cases n with
      | leaf => simp
      | inner => exact visit_ne_raise _ e _ _ _ _ _
  · simp

theorem execCgen_next {s t : State} (h0 : execCgen s = .next t) : handsOver s .bpack t := by
  rcases settle_eq_next.1 h0 with h | ⟨e, h, rfl⟩
  · cases hb : generateCodes s.work <;> simp [hb, bind, Except.bind, pure, Except.pure] at h
    subst h; exact handsOver_setWork _ _ _ rfl
  · cases hb : generateCodes s.work <;> simp [hb, bind, Except.bind, pure, Except.pure] at h
    exact absurd (hb.trans (by rw [h])) (generateCodes_ne_raise _ e)

/-- The packer only ever writes bytes, so it keeps the canonical form. -/
theorem emit_wf {p : Packer} (h : p.out.wf = true) (v : Byte) : (p.emit v).out.wf = true := wf_write h _ _

theorem drain_wf (k : Nat) {p : Packer} (h : p.out.wf = true) : (Packer.drain k p).out.wf = true := by
  induction k generalizing p with
  | zero => exact h
  | succ k ih =>
    simp only [Packer.drain]
    split
    · exact ih (emit_wf h _)
    · exact h

theorem takeByte_wf {t : CodeTable} {p p' : Packer} {b : Byte} (h : p.out.wf = true) (hp : p.takeByte t b = .ok p') :
    p'.out.wf = true := by
  simp only [Packer.takeByte, Packer.takeCode] at hp
  split at hp
  · split at hp
    · cases hp; exact drain_wf _ h
    · cases hp
  · cases hp

theorem takeBytes_wf {t : CodeTable} {bs : List Byte} :
    ∀ {p p' : Packer}, p.out.wf = true → Packer.takeBytes t p bs = .ok p' → p'.out.wf = true := by
  induction bs with
  | nil => intro p p' h hp; cases hp; exact h
  | cons b bs ih =>
    intro p p' h hp
    simp only [Packer.takeBytes] at hp
    split at hp
    · next q hq => exact ih (takeByte_wf h hq) hp
    · cases hp

theorem flush_wf {p : Packer} (h : p.out.wf = true) : p.flush.out.wf = true := by
  unfold Packer.flush; split
  · exact h
  · exact emit_wf h _

theorem takeBytes_ne_raise (t : CodeTable) (bs : List Byte) (e : ErrKind) :
    ∀ p : Packer, Packer.takeBytes t p bs ≠ .error (.raise e) := by
  induction bs with
  | nil => intro p; simp [Packer.takeBytes]
  | cons b bs ih =>
    intro p
    simp only [Packer.takeBytes]
    split
    · exact ih _
    · next h hq =>
      intro hh
      simp only [Packer.takeByte, Packer.takeCode] at hq
      split at hq
      · split at hq <;> cases hq
        cases hh
      · cases hq; cases hh

theorem execBpack_next {s t : State} (h0 : execBpack s = .next t) : handsOver s .ftser t := by
  rcases settle_eq_next.1 h0 with h | ⟨e, h, rfl⟩
  · cases hb : inputBytes s <;> simp [hb, bind, Except.bind, pure, Except.pure] at h
    next bs =>
    cases hp : Packer.takeBytes s.work.CODE (Packer.start s.work.HLEN s.OUT) bs <;> simp [hp] at h
    subst h
    exact ⟨_, _, rfl, rfl, fun hw => flush_wf (takeBytes_wf hw hp)⟩
  · cases hb : inputBytes s <;> simp [hb, bind, Except.bind, pure, Except.pure] at h
    · exact absurd (hb.trans (by rw [h])) (memReadBytes_ne_raise s _ _ e)
    · next bs =>
      cases hp : Packer.takeBytes s.work.CODE (Packer.start s.work.HLEN s.OUT) bs <;> simp [hp] at h
      exact absurd (hp.trans (by rw [h])) (takeBytes_ne_raise _ _ e _)

theorem writeEntries_wf (es : List (Byte × Count)) :
    ∀ {m : Memory} (o : Nat), m.wf = true → (writeEntries m o es).wf = true := by
  induction es with
  | nil => intro m o h; exact h
  | cons e es ih => intro m o h; exact ih _ (wf_memWrite (wf_memWrite h _ _ _) _ _ _)

theorem execFtser_next {s t : State} (h0 : execFtser s = .next t) : completes s t := by
  rcases settle_eq_next.1 h0 with h | ⟨e, h, rfl⟩
  · obtain ⟨hn, rfl⟩ := complete_eq_ok.1 h
    exact ⟨_, _, rfl, hn, fun hw => wf_memWrite (writeEntries_wf _ _ (wf_memWrite hw _ _ _)) _ _ _⟩
  · exact absurd h (complete_ne_raise _ _ e)

theorem readEntries_raise {s : State} {e : ErrKind} :
    ∀ {k i : Nat} {f : FreqTable}, readEntries s k i f = .error (.raise e) → e = .invalidEntryCount := by
  intro k
  induction k with
  | zero => intro i f h; cases h
  | succ k ih =>
    intro i f h
    simp only [readEntries, bind, Except.bind] at h
    cases h1 : memRead1 s (entryAddr i) <;> simp only [h1] at h
    · cases h; exact absurd h1 (memRead1_ne_raise _ _ _)
    · cases h2 : memRead s (entryAddr i + 1) 4 <;> simp only [h2] at h
      · cases h; exact absurd h2 (memRead_ne_raise _ _ _ _)
      · split at h
        · cases h; rfl
        · exact ih h

theorem readHeader_ok {s : State} {w : Work} (h : readHeader s = .ok w) : w.LEN = s.work.LEN := by
  simp only [readHeader, bind, Except.bind, pure, Except.pure] at h
  split at h
  · cases h
  · split at h
    · cases h
    · split at h
      · cases h
      · split at h
        · cases h
        · split at h
          · cases h
          · cases h; rfl

theorem readHeader_raise {s : State} {e : ErrKind} (h : readHeader s = .error (.raise e)) :
    e = .truncatedHeader ∨ e = .invalidEntryCount := by
  simp only [readHeader, bind, Except.bind, pure, Except.pure] at h
  split at h
  · cases h; exact .inl rfl
  · split at h
    · next hm => cases h; exact absurd hm (memRead_ne_raise _ _ _ _)
    · split at h
      · cases h; exact .inl rfl
      · split at h
        · cases h; exact .inr rfl
        · split at h
          · next hr => cases h; exact .inr (readEntries_raise hr)
          · cases h

theorem checkPayload_ok {w w' : Work} (h : checkPayload w = .ok w') : w'.LEN = w.LEN := by
  simp only [checkPayload] at h
  split at h
  · cases h
  · split at h
    · cases h
    · cases h; rfl

theorem checkPayload_raise {w : Work} {e : ErrKind} (h : checkPayload w = .error (.raise e)) :
    e = .emptyPayload ∨ e = .badPadding := by
  simp only [checkPayload] at h
  split at h
  · cases h; exact .inl rfl
  · split at h
    · cases h; exact .inr rfl
    · cases h

theorem execFtdes_next {s t : State} (h0 : execFtdes s = .next t) :
    handsOver s .mkleaf t ∨ enters [.truncatedHeader, .invalidEntryCount, .emptyPayload, .badPadding] s t := by
  rcases settle_eq_next.1 h0 with h | ⟨e, h, rfl⟩
  · cases h1 : readHeader s <;> simp [h1, bind, Except.bind, pure, Except.pure] at h
    next w =>
    cases h2 : checkPayload w <;> simp [h2] at h
    subst h
    exact .inl (handsOver_setWork _ _ _ ((checkPayload_ok h2).trans (readHeader_ok h1)))
  · refine .inr ⟨e, ?_, rfl⟩
    cases h1 : readHeader s <;> simp [h1, bind, Except.bind, pure, Except.pure] at h
    · subst h; rcases readHeader_raise h1 with rfl | rfl <;> simp
    · next w =>
      cases h2 : checkPayload w <;> simp [h2] at h
      subst h; rcases checkPayload_raise h2 with rfl | rfl <;> simp

theorem execBunpk_next {s t : State} (h0 : execBunpk s = .next t) : handsOver s .twalk t := by
  cases h0; exact handsOver_setWork _ _ _ rfl

theorem round_wf {s : State} {n : Node} {w w' : Walker} (h : w.out.wf = true) (hw : w.round s n = .ok w') :
    w'.out.wf = true := by
  simp only [Walker.round, bind, Except.bind] at hw
  split at hw
  · cases hw
  · split at hw
    · cases hw
    · split at hw
      · cases hw
      · split at hw
        · split at hw <;> cases hw
          exact wf_write h _ _
        · cases hw; exact h

theorem rounds_wf {s : State} {n : Node} :
    ∀ {k : Nat} {w w' : Walker}, w.out.wf = true → Walker.rounds s n k w = .ok w' → w'.out.wf = true := by
  intro k
  induction k with
  | zero => intro w w' h hw; cases hw; exact h
  | succ k ih =>
    intro w w' h hw
    simp only [Walker.rounds] at hw
    split at hw
    · next w1 h1 => exact ih (round_wf h h1) hw
    · cases hw

theorem payloadBit_ne_raise (s : State) (j : Nat) (e : ErrKind) : payloadBit s j ≠ .error (.raise e) := by
  unfold payloadBit
  cases h : memRead1 s (payloadAddr s.work.HLEN + j / 8) with
  | error x => intro hh; exact memRead1_ne_raise _ _ e (h.trans (by simpa [bind, Except.bind] using hh))
  | ok b => simp [bind, Except.bind, pure, Except.pure]

theorem round_raise {s : State} {n : Node} {w : Walker} {e : ErrKind} (h : w.round s n = .error (.raise e)) :
    e = .corruptTree := by
  simp only [Walker.round, Walker.target, bind, Except.bind] at h
  split at h
  · next hx => cases h; exact absurd hx (payloadBit_ne_raise _ _ _)
  · split at h
    · next hx =>
      cases h
      split at hx
      · split at hx <;> cases hx; rfl
      · split at hx
        · next hy => cases hx; exact absurd hy (nodeAt_ne_raise _ _ _)
        · cases hx
        · cases hx
    · split at h
      · next hx => cases h; exact absurd hx (nodeAt_ne_raise _ _ _)
      · split at h
        · split at h <;> cases h; rfl
        · cases h

theorem rounds_raise {s : State} {n : Node} {e : ErrKind} :
    ∀ {k : Nat} {w : Walker}, Walker.rounds s n k w = .error (.raise e) → e = .corruptTree := by
  intro k
  induction k with
  | zero => intro w h; cases h
  | succ k ih =>
    intro w h
    simp only [Walker.rounds] at h
    split at h
    · exact ih h
    · next hr => cases h; exact round_raise hr

theorem execTwalk_next {s t : State} (h0 : execTwalk s = .next t) : completes s t ∨ enters [.corruptTree] s t := by
  rcases settle_eq_next.1 h0 with h | ⟨e, h, rfl⟩
  · cases hw : walkPayload s <;> simp [hw, bind, Except.bind] at h
    next w =>
    obtain ⟨hn, rfl⟩ := complete_eq_ok.1 h
    refine .inl ⟨_, _, rfl, hn, fun ho => ?_⟩
    simp only [walkPayload, bind, Except.bind] at hw
    split at hw
    · split at hw
      · cases hw
      · split at hw
        · cases hw
        · next w1 h1 =>
          split at hw
          · cases hw
          · split at hw <;> cases hw
            exact rounds_wf ho h1
    · cases hw
  · refine .inr ⟨e, ?_, rfl⟩
    cases hw : walkPayload s <;> simp [hw, bind, Except.bind] at h
    · subst h
      simp only [walkPayload, bind, Except.bind] at hw
      split at hw
      · split at hw
        · next hx => cases hw; exact absurd hx (nodeAt_ne_raise _ _ _)
        · split at hw
          · next hx => cases hw; simp [rounds_raise hx]
          · split at hw
            · cases hw; simp
            · split at hw <;> cases hw; simp
      · cases hw
    · exact absurd h (complete_ne_raise _ _ e)

/-- ENCODE is dropped, begins, or enters `EmptyInput`. -/
theorem execEncode_next {s t : State} (h0 : execEncode s = .next t) :
    (s.BUSY = true ∧ t = s) ∨
    (s.BUSY = false ∧ s.IN_LEN.toNat ≤ s.cfg.inCap ∧
      (handsOver (accept .encode s) .fcount t ∨ enters [.emptyInput] (accept .encode s) t)) := by
  rcases startCommand_eq_next.1 h0 with h | ⟨hb, hc, h | ⟨e, h, rfl⟩⟩
  · exact .inl h
  · refine .inr ⟨hb, hc, .inl ?_⟩
    simp only [beginEncode] at h
    split at h <;> cases h
    exact ⟨_, _, rfl, rfl, id⟩
  · refine .inr ⟨hb, hc, .inr ⟨e, ?_, rfl⟩⟩
    simp only [beginEncode] at h
    split at h <;> cases h; simp

/-- DECODE is dropped, begins, or enters `TooShort`. -/
theorem execDecode_next {s t : State} (h0 : execDecode s = .next t) :
    (s.BUSY = true ∧ t = s) ∨
    (s.BUSY = false ∧ s.IN_LEN.toNat ≤ s.cfg.inCap ∧
      (handsOver (accept .decode s) .ftdes t ∨ enters [.tooShort] (accept .decode s) t)) := by
  rcases startCommand_eq_next.1 h0 with h | ⟨hb, hc, h | ⟨e, h, rfl⟩⟩
  · exact .inl h
  · refine .inr ⟨hb, hc, .inl ?_⟩
    simp only [beginDecode, bind, Except.bind, pure, Except.pure] at h
    split at h
    · cases h
    · split at h <;> cases h
      exact handsOver_setWork _ _ _ rfl
  · refine .inr ⟨hb, hc, .inr ⟨e, ?_, rfl⟩⟩
    simp only [beginDecode, bind, Except.bind, pure, Except.pure] at h
    split at h
    · cases h; simp
    · split at h
      · next hx => cases h; exact absurd hx (memRead1_ne_raise _ _ _)
      · cases h

end Sys2Proof.Machine
end

