-- ==== Sys2Proof/Laws/Buffers.lean ====
section
/-! SUPPORT. Which bytes of `OUT` have a value: what BPACK, FTSER and TWALK leave without a gap, and the working registers
that say where the payload lies. -/

namespace Sys2Proof.Machine

/-- Every byte from `a` up to but not including `b` has a value. -/
def Memory.covers (m : Memory) (a b : Nat) : Prop := ∀ x, a ≤ x → x < b → m.read x ≠ none

/-- A write takes no value away. -/
theorem read_write_ne_none {m : Memory} {x : Nat} (h : m.read x ≠ none) (a : Nat) (v : Byte) : (m.write a v).read x ≠ none := by
  rw [read_write]; split
  · exact Option.some_ne_none v
  · exact h

/-- A byte written at a 40-bit pointer that then goes up by one extends what is covered below the pointer. -/
theorem covers_write {m : Memory} {base : Nat} {p : BitVec 40} (h : m.covers base p.toNat) (v : Byte) :
    (m.write p.toNat v).covers base (p + 1).toNat := by
  intro x h1 h2
  by_cases hx : x = p.toNat
  · subst hx; simp
  · rw [read_write_ne m v hx]
    refine h x h1 ?_
    rw [BitVec.toNat_add, show (1 : BitVec 40).toNat = 1 from rfl] at h2
    omega

/-! ## MKLEAF, TBUILD, CGEN -/

/-- MKLEAF in an ENCODE sets `HLEN` to the header length of the present symbols. -/
theorem execMkleaf_header {s t : State} (h0 : execMkleaf s = .next t) (hm : s.MODE = .encode) :
    t.work.HLEN.toNat = hdrBytes t.work.FREQ.present.length := by
  cases h0
  have := present_length s.work.FREQ
  simp only [setPHASE_work, setWork_work, makeLeaves, hm, if_true, List.length_map, BitVec.toNat_ofNat, hdrBytes]
  omega

/-- TBUILD leaves `FREQ`, `HLEN` and `MODE` alone. -/
theorem execTbuild_header {s t : State} (h0 : execTbuild s = .next t) :
    t.work.HLEN = s.work.HLEN ∧ t.work.FREQ = s.work.FREQ ∧ t.MODE = s.MODE := by
  rcases settle_eq_next.1 h0 with h | ⟨e, h, rfl⟩
  · cases hb : buildTree s.work <;> simp [hb, bind, Except.bind, pure, Except.pure] at h
    subst h
    unfold buildTree at hb
    split at hb
    · cases hb; exact ⟨rfl, rfl, rfl⟩
    · cases hc : checkQueue s.work.NODE s.work.QUEUE <;> simp [hc, bind, Except.bind, pure, Except.pure] at hb
      split at hb
      · cases hb
      · cases hb; exact ⟨rfl, rfl, rfl⟩
  · obtain ⟨w, m, hw, -⟩ := execTbuild_next h0
    exact absurd (congrArg State.PHASE hw) (by cases s.MODE <;> simp [afterTbuild])

/-- CGEN leaves `FREQ`, `HLEN` and `MODE` alone. -/
theorem execCgen_header {s t : State} (h0 : execCgen s = .next t) :
    t.work.HLEN = s.work.HLEN ∧ t.work.FREQ = s.work.FREQ ∧ t.MODE = s.MODE := by
  rcases settle_eq_next.1 h0 with h | ⟨e, h, rfl⟩
  · cases hb : generateCodes s.work <;> simp [hb, bind, Except.bind, pure, Except.pure] at h
    subst h; exact ⟨rfl, rfl, rfl⟩
  · obtain ⟨w, m, hw, -⟩ := execCgen_next h0
    exact absurd (congrArg State.PHASE hw) (by simp)

/-! ## BPACK -/

theorem Packer.covers_drain {base : Nat} (k : Nat) {p : Packer} (h : p.out.covers base p.OPTR.toNat) :
    (Packer.drain k p).out.covers base (Packer.drain k p).OPTR.toNat := by
  induction k generalizing p with
  | zero => exact h
  | succ k ih =>
    simp only [Packer.drain]
    split
    · exact ih (covers_write h _)
    · exact h

theorem Packer.covers_takeBytes {t : CodeTable} {base : Nat} {bs : List Byte} :
    ∀ {p p' : Packer}, p.out.covers base p.OPTR.toNat → Packer.takeBytes t p bs = .ok p' → p'.out.covers base p'.OPTR.toNat := by
  induction bs with
  | nil => intro p p' h hp; cases hp; exact h
  | cons b bs ih =>
    intro p p' h hp
    simp only [Packer.takeBytes, Packer.takeByte, Packer.takeCode] at hp
    split at hp
    · next q hq =>
      split at hq
      · split at hq <;> cases hq
        refine ih ?_ hp
        exact Packer.covers_drain 8 h
      · cases hq
    · cases hp

theorem Packer.covers_flush {base : Nat} {p : Packer} (h : p.out.covers base p.OPTR.toNat) :
    p.flush.out.covers base p.flush.OPTR.toNat := by
  unfold Packer.flush
  split
  · exact h
  · exact covers_write h _

/-- BPACK leaves no gap in the payload, and leaves `FREQ`, `HLEN` and `MODE` alone. -/
theorem execBpack_covers {s t : State} (h0 : execBpack s = .next t) :
    t.OUT.covers (1 + t.work.HLEN.toNat) t.work.OPTR.toNat ∧ t.work.HLEN = s.work.HLEN ∧ t.work.FREQ = s.work.FREQ ∧
      t.MODE = s.MODE ∧ t.PHASE = .ftser := by
  rcases settle_eq_next.1 h0 with h | ⟨e, h, rfl⟩
  · cases hb : inputBytes s <;> simp [hb, bind, Except.bind, pure, Except.pure] at h
    next bs =>
    cases hp : Packer.takeBytes s.work.CODE (Packer.start s.work.HLEN s.OUT) bs <;> simp [hp] at h
    subst h
    refine ⟨Packer.covers_flush (Packer.covers_takeBytes ?_ hp), rfl, rfl, rfl, rfl⟩
    intro x h1 h2
    simp only [Packer.start, payloadAddr, BitVec.toNat_ofNat] at h2
    exact absurd (h1.trans_lt h2) (Nat.mod_le _ _).not_gt
  · obtain ⟨w, m, hw, -⟩ := execBpack_next h0
    exact absurd (congrArg State.PHASE hw) (by simp)

/-! ## FTSER -/

/-- The header covers its bytes, whatever number of entries it names. -/
theorem covers_writeHeader (m : Memory) (nsym : BitVec 9) (f : FreqTable) :
    (writeHeader m nsym f).covers 1 (1 + hdrBytes f.present.length) := by
  intro x h1 h2
  rw [writeHeader, read_writeEntries, read_memWrite, entryAddr]
  rw [hdrBytes] at h2
  split
  · rw [Ne, List.getElem?_eq_none_iff, flatMap_entryBytes_length, List.length_map]; omega
  · rw [if_pos (by omega), Ne, List.getElem?_eq_none_iff, beBytes_length]; omega

theorem writeHeader_ne_none {m : Memory} {x : Nat} (h : m.read x ≠ none) (nsym : BitVec 9) (f : FreqTable) :
    (writeHeader m nsym f).read x ≠ none := by
  rw [writeHeader, read_writeEntries, read_memWrite]
  split
  · rw [Ne, List.getElem?_eq_none_iff, flatMap_entryBytes_length, List.length_map]; omega
  · split
    · rw [Ne, List.getElem?_eq_none_iff, beBytes_length]; omega
    · exact h

/-- FTSER on a payload without a gap leaves a container without one. -/
theorem execFtser_covers {s t : State} (h0 : execFtser s = .next t)
    (hH : s.work.HLEN.toNat = hdrBytes s.work.FREQ.present.length)
    (hp : s.OUT.covers (1 + s.work.HLEN.toNat) s.work.OPTR.toNat) :
    (∀ a, t.OUT.read a ≠ none ↔ a < t.OUT_LEN.toNat) ∧ t.OUT_LEN.toNat ≤ t.cfg.outCap := by
  rcases settle_eq_next.1 h0 with h | ⟨e, h, rfl⟩
  · obtain ⟨hn, rfl⟩ := complete_eq_ok.1 h
    refine ⟨fun a => ?_, hn⟩
    simp only [completed_OUT, completed_OUT_LEN, setOUT_OUT, read_keepBelow]
    split
    · next ha =>
      refine ⟨fun _ => ha, fun _ => ?_⟩
      rw [read_memWrite]
      split
      · rw [Ne, List.getElem?_eq_none_iff, beBytes_length]; omega
      · by_cases h1 : a < 1 + hdrBytes s.work.FREQ.present.length
        · exact covers_writeHeader _ _ _ a (by omega) h1
        · exact writeHeader_ne_none (hp a (by omega) ha) _ _
    · next ha => exact ⟨fun h => absurd rfl h, fun h => absurd h ha⟩
  · exact absurd h (complete_ne_raise _ _ e)

/-! ## TWALK -/

theorem Walker.covers_round {s : State} {n : Node} {w w' : Walker} (hw : w.round s n = .ok w')
    (h : w.out.covers 0 w.OPTR.toNat) (he : w.OPTR = w.EMIT) : w'.out.covers 0 w'.OPTR.toNat ∧ w'.OPTR = w'.EMIT := by
  simp only [Walker.round, bind, Except.bind] at hw
  split at hw
  · cases hw
  · split at hw
    · cases hw
    · split at hw
      · cases hw
      · split at hw
        · split at hw <;> cases hw
          exact ⟨covers_write h _, by rw [he]⟩
        · cases hw; exact ⟨h, he⟩

theorem Walker.covers_rounds {s : State} {n : Node} :
    ∀ {k : Nat} {w w' : Walker}, Walker.rounds s n k w = .ok w' → w.out.covers 0 w.OPTR.toNat → w.OPTR = w.EMIT →
      w'.out.covers 0 w'.EMIT.toNat := by
  intro k
  induction k with
  | zero => intro w w' hw h he; cases hw; rwa [← he]
  | succ k ih =>
    intro w w' hw h he
    simp only [Walker.rounds] at hw
    split at hw
    · next w1 h1 =>
      obtain ⟨h2, h3⟩ := Walker.covers_round h1 h he
      exact ih hw h2 h3
    · cases hw

theorem walkPayload_covers {s : State} {w : Walker} (hw : walkPayload s = .ok w) : w.out.covers 0 w.EMIT.toNat := by
  simp only [walkPayload, bind, Except.bind] at hw
  split at hw
  · split at hw
    · cases hw
    · split at hw
      · cases hw
      · next w1 h1 =>
        split at hw
        · cases hw
        · split at hw <;> cases hw
          exact Walker.covers_rounds h1 (fun x _ h2 => by simp [Walker.start] at h2) rfl
  · cases hw

/-- TWALK that completes leaves a result without a gap. -/
theorem execTwalk_covers {s t : State} (h0 : execTwalk s = .next t) :
    (∃ e, t = raiseError e s) ∨ ((∀ a, t.OUT.read a ≠ none ↔ a < t.OUT_LEN.toNat) ∧ t.OUT_LEN.toNat ≤ t.cfg.outCap) := by
  rcases settle_eq_next.1 h0 with h | ⟨e, h, rfl⟩
  · cases hw : walkPayload s <;> simp [hw, bind, Except.bind] at h
    next w =>
    obtain ⟨hn, rfl⟩ := complete_eq_ok.1 h
    refine .inr ⟨fun a => ?_, hn⟩
    simp only [completed_OUT, completed_OUT_LEN, setOUT_OUT, read_keepBelow]
    split
    · next ha => exact ⟨fun _ => ha, fun _ => walkPayload_covers hw a (Nat.zero_le a) ha⟩
    · next ha => exact ⟨fun h => absurd rfl h, fun h => absurd h ha⟩
  · exact .inl ⟨e, rfl⟩

end Sys2Proof.Machine
end

