-- ==== Sys2Proof/Laws/Huffman.lean ====
section
/-! SUPPORT. How merging the two lowest counts shapes a tree: a child never counts less than its sibling's children
(R97's argument), and what stands earlier in the queue ends up at least as deep. -/

namespace Sys2Proof.Machine

/-- Both children count at most `c`. A leaf has none. -/
def HTree.kidsLe (c : Nat) : HTree → Prop
  | .leaf _ _ => True
  | .node _ l r => l.count ≤ c ∧ r.count ≤ c

/-- Everywhere in the tree, a node counts at least what its sibling's children count. -/
def HTree.balanced : HTree → Prop
  | .leaf _ _ => True
  | .node _ l r => l.kidsLe r.count ∧ r.kidsLe l.count ∧ l.balanced ∧ r.balanced

/-- The queue is sorted by count, its trees are balanced, and no tree in it has a child that counts more than any tree
in it. -/
structure MergeQueue (q : List HTree) : Prop where
  sorted   : q.Pairwise fun t u => t.count ≤ u.count
  kids     : ∀ t ∈ q, ∀ u ∈ q, t.kidsLe u.count
  balanced : ∀ t ∈ q, t.balanced
  summed   : ∀ t ∈ q, t.summed

theorem HTree.kidsLe_mono {c e : Nat} (h : c ≤ e) {t : HTree} (ht : t.kidsLe c) : t.kidsLe e := by
  cases t with
  | leaf => trivial
  | node n l r => exact ⟨ht.1.trans h, ht.2.trans h⟩

theorem mem_putBehind {q : List HTree} {t u : HTree} : u ∈ HTree.putBehind q t ↔ u = t ∨ u ∈ q := by
  rw [(putBehind_perm q t).mem_iff, List.mem_cons]

theorem putBehind_sorted {q : List HTree} (h : q.Pairwise fun t u => t.count ≤ u.count) (t : HTree) :
    (HTree.putBehind q t).Pairwise fun t u => t.count ≤ u.count := (insert_sorted HTree.count q t h).1

/-- One merge keeps the queue's order and balance. -/
theorem MergeQueue.merge {a b : HTree} {rest : List HTree} (h : MergeQueue (a :: b :: rest)) :
    MergeQueue (HTree.putBehind rest (.node (a.count + b.count) a b)) := by
  have hab : a.count ≤ b.count := (List.pairwise_cons.1 h.sorted).1 b (by simp)
  have hbr : ∀ u ∈ rest, b.count ≤ u.count := (List.pairwise_cons.1 (List.pairwise_cons.1 h.sorted).2).1
  have hsum : (HTree.node (a.count + b.count) a b).count = a.count + b.count := rfl
  refine ⟨putBehind_sorted (List.pairwise_cons.1 (List.pairwise_cons.1 h.sorted).2).2 _, ?_, ?_, ?_⟩
  · intro t ht u hu
    rcases mem_putBehind.1 ht with rfl | ht <;> rcases mem_putBehind.1 hu with rfl | hu
    · exact ⟨by omega, by omega⟩
    · have := hbr u hu; exact ⟨by omega, by omega⟩
    · exact HTree.kidsLe_mono (by omega) (h.kids t (by simp [ht]) a (by simp))
    · exact h.kids t (by simp [ht]) u (by simp [hu])
  · intro t ht
    rcases mem_putBehind.1 ht with rfl | ht
    · exact ⟨h.kids a (by simp) b (by simp), h.kids b (by simp) a (by simp), h.balanced a (by simp), h.balanced b (by simp)⟩
    · exact h.balanced t (by simp [ht])
  · intro t ht
    rcases mem_putBehind.1 ht with rfl | ht
    · exact ⟨rfl, h.summed a (by simp), h.summed b (by simp)⟩
    · exact h.summed t (by simp [ht])

theorem MergeQueue.mergeAll : ∀ (fuel : Nat) {q : List HTree}, MergeQueue q → MergeQueue (HTree.mergeAll fuel q) := by
  intro fuel
  induction fuel with
  | zero => intro q h; simpa [HTree.mergeAll] using h
  | succ fuel ih =>
    intro q h
    match q, h with
    | [], h => simpa [HTree.mergeAll] using h
    | [t], h => simpa [HTree.mergeAll] using h
    | a :: b :: rest, h => exact ih h.merge

/-- The sorted leaf list. -/
def HTree.sortedLeaves (es : List (Byte × Nat)) : List HTree := (es.map fun e => HTree.leaf e.1 e.2).foldl HTree.putBehind []

theorem mem_sortedLeaves {es : List (Byte × Nat)} {t : HTree} :
    t ∈ HTree.sortedLeaves es ↔ ∃ e ∈ es, t = .leaf e.1 e.2 := by
  rw [HTree.sortedLeaves, (foldl_putBehind_perm _ []).mem_iff, List.nil_append, List.mem_map]
  simp [eq_comm]

theorem sortedLeaves_queue (es : List (Byte × Nat)) : MergeQueue (HTree.sortedLeaves es) := by
  have hleaf : ∀ t ∈ HTree.sortedLeaves es, ∃ s c, t = .leaf s c := fun t ht => by
    obtain ⟨e, -, rfl⟩ := mem_sortedLeaves.1 ht; exact ⟨_, _, rfl⟩
  refine ⟨?_, ?_, ?_, ?_⟩
  · exact (sort_by_insertion HTree.count HTree.putBehind (fun q p => rfl) _ [] List.Pairwise.nil).1
  · intro t ht u _; obtain ⟨s, c, rfl⟩ := hleaf t ht; trivial
  · intro t ht; obtain ⟨s, c, rfl⟩ := hleaf t ht; trivial
  · intro t ht; obtain ⟨s, c, rfl⟩ := hleaf t ht; trivial

theorem HTree.build_eq (es : List (Byte × Nat)) : HTree.build es = (HTree.mergeAll es.length (HTree.sortedLeaves es)).head? := rfl

theorem sortedLeaves_length (es : List (Byte × Nat)) : (HTree.sortedLeaves es).length = es.length := by
  rw [HTree.sortedLeaves, (foldl_putBehind_perm _ []).length_eq]; simp

/-- The tree of a leaf list is what merging leaves. -/
theorem mergeAll_of_build {es : List (Byte × Nat)} {t : HTree} (h : HTree.build es = some t) :
    HTree.mergeAll es.length (HTree.sortedLeaves es) = [t] := by
  rw [HTree.build_eq] at h
  have hne : HTree.sortedLeaves es ≠ [] := by
    intro h0
    have : es = [] := List.length_eq_zero_iff.1 (by rw [← sortedLeaves_length, h0]; rfl)
    subst this
    simp [HTree.mergeAll, HTree.sortedLeaves] at h
  obtain ⟨u, hu⟩ := HTree.mergeAll_length es.length _ hne (by rw [sortedLeaves_length]; omega)
  rw [hu] at h ⊢
  simpa using h

theorem balanced_of_build {es : List (Byte × Nat)} {t : HTree} (h : HTree.build es = some t) : t.balanced ∧ t.summed := by
  have := (sortedLeaves_queue es).mergeAll es.length
  rw [mergeAll_of_build h] at this
  exact ⟨this.balanced t (by simp), this.summed t (by simp)⟩

/-! ## The Fibonacci bound (R97) -/

/-- A balanced tree whose leaves count at least 1 counts at least 1, counts at least F(d + 2) when it has a path of
length d, and a bound on its children's counts is at least F(d + 1). -/
theorem fib_le_count :
    ∀ (t : HTree), t.balanced → t.summed → (∀ e ∈ t.leafPairs, 1 ≤ e.2) →
      1 ≤ t.count ∧ (∀ {b : Byte} {p : List Bool}, (b, p) ∈ t.paths → Nat.fib (p.length + 2) ≤ t.count) ∧
      ∀ c, 1 ≤ c → t.kidsLe c → ∀ {b : Byte} {p : List Bool}, (b, p) ∈ t.paths → Nat.fib (p.length + 1) ≤ c := by
  intro t
  induction t with
  | leaf s c =>
    intro _ _ hl
    have h1 : 1 ≤ c := hl (s, c) (by simp [HTree.leafPairs])
    refine ⟨h1, ?_, ?_⟩
    · intro b p h
      simp [HTree.paths] at h
      simpa [h.2, HTree.count] using h1
    · intro e he _ b p h
      simp [HTree.paths] at h
      simpa [h.2] using he
  | node n l r ihl ihr =>
    intro hb hs hl
    obtain ⟨pl, al, bl⟩ := ihl hb.2.2.1 hs.2.1 fun e he => hl e (by simp [HTree.leafPairs, he])
    obtain ⟨pr, ar, br⟩ := ihr hb.2.2.2 hs.2.2 fun e he => hl e (by simp [HTree.leafPairs, he])
    have hc : (HTree.node n l r).count = l.count + r.count := hs.1
    refine ⟨by omega, ?_, ?_⟩
    · intro b p h
      simp only [HTree.paths, List.mem_append, List.mem_map, Prod.mk.injEq, Prod.exists] at h
      rcases h with ⟨x, q, hq, rfl, rfl⟩ | ⟨x, q, hq, rfl, rfl⟩
      · have h1 := al hq
        have h2 := bl r.count pr hb.1 hq
        rw [List.length_cons, show q.length + 1 + 2 = (q.length + 1) + 2 by omega, Nat.fib_add_two, hc]
        rw [show q.length + 1 + 1 = q.length + 2 by omega]
        omega
      · have h1 := ar hq
        have h2 := br l.count pl hb.2.1 hq
        rw [List.length_cons, show q.length + 1 + 2 = (q.length + 1) + 2 by omega, Nat.fib_add_two, hc]
        rw [show q.length + 1 + 1 = q.length + 2 by omega]
        omega
    · intro e _ hk b p h
      simp only [HTree.paths, List.mem_append, List.mem_map, Prod.mk.injEq, Prod.exists] at h
      rcases h with ⟨x, q, hq, rfl, rfl⟩ | ⟨x, q, hq, rfl, rfl⟩
      · exact (al hq).trans hk.1
      · exact (ar hq).trans hk.2

/-- F(48) = 4807526976 (R97). -/
theorem fib_48 : Nat.fib 48 = 4807526976 := by norm_num [Nat.fib_add_two]

/-- A full binary tree has no path longer than one less than its leaves (R97). -/
theorem length_lt_leaves : ∀ (t : HTree) {b : Byte} {p : List Bool}, (b, p) ∈ t.paths → p.length < t.leaves := by
  intro t
  have pos : ∀ u : HTree, 1 ≤ u.leaves := by
    intro u
    induction u with
    | leaf => exact le_refl _
    | node n l r ihl _ => simp only [HTree.leaves]; omega
  induction t with
  | leaf s c => intro b p h; simp [HTree.paths] at h; simp [h.2, HTree.leaves]
  | node n l r ihl ihr =>
    intro b p h
    have := pos l
    have := pos r
    simp only [HTree.paths, List.mem_append, List.mem_map, Prod.mk.injEq, Prod.exists] at h
    rcases h with ⟨x, q, hq, rfl, rfl⟩ | ⟨x, q, hq, rfl, rfl⟩
    · have := ihl hq; simp only [List.length_cons, HTree.leaves]; omega
    · have := ihr hq; simp only [List.length_cons, HTree.leaves]; omega

/-! ## Depth against queue order (R134) -/

/-- `u` hangs in `t` at depth `d`. -/
def HTree.hasAt : HTree → HTree → Nat → Prop
  | t, u, 0 => t = u
  | .leaf _ _, _, _ + 1 => False
  | .node _ l r, u, d + 1 => l.hasAt u d ∨ r.hasAt u d

theorem HTree.hasAt_child {n : Nat} {l r : HTree} :
    ∀ {t : HTree} {d : Nat}, t.hasAt (.node n l r) d → t.hasAt l (d + 1) ∧ t.hasAt r (d + 1) := by
  intro t
  induction t with
  | leaf s c =>
    intro d h
    cases d with
    | zero => simp [hasAt] at h
    | succ d => exact h.elim
  | node m x y ihx ihy =>
    intro d h
    cases d with
    | zero =>
      simp only [hasAt] at h
      cases h
      exact ⟨.inl (by simp [hasAt]), .inr (by simp [hasAt])⟩
    | succ d =>
      rcases h with h | h
      · exact ⟨.inl (ihx h).1, .inl (ihx h).2⟩
      · exact ⟨.inr (ihy h).1, .inr (ihy h).2⟩

theorem HTree.mem_paths_of_hasAt {s : Byte} {c : Nat} :
    ∀ {t : HTree} {d : Nat}, t.hasAt (.leaf s c) d → ∃ p : List Bool, (s, p) ∈ t.paths ∧ p.length = d := by
  intro t
  induction t with
  | leaf x e =>
    intro d h
    cases d with
    | zero => simp only [hasAt] at h; cases h; exact ⟨[], by simp [paths], rfl⟩
    | succ d => exact h.elim
  | node m x y ihx ihy =>
    intro d h
    cases d with
    | zero => simp [hasAt] at h
    | succ d =>
      rcases h with h | h
      · obtain ⟨p, hp, rfl⟩ := ihx h
        exact ⟨false :: p, List.mem_append_left _ (List.mem_map.2 ⟨_, hp, rfl⟩), rfl⟩
      · obtain ⟨p, hp, rfl⟩ := ihy h
        exact ⟨true :: p, List.mem_append_right _ (List.mem_map.2 ⟨_, hp, rfl⟩), rfl⟩

/-- `e` stands before `f` in the queue: it ends up at least as deep, and no more than one deeper than an internal node. -/
def HTree.deeper (e f : HTree × Nat) : Prop := f.2 ≤ e.2 ∧ ((∃ n l r, f.1 = .node n l r) → e.2 ≤ f.2 + 1)

/-- What stands earlier in the queue ends up at least as deep in the tree that merging leaves. -/
theorem mergeAll_depths {T : HTree} :
    ∀ (fuel : Nat) {q : List HTree}, MergeQueue q → HTree.mergeAll fuel q = [T] →
      ∃ L : List (HTree × Nat), L.map Prod.fst = q ∧ (∀ e ∈ L, T.hasAt e.1 e.2) ∧ L.Pairwise HTree.deeper := by
  intro fuel
  have single : ∃ L : List (HTree × Nat), L.map Prod.fst = [T] ∧ (∀ e ∈ L, T.hasAt e.1 e.2) ∧ L.Pairwise HTree.deeper :=
    ⟨[(T, 0)], rfl, by simp [HTree.hasAt], by simp⟩
  induction fuel with
  | zero => intro q _ h; simp only [HTree.mergeAll] at h; rw [h]; exact single
  | succ fuel ih =>
    intro q hq h
    match q, hq with
    | [], _ => simp [HTree.mergeAll] at h
    | [t], _ => simp only [HTree.mergeAll] at h; rw [h]; exact single
    | a :: b :: rest, hq =>
      have hab : a.count ≤ b.count := (List.pairwise_cons.1 hq.sorted).1 b (by simp)
      have hrest : rest.Pairwise fun t u => t.count ≤ u.count := (List.pairwise_cons.1 (List.pairwise_cons.1 hq.sorted).2).2
      obtain ⟨L, hL, hat, hp⟩ := ih hq.merge h
      obtain ⟨h1, h2⟩ := countP_le_prefix HTree.count (a.count + b.count) rest hrest
      change L.map Prod.fst = rest.take (rest.countP fun j => decide (j.count ≤ a.count + b.count)) ++ _ ::
        rest.drop (rest.countP fun j => decide (j.count ≤ a.count + b.count)) at hL
      generalize (rest.countP fun j => decide (j.count ≤ a.count + b.count)) = k at hL h1 h2
      obtain ⟨A, M, rfl, hA, hM⟩ := List.map_eq_append_iff.1 hL
      obtain ⟨⟨p, δ⟩, B, rfl, rfl, hB⟩ := List.map_eq_cons_iff.1 hM
      have hat' := HTree.hasAt_child (hat (.node (a.count + b.count) a b, δ) (by simp))
      rw [List.pairwise_append, List.pairwise_cons] at hp
      obtain ⟨pA, ⟨pB, pBB⟩, pAB⟩ := hp
      -- no internal node stands behind the new one
      have hBleaf : ∀ f ∈ B, ¬ ∃ n l r, f.1 = HTree.node n l r := by
        rintro f hf ⟨n, l, r, hfe⟩
        have hfd : f.1 ∈ rest.drop k := hB ▸ List.mem_map.2 ⟨f, hf, rfl⟩
        have hfr : f.1 ∈ a :: b :: rest := by simp [List.mem_of_mem_drop hfd]
        have hk := hq.kids f.1 hfr a (by simp)
        have hs := hq.summed f.1 hfr
        have hlt := h2 f.1 hfd
        rw [hfe] at hk hs hlt
        have hs1 : n = l.count + r.count := hs.1
        have hk1 := hk.1
        have hk2 := hk.2
        have hlt' : a.count + b.count < n := hlt
        omega
      have hnode : ∃ n l r, ((HTree.node (a.count + b.count) a b, δ) : HTree × Nat).1 = HTree.node n l r := ⟨_, _, _, rfl⟩
      refine ⟨(a, δ + 1) :: (b, δ + 1) :: (A ++ B), ?_, ?_, ?_⟩
      · simp only [List.map_cons, List.map_append]
        rw [hA, hB, List.take_append_drop]
      · intro e he
        simp only [List.mem_cons, List.mem_append] at he
        rcases he with rfl | rfl | he | he
        · exact hat'.1
        · exact hat'.2
        · exact hat e (by simp [he])
        · exact hat e (by simp [he])
      · have hA' : ∀ f ∈ A ++ B, f.2 ≤ δ + 1 ∧ ((∃ n l r, f.1 = HTree.node n l r) → δ + 1 ≤ f.2 + 1) := by
          intro f hf
          rcases List.mem_append.1 hf with hf | hf
          · have := pAB f hf (.node (a.count + b.count) a b, δ) (by simp)
            have h3 : δ ≤ f.2 := this.1
            have h4 : f.2 ≤ δ + 1 := this.2 hnode
            exact ⟨h4, fun _ => by omega⟩
          · have h3 : f.2 ≤ δ := (pB f hf).1
            exact ⟨by omega, fun hn => absurd hn (hBleaf f hf)⟩
        rw [List.pairwise_cons, List.pairwise_cons, List.pairwise_append]
        refine ⟨?_, ?_, pA, pBB, fun e he f hf => pAB e he f (by simp [hf])⟩
        · intro f hf
          rcases List.mem_cons.1 hf with rfl | hf
          · exact ⟨le_refl _, fun _ => Nat.le_succ _⟩
          · exact hA' f hf
        · intro f hf; exact hA' f hf

/-- A leaf that counts more is at most as deep (R134). -/
theorem depth_of_counts {es : List (Byte × Nat)} {t : HTree} (h : HTree.build es = some t) {x y : Byte × Nat} (hx : x ∈ es)
    (hy : y ∈ es) (hxy : y.2 < x.2) :
    ∃ p q : List Bool, (x.1, p) ∈ t.paths ∧ (y.1, q) ∈ t.paths ∧ p.length ≤ q.length := by
  obtain ⟨L, hL, hat, hp⟩ := mergeAll_depths es.length (sortedLeaves_queue es) (mergeAll_of_build h)
  have find : ∀ e ∈ es, ∃ d, (HTree.leaf e.1 e.2, d) ∈ L := by
    intro e he
    have : HTree.leaf e.1 e.2 ∈ L.map Prod.fst := by rw [hL]; exact mem_sortedLeaves.2 ⟨e, he, rfl⟩
    obtain ⟨⟨u, d⟩, hm, rfl⟩ := List.mem_map.1 this
    exact ⟨d, hm⟩
  obtain ⟨dx, hdx⟩ := find x hx
  obtain ⟨dy, hdy⟩ := find y hy
  have hsort : L.Pairwise fun e f => e.1.count ≤ f.1.count := by
    have := (sortedLeaves_queue es).sorted
    rw [← hL, List.pairwise_map] at this
    exact this
  have hle : dx ≤ dy := by
    obtain ⟨i, hi, hix⟩ := List.getElem_of_mem hdx
    obtain ⟨j, hj, hjy⟩ := List.getElem_of_mem hdy
    rcases Nat.lt_trichotomy i j with hij | hij | hij
    · have := List.pairwise_iff_getElem.1 hsort i j hi hj hij
      rw [hix, hjy] at this
      simp only [HTree.count] at this
      omega
    · subst hij
      rw [hix] at hjy
      have : dx = dy := congrArg Prod.snd hjy
      omega
    · have := (List.pairwise_iff_getElem.1 hp j i hj hi hij).1
      rwa [hix, hjy] at this
  obtain ⟨p, hp1, hp2⟩ := HTree.mem_paths_of_hasAt (hat _ hdx)
  obtain ⟨q, hq1, hq2⟩ := HTree.mem_paths_of_hasAt (hat _ hdy)
  exact ⟨p, q, hp1, hq1, by omega⟩

/-! ## The leaf list of an input -/

theorem mem_frequencies {d : List Byte} {e : Byte × Nat} : e ∈ frequencies d ↔ d.count e.1 ≠ 0 ∧ e.2 = d.count e.1 := by
  obtain ⟨b, c⟩ := e
  simp only [frequencies, List.mem_filterMap]
  constructor
  · rintro ⟨s, -, h⟩
    split at h <;> cases h
    exact ⟨‹_›, rfl⟩
  · rintro ⟨h, rfl⟩
    exact ⟨b, mem_allSymbols b, by simp [h]⟩

theorem frequencies_nodup (d : List Byte) : ((frequencies d).map Prod.fst).Nodup := by
  have : (frequencies d).map Prod.fst = allSymbols.filter fun s => decide (d.count s ≠ 0) := by
    unfold frequencies
    generalize allSymbols = l
    induction l with
    | nil => rfl
    | cons a l ih =>
      rw [List.filterMap_cons, List.filter_cons]
      by_cases h : d.count a = 0 <;> simp [h, ih]
  rw [this]
  exact allSymbols_nodup.filter _

theorem sum_frequencies (d : List Byte) : ((frequencies d).map Prod.snd).sum = d.length := by
  rw [← sum_count d]
  unfold frequencies
  generalize allSymbols = l
  induction l with
  | nil => rfl
  | cons a l ih =>
    rw [List.filterMap_cons, List.map_cons, List.sum_cons, ← ih]
    by_cases h : d.count a = 0 <;> simp [h]

/-- A tree has its leaf list's leaves, counts sums, and counts them all. -/
theorem build_leafPairs {es : List (Byte × Nat)} {t : HTree} (h : HTree.build es = some t) :
    t.leafPairs.Perm es ∧ t.summed ∧ t.count = (es.map Prod.snd).sum := by
  have hne : es ≠ [] := by rintro rfl; simp [HTree.build, HTree.mergeAll] at h
  obtain ⟨t', h', hp, hs, hc, -⟩ := HTree.build_spec es hne
  rw [h] at h'; cases h'
  exact ⟨hp, hs, hc⟩

theorem build_nodup {es : List (Byte × Nat)} {t : HTree} (h : HTree.build es = some t) (hn : (es.map Prod.fst).Nodup) :
    (t.paths.map Prod.fst).Nodup := by
  rw [HTree.paths_fst]
  exact ((build_leafPairs h).1.map _).nodup_iff.2 hn

end Sys2Proof.Machine
end

