-- ==== Sys2Proof/Laws/Container.lean ====
section
/-! SUPPORT. The container and the two functions (R2, R124): what DECODE's function makes of what ENCODE's writes. -/

namespace Sys2Proof.Machine

/-- Some path is as long as the tree is deep. -/
theorem HTree.exists_deepest (t : HTree) : ∃ b p, (b, p) ∈ t.paths ∧ p.length = t.depth := by
  induction t with
  | leaf s c => exact ⟨s, [], by simp [HTree.paths], rfl⟩
  | node c l r hl hr =>
    obtain ⟨b, p, hp, hpl⟩ := hl
    obtain ⟨b', p', hp', hpl'⟩ := hr
    by_cases h : l.depth ≤ r.depth
    · exact ⟨b', true :: p', by simp [HTree.paths, hp'], by simp [HTree.depth, hpl']; omega⟩
    · exact ⟨b, false :: p, by simp [HTree.paths, hp], by simp [HTree.depth, hpl]; omega⟩

/-- The symbols with a code are those at the leaves (R99). -/
theorem HTree.codeOf_isSome {t : HTree} {b : Byte} : (t.codeOf b).isSome ↔ b ∈ t.paths.map Prod.fst := by
  rw [← HTree.codes_fst, HTree.codeOf]
  constructor
  · intro h
    obtain ⟨p, hp⟩ := Option.isSome_iff_exists.1 h
    exact List.mem_map.2 ⟨_, mem_of_lookup hp, rfl⟩
  · intro h
    obtain ⟨y, hy⟩ := lookup_isSome_of_mem h
    simp [hy]

/-- The length of a container (R124). -/
theorem containerOf_length (t : HTree) (d : List Byte) :
    (containerOf t d).length = 1 + hdrBytes (frequencies d).length + ceil8 (codeBits t d).length := by
  simp [containerOf, headerBytes_length]; omega

/-- Eight bits a byte. -/
theorem flatMap_byteBits_length (l : List Byte) : (l.flatMap byteBits).length = 8 * l.length := by
  induction l with
  | nil => rfl
  | cons x l ih => rw [List.flatMap_cons, List.length_append, byteBits_length, ih, List.length_cons]; omega

/-- The bits of the first bytes. -/
theorem flatMap_byteBits_take (l : List Byte) : ∀ m, (l.take m).flatMap byteBits = (l.flatMap byteBits).take (8 * m) := by
  induction l with
  | nil => simp
  | cons x l ih =>
    intro m
    cases m with
    | zero => simp
    | succ m =>
      rw [List.take_succ_cons, List.flatMap_cons, List.flatMap_cons, ih,
        show 8 * (m + 1) = (byteBits x).length + 8 * m by rw [byteBits_length]; omega, List.take_length_add_append]

/-- A count read from a header has 32 bits. -/
theorem headerEntries_lt (k : List Byte) (n : Nat) : ∀ e ∈ headerEntries k n, e.2 < 2 ^ 32 := by
  intro e he
  obtain ⟨i, -, rfl⟩ := List.mem_map.1 he
  exact beNat4_lt _

/-- MKLEAF's list from the table of a header, ascending by symbol (R82, R105). -/
theorem leafList_eq {es : List (Byte × Nat)} {f : FreqTable} {es' : List (Byte × Count)} (hc : ∀ e ∈ es, e.2 < 2 ^ 32)
    (hf : ∀ b, f.get b = (es.lookup b).map (BitVec.ofNat 32)) (hpw : es'.Pairwise (fun a b => a.1.toNat < b.1.toNat))
    (hm : ∀ b c, (b, c) ∈ es' ↔ f.get b = some c) : leafList es = es'.map fun e => (e.1, e.2.toNat) := by
  refine eq_of_pairwise_of_mem (filterMap_allSymbols_pairwise _) (by rw [List.pairwise_map]; exact hpw) ?_
  rintro ⟨b, c⟩
  rw [leafList, mem_filterMap_allSymbols]
  simp only [List.mem_map, Prod.mk.injEq, Prod.exists]
  constructor
  · intro h
    refine ⟨b, BitVec.ofNat 32 c, (hm _ _).2 (by rw [hf, h]; rfl), rfl, ?_⟩
    have := hc _ (mem_of_lookup h)
    rw [BitVec.toNat_ofNat, Nat.mod_eq_of_lt this]
  · rintro ⟨b', c', h, rfl, rfl⟩
    rw [hm, hf] at h
    obtain ⟨x, hx, rfl⟩ := Option.map_eq_some_iff.1 h
    have := hc _ (mem_of_lookup hx)
    rw [hx, BitVec.toNat_ofNat, Nat.mod_eq_of_lt this]

/-- The leaf list holds the entries, in another order. -/
theorem leafList_perm (es : List (Byte × Nat)) (h : (es.map Prod.fst).Nodup) : (leafList es).Perm es := by
  have h1 : (leafList es).Nodup := by
    have := filterMap_allSymbols_pairwise (fun s => es.lookup s)
    exact List.Pairwise.imp (fun hab e => by rw [e] at hab; omega) this
  have h2 : es.Nodup := h.of_map
  refine (List.perm_ext_iff_of_nodup h1 h2).2 ?_
  rintro ⟨b, c⟩
  rw [leafList, mem_filterMap_allSymbols]
  exact ⟨mem_of_lookup, lookup_of_mem h⟩

/-- A count fits its field (R101). -/
theorem frequencies_lt {d : List Byte} (hd : d.length < 2 ^ 32) : ∀ e ∈ frequencies d, e.2 < 2 ^ 32 := by
  intro e he
  have := (mem_frequencies.1 he).2
  rw [this]; exact lt_of_le_of_lt List.count_le_length hd

/-- The counts are listed by ascending symbol (R82). -/
theorem frequencies_pairwise (d : List Byte) : (frequencies d).Pairwise (fun a b => a.1.toNat < b.1.toNat) := by
  have := filterMap_allSymbols_pairwise (fun b => if d.count b = 0 then none else some (d.count b))
  have e : frequencies d = allSymbols.filterMap fun s =>
      ((fun b => if d.count b = 0 then none else some (d.count b)) s).map fun y => (s, y) := by
    unfold frequencies; congr 1; funext b; by_cases h : d.count b = 0 <;> simp [h]
  rw [e]; exact this

/-- The leaf list of the header ENCODE writes is the one it was written from (R83). -/
theorem leafList_frequencies (d : List Byte) : leafList (frequencies d) = frequencies d := by
  refine eq_of_pairwise_of_mem (filterMap_allSymbols_pairwise _) (frequencies_pairwise d) ?_
  rintro ⟨b, c⟩
  rw [leafList, mem_filterMap_allSymbols]
  exact ⟨mem_of_lookup, lookup_of_mem (frequencies_nodup d)⟩

/-- A tree comes from an input that is not empty. -/
theorem ne_nil_of_build {d : List Byte} {tree : HTree} (hb : HTree.build (frequencies d) = some tree) : d ≠ [] := by
  rintro rfl; simp [frequencies, HTree.build, HTree.mergeAll] at hb

/-- The root counts the input (R94). -/
theorem count_of_build {d : List Byte} {tree : HTree} (hb : HTree.build (frequencies d) = some tree) : tree.count = d.length := by
  rw [(build_leafPairs hb).2.2, sum_frequencies]

/-- Every byte of the input has a code (R99). -/
theorem codeOf_ne_none {d : List Byte} {tree : HTree} (hb : HTree.build (frequencies d) = some tree) :
    ∀ b ∈ d, tree.codeOf b ≠ none := by
  intro b hbd
  rw [← Option.isSome_iff_ne_none, HTree.codeOf_isSome, HTree.paths_fst]
  have : b ∈ (frequencies d).map Prod.fst := by
    refine List.mem_map.2 ⟨(b, d.count b), mem_frequencies.2 ⟨?_, rfl⟩, rfl⟩
    simpa [List.count_eq_zero] using hbd
  exact (((build_leafPairs hb).1.map Prod.fst).mem_iff).2 this

/-- ENCODE writes at least one code bit (R110). -/
theorem codeBits_length_pos {d : List Byte} {tree : HTree} (hb : HTree.build (frequencies d) = some tree) :
    0 < (codeBits tree d).length := by
  rw [List.length_pos_iff]
  intro h
  have := HTree.read_codeBits (codeOf_ne_none hb)
  rw [h] at this; simp at this; exact ne_nil_of_build hb this

/-- DECODE of a container cut after `m` payload bytes walks the code bits that are left. -/
theorem decodeResult_cut {d : List Byte} {tree : HTree} (hb : HTree.build (frequencies d) = some tree) (hd : d.length < 2 ^ 32) {m : Nat}
    (hm : 1 ≤ m) (hm2 : m ≤ ceil8 (codeBits tree d).length) :
    decodeResult ((containerOf tree d).take (1 + hdrBytes (frequencies d).length + m)) =
      walkResult tree ((codeBits tree d).take (8 * m - padOf (codeBits tree d).length)) := by
  have hle : (frequencies d).length ≤ 256 := length_le_of_nodup (frequencies_nodup d)
  have hne : (frequencies d).length ≠ 0 := by
    intro h
    have := sum_frequencies d
    rw [List.length_eq_zero_iff.1 h] at this
    exact ne_nil_of_build hb (List.length_eq_zero_iff.1 this.symm)
  have htk : (containerOf tree d).take (1 + hdrBytes (frequencies d).length + m) =
      BitVec.ofNat 8 (padOf (codeBits tree d).length) :: (headerBytes (frequencies d) ++ (packBits (codeBits tree d)).take m) := by
    rw [containerOf, show 1 + hdrBytes (frequencies d).length + m = (hdrBytes (frequencies d).length + m) + 1 by omega,
      List.take_succ_cons, ← headerBytes_length, List.take_length_add_append]
  generalize hk : (containerOf tree d).take (1 + hdrBytes (frequencies d).length + m) = k at htk
  obtain ⟨k1, k2⟩ := headerEntries_headerBytes htk (by omega) (frequencies_lt hd)
  have hh : hdrBytes (frequencies d).length = 2 + 5 * (frequencies d).length := rfl
  have hkl : k.length = 1 + hdrBytes (frequencies d).length + m := by
    rw [htk, List.length_cons, List.length_append, headerBytes_length, List.length_take, packBits_length]; omega
  have hdrop : k.drop (1 + hdrBytes (frequencies d).length) = (packBits (codeBits tree d)).take m := by
    rw [htk, Nat.add_comm, List.drop_succ_cons, ← headerBytes_length, List.drop_left]
  have hpad : (k.getD 0 0).toNat = padOf (codeBits tree d).length := by
    rw [htk, List.getD_cons_zero, BitVec.toNat_ofNat]; apply Nat.mod_eq_of_lt; unfold padOf; omega
  simp only [decodeResult]
  rw [k1, k2, hdrop, hpad, leafList_frequencies, hb, hkl]
  have hp7 : padOf (codeBits tree d).length < 8 := by unfold padOf; omega
  rw [if_neg (by omega), if_neg (by omega), if_neg (by simp [hne, frequencies_nodup]), if_neg (by
      intro h; have := congrArg List.length h; rw [List.length_take, packBits_length] at this; simp at this; omega), if_neg (by omega)]
  simp only
  congr 1
  have hfl : ((packBits (codeBits tree d)).take m).flatMap byteBits = ((packBits (codeBits tree d)).flatMap byteBits).take (8 * m) := by
    exact flatMap_byteBits_take _ _
  have hlenm : ((packBits (codeBits tree d)).take m).length = m := by rw [List.length_take, packBits_length]; omega
  rw [payloadBits, hfl, hlenm, flatMap_byteBits_packBits, List.take_take, List.take_append_of_le_length,
    show min (8 * m - padOf (codeBits tree d).length) (8 * m) = 8 * m - padOf (codeBits tree d).length by omega]
  unfold padOf ceil8 at *; omega

/-- The tree is full (R99). -/
theorem HTree.sum_paths (t : HTree) : ∀ n, t.depth ≤ n → (t.paths.map fun e => 2 ^ (n - e.2.length)).sum = 2 ^ n := by
  induction t with
  | leaf s c => intro n _; simp [HTree.paths]
  | node c l r hl hr =>
    intro n hn
    simp only [HTree.depth] at hn
    obtain ⟨n, rfl⟩ : ∃ m, n = m + 1 := ⟨n - 1, by omega⟩
    simp only [HTree.paths, List.map_append, List.map_map, List.sum_append, Function.comp_def, List.length_cons, Nat.add_sub_add_right]
    rw [hl n (by omega), hr n (by omega)]; ring

/-- A sum over all symbols with an entry is the sum over the entries. -/
theorem sum_lookup (l : List (Byte × List Bool)) (h : (l.map Prod.fst).Nodup) (g : List Bool → Nat) :
    (allSymbols.map fun b => ((l.lookup b).map g).getD 0).sum = (l.map fun e => g e.2).sum := by
  have h1 : ((allSymbols.filterMap fun b => (l.lookup b).map fun p => (b, p)).Perm l) := by
    have hn1 : (allSymbols.filterMap fun b => (l.lookup b).map fun p => (b, p)).Nodup := by
      have := filterMap_allSymbols_pairwise (fun s => l.lookup s)
      exact List.Pairwise.imp (fun hab e => by rw [e] at hab; omega) this
    refine (List.perm_ext_iff_of_nodup hn1 h.of_map).2 ?_
    rintro ⟨b, c⟩
    rw [mem_filterMap_allSymbols]
    exact ⟨mem_of_lookup, lookup_of_mem h⟩
  rw [← (h1.map fun e => g e.2).sum_eq]
  generalize allSymbols = a
  induction a with
  | nil => rfl
  | cons b a ih =>
    rw [List.map_cons, List.sum_cons, ih, List.filterMap_cons]
    cases l.lookup b <;> simp

end Sys2Proof.Machine
end

