-- ==== Sys2Proof/Laws/PerInstr.lean ====
section
/-! SUPPORT. What is said of every operation as syntax, one lemma per constructor: its word is well formed and decodes
to it (R60, R61). -/

namespace Sys2Proof.Laws.DecodeEncode

/-- The operation's word is one of the opcode map's, and the decoder reads the operation from it. -/
def Statement (i : Instr) : Prop := i.wf = true ∧ (encode i).wf = true ∧ decode (encode i) = .ok i

theorem encode : Statement .encode := ⟨rfl, rfl, rfl⟩
theorem decode : Statement .decode := ⟨rfl, rfl, rfl⟩
theorem fcount : Statement .fcount := ⟨rfl, rfl, rfl⟩
theorem mkleaf : Statement .mkleaf := ⟨rfl, rfl, rfl⟩
theorem tbuild : Statement .tbuild := ⟨rfl, rfl, rfl⟩
theorem cgen : Statement .cgen := ⟨rfl, rfl, rfl⟩
theorem bpack : Statement .bpack := ⟨rfl, rfl, rfl⟩
theorem ftser : Statement .ftser := ⟨rfl, rfl, rfl⟩
theorem ftdes : Statement .ftdes := ⟨rfl, rfl, rfl⟩
theorem bunpk : Statement .bunpk := ⟨rfl, rfl, rfl⟩
theorem twalk : Statement .twalk := ⟨rfl, rfl, rfl⟩

end Sys2Proof.Laws.DecodeEncode
end

