-- ==== Sys2Proof/Laws/Run.lean ====
section
/-! SUPPORT. Runs of the core step by step: a phase of a command, an idle machine, a command from its write to `CMD`. -/

namespace Sys2Proof.Machine

/-- A run takes one step and goes on. -/
theorem run_step {k : Nat} {s t : State} (h : step s = .next t) :
    Host.Core.run Sys2Proof.core (k + 1) s = Host.Core.run Sys2Proof.core k t := by
  have h' : Sys2Proof.core.step s = .next t := h
  simp only [Host.Core.run, h']

/-- With an empty script a step is the core's turn. -/
theorem step_phase {s : State} {i : Instr} (hs : s.script = []) (hd : decodePhase s.PHASE.code = .ok i) : step s = exec i s := by
  simp only [step, nextMove, hs, coreTurn, hd]

/-- With an empty script an idle core waits. -/
theorem step_idle {s : State} (hs : s.script = []) (hp : s.PHASE = .idle) : step s = .next s := by
  simp only [step, nextMove, hs, coreTurn, hp]
  rfl

/-- A run of a command whose script is empty begins with the phase `PHASE` names. -/
theorem run_phase {k : Nat} {s t : State} {i : Instr} (hs : s.script = []) (hd : decodePhase s.PHASE.code = .ok i)
    (h : exec i s = .next t) : Host.Core.run Sys2Proof.core (k + 1) s = Host.Core.run Sys2Proof.core k t :=
  run_step ((step_phase hs hd).trans h)

/-- A run of an idle machine with an empty script stays where it is. -/
theorem run_idle {s : State} (hs : s.script = []) (hp : s.PHASE = .idle) : ∀ k : Nat, Host.Core.run Sys2Proof.core k s = .next s
  | 0 => rfl
  | k + 1 => (run_step (step_idle hs hp)).trans (run_idle hs hp k)

/-- A run of a command begins with its acceptance. -/
theorem runCommand_step {k : Nat} {s t : State} {v : BitVec 40} {i : Instr} (hd : decodeCmdWrite v = .ok i)
    (h : exec i (s.setScript []) = .next t) : runCommand (k + 1) v s = Host.Core.run Sys2Proof.core k t := by
  refine run_step (k := k) (s := s.setScript [.txn (.wr 0 v)]) (Eq.trans ?_ h)
  simp only [step, nextMove, setScript_script, execEvent, execTxn, writeRegister, writeCommand, hd]
  rfl

end Sys2Proof.Machine
end

