-- ==== Sys2Proof/Tests/Slice0.lean ====
section
/-! SUPPORT. The model's own tests: words written out from R61, ill-formed terms the checks refuse, one step per
operation against the vectors of spec/95 (V..., P...), and for every statement that has hypotheses a state and operands
that meet them. Expected results come from the spec's tables, never from the model. -/

namespace Sys2Proof.Tests

open Sys2Proof.Machine
set_option Elab.async false

/-! ## Words of the opcode map, bit by bit (R61) -/

theorem test_decode_word_encode : decode (.cmd 0b00000001) = .ok .encode := rfl
theorem test_decode_word_decode : decode (.cmd 0b00000010) = .ok .decode := rfl
theorem test_decode_word_fcount : decode (.phase 0b0001) = .ok .fcount := rfl
theorem test_decode_word_mkleaf : decode (.phase 0b0010) = .ok .mkleaf := rfl
theorem test_decode_word_tbuild : decode (.phase 0b0011) = .ok .tbuild := rfl
theorem test_decode_word_cgen : decode (.phase 0b0100) = .ok .cgen := rfl
theorem test_decode_word_bpack : decode (.phase 0b0101) = .ok .bpack := rfl
theorem test_decode_word_ftser : decode (.phase 0b0110) = .ok .ftser := rfl
theorem test_decode_word_ftdes : decode (.phase 0b0111) = .ok .ftdes := rfl
theorem test_decode_word_bunpk : decode (.phase 0b1000) = .ok .bunpk := rfl
theorem test_decode_word_twalk : decode (.phase 0b1001) = .ok .twalk := rfl

/-- R62, V115: reserved values, by name. -/
theorem test_decode_reserved :
    decode (.cmd 0x00) = .error .reservedCommand ∧ decode (.cmd 0x03) = .error .reservedCommand ∧
    decode (.cmd 0xFF) = .error .reservedCommand ∧ decodeCmdWrite 0x101 = .error .reservedCommand ∧
    decode (.phase 0x0) = .error .idlePhase ∧ decode (.phase 0xA) = .error .reservedPhase ∧
    decode (.phase 0xF) = .error .reservedPhase := by decide

/-- The opcode table's numbering: 8 bits for the commands, 4 bits for the phases. -/
theorem test_table_words :
    decodeTableWord 8 0x01 = some .encode ∧ decodeTableWord 8 0x02 = some .decode ∧
    decodeTableWord 4 0x1 = some .fcount ∧ decodeTableWord 4 0x9 = some .twalk ∧
    decodeTableWord 8 0x9 = some .twalk ∧ decodeTableWord 8 0x00 = none ∧ decodeTableWord 4 0xA = none := by decide

/-! ## Ill-formed terms the checks refuse -/

theorem test_wf_reserved_command_refused : (OpWord.cmd 0x03).wf = false ∧ (OpWord.cmd 0x00).wf = false := by decide
theorem test_wf_reserved_phase_refused : (OpWord.phase 0x0).wf = false ∧ (OpWord.phase 0xA).wf = false := by decide
theorem test_wf_decode_phase_in_encode_refused : Phase.occursIn .encode .ftdes = false ∧ Phase.occursIn .decode .cgen = false := by
  decide
theorem test_wf_wrong_successor_refused :
    Phase.mayFollow .encode .tbuild .bunpk = false ∧ Phase.mayFollow .decode .ftdes .tbuild = false := by decide
theorem test_wf_reserved_command_write_refused : (HostTxn.wr 0 0x100).wf 8 8 = false := by decide
theorem test_wf_wide_length_refused : (HostTxn.wr 3 0x100000000).wf 8 8 = false := by decide
theorem test_wf_fifth_register_refused : (HostTxn.wr 5 0).wf 8 8 = false ∧ (HostTxn.rd 5).wf 8 8 = false := by decide
theorem test_wf_address_beyond_capacity_refused :
    (HostTxn.wrbIn 8 0).wf 8 8 = false ∧ (HostTxn.rdbIn 8).wf 8 8 = false ∧
    (HostTxn.wrbOut 8 0).wf 8 8 = false ∧ (HostTxn.rdbOut 8).wf 8 8 = false := by decide

/-- The canonical form: not rising, and repeated addresses. -/
theorem test_wf_memory_refused : Memory.wf [(3, 0), (1, 0)] = false ∧ Memory.wf [(1, 0), (1, 1)] = false := by decide

/-! ## Small states -/

/-- A buffer holding `bs` from address 0. -/
def cells (bs : List Byte) : Memory := bs.zipIdx.map fun e => (e.2, e.1)

/-- Idle, with `d` loaded. -/
def loadedWith (d : List Byte) : State := { State.reset with IN := cells d, IN_LEN := BitVec.ofNat 32 d.length }

/-- Running on `d`, about to execute `p`. -/
def running (m : Mode) (p : Phase) (d : List Byte) (w : Work) : State :=
  { loadedWith d with
    STATUS := statusBusy
    MODE   := m
    PHASE  := p
    work   := { w with LEN := BitVec.ofNat 32 d.length } }

/-- A next state with the property. -/
def nextHas (o : Host.Outcome State Fault Refusal) (p : State → Bool) : Bool :=
  match o with
  | .next t => p t
  | _ => false

theorem exists_of_nextHas {o : Host.Outcome State Fault Refusal} {p : State → Bool} (h : nextHas o p = true) :
    ∃ t, o = .next t ∧ p t = true := by
  cases o with
  | next t => exact ⟨t, rfl, h⟩
  | fault f => cases h
  | refused r => cases h

/-- "aabbbcc" (V1). -/
def aabbbcc : List Byte := [0x61, 0x61, 0x62, 0x62, 0x62, 0x63, 0x63]

/-- V40's container. -/
def aabbbccPacked : List Byte :=
  [0x05, 0x00, 0x03, 0x61, 0x00, 0x00, 0x00, 0x02, 0x62, 0x00, 0x00, 0x00, 0x03, 0x63, 0x00, 0x00, 0x00, 0x02, 0xA1, 0xE0]

/-- V41's container: "AAA". -/
def aaaPacked : List Byte := [0x05, 0x00, 0x01, 0x41, 0x00, 0x00, 0x00, 0x03, 0x00]

/-- V1's table. -/
def freqV1 : FreqTable := ((FreqTable.clear.put 0x61 2).put 0x62 3).put 0x63 2

/-- V1's leaves. -/
def leavesV1 : List Node := [.leaf 0x61 2, .leaf 0x62 3, .leaf 0x63 2]

/-- V10's node table. -/
def nodesV10 : List Node := leavesV1 ++ [.inner 4 0 2, .inner 7 1 3]

/-- V20's code table. -/
def codesV20 : CodeTable := ((CodeTable.clear.put 0x61 ⟨2, 2⟩).put 0x62 ⟨0, 1⟩).put 0x63 ⟨3, 2⟩

/-- The working registers with V10's tree. -/
def treeV10 : Work := { Work.zero with TREE := true, ROOT := 4, NODE := nodesV10, QUEUE := [4], NSYM := 3, HLEN := 17 }

/-! ## One step per operation -/

/-- V60, P4. -/
theorem test_encode_of_nothing :
    nextHas (exec .encode (loadedWith [])) (fun t => t.ERR == 1 && t.OUT_LEN == 0 && t.STATUS == 0b110 && t.PHASE == .idle) = true := by
  decide +kernel

/-- P1, the acceptance row. -/
theorem test_encode_accepted :
    nextHas (exec .encode (loadedWith aabbbcc))
      (fun t => t.MODE == .encode && t.work.LEN == 7 && t.ERR == 0 && t.OUT_LEN == 0 && t.STATUS == 0b001 && t.PHASE == .fcount) = true := by
  decide +kernel

/-- V61, length 2. -/
theorem test_decode_of_two_bytes :
    nextHas (exec .decode (loadedWith [0x00, 0x00])) (fun t => t.ERR == 2 && t.OUT_LEN == 0 && t.STATUS == 0b110) = true := by
  decide +kernel

/-- P2: `LEN` = 9, `PADB` = 5. -/
theorem test_decode_accepted :
    nextHas (exec .decode (loadedWith aaaPacked))
      (fun t => t.MODE == .decode && t.work.LEN == 9 && t.work.PADB == 5 && t.STATUS == 0b001 && t.PHASE == .ftdes) = true := by
  decide +kernel

/-- V1. -/
theorem test_fcount_counts :
    nextHas (exec .fcount (running .encode .fcount aabbbcc Work.zero)) (fun t =>
      t.work.FREQ.get 0x61 == some 2 && t.work.FREQ.get 0x62 == some 3 && t.work.FREQ.get 0x63 == some 2 &&
        t.work.FREQ.get 0x64 == none && t.PHASE == .mkleaf) = true := by decide +kernel

/-- V4: 00 and FF are symbols like any other. -/
theorem test_fcount_extreme_symbols :
    nextHas (exec .fcount (running .encode .fcount [0x00, 0xFF, 0x00, 0xFF, 0x07] Work.zero))
      (fun t => t.work.FREQ.get 0x00 == some 2 && t.work.FREQ.get 0x07 == some 1 && t.work.FREQ.get 0xFF == some 2) = true := by decide +kernel

/-- V1, P1. -/
theorem test_mkleaf_encode :
    nextHas (exec .mkleaf (running .encode .mkleaf aabbbcc { Work.zero with FREQ := freqV1 }))
      (fun t => t.work.NODE == leavesV1 && t.work.QUEUE == [0, 1, 2] && t.work.NSYM == 3 && t.work.NNODE == 3 &&
        t.work.QN == 3 && t.work.HLEN == 17 && t.PHASE == .tbuild) = true := by decide +kernel

/-- V37: the leaf list is a, b whatever the order of the header; in DECODE `HLEN` stays. -/
theorem test_mkleaf_decode :
    nextHas (exec .mkleaf (running .decode .mkleaf [] { Work.zero with FREQ := (FreqTable.clear.put 0x62 1).put 0x61 1, HLEN := 12 }))
      (fun t => t.work.NODE == [.leaf 0x61 1, .leaf 0x62 1] && t.work.HLEN == 12) = true := by decide +kernel

/-- V10 with its slot numbers. -/
theorem test_tbuild_slots :
    nextHas (exec .tbuild (running .encode .tbuild aabbbcc { Work.zero with NODE := leavesV1, QUEUE := [0, 1, 2] }))
      (fun t => t.work.NODE == nodesV10 && t.work.QUEUE == [4] && t.work.ROOT == 4 && t.work.TREE && t.work.NNODE == 5 &&
        t.PHASE == .cgen) = true := by decide +kernel

/-- V11: the parent of count 2 goes behind the leaf of count 2. -/
theorem test_tbuild_parent_behind_equal_leaf :
    nextHas (exec .tbuild (running .decode .tbuild [] { Work.zero with NODE := [.leaf 0x61 1, .leaf 0x62 1, .leaf 0x63 2], QUEUE := [0, 1, 2] }))
      (fun t => t.work.NODE.drop 3 == [.inner 2 0 1, .inner 4 2 3] && t.PHASE == .bunpk) = true := by decide +kernel

/-- V20. -/
theorem test_cgen_codes :
    nextHas (exec .cgen (running .encode .cgen aabbbcc treeV10)) (fun t =>
      t.work.CODE.get 0x61 == some ⟨2, 2⟩ && t.work.CODE.get 0x62 == some ⟨0, 1⟩ && t.work.CODE.get 0x63 == some ⟨3, 2⟩ &&
        t.work.CODE.get 0x60 == none && t.PHASE == .bpack) = true := by decide +kernel

/-- V21: the one-leaf tree. -/
theorem test_cgen_single :
    nextHas (exec .cgen (running .encode .cgen [] { Work.zero with TREE := true, NODE := [.leaf 0x41 3] }))
      (fun t => t.work.CODE.get 0x41 == some ⟨0, 1⟩ && t.work.CODE.get 0x00 == none) = true := by decide +kernel

/-- P1, section 2.5; the three bits left over stay in `ACC` (R23). -/
theorem test_bpack_bits :
    nextHas (exec .bpack (running .encode .bpack aabbbcc { treeV10 with CODE := codesV20 }))
      (fun t => t.OUT == [(18, 0xA1), (19, 0xE0)] && t.work.TBITS == 11 && t.work.PADC == 5 && t.work.OPTR == 20 &&
        t.work.ACC == 0b111 && t.work.ACCN == 3 && t.PHASE == .ftser) = true := by decide +kernel

/-- Section 2.5, the drain of two bytes in one step: 39 x 7, 30 with the codes of V31. -/
theorem test_bpack_drains_two_bytes :
    nextHas (exec .bpack (running .encode .bpack (List.replicate 7 0x39 ++ [0x30])
        { Work.zero with HLEN := 7, CODE := (CodeTable.clear.put 0x39 ⟨0, 1⟩).put 0x30 ⟨0b111111110, 9⟩ }))
      (fun t => t.OUT == [(8, 0x01), (9, 0xFE)] && t.work.PADC == 0 && t.work.TBITS == 16 && t.work.OPTR == 10) = true := by
  decide +kernel

/-- P1, FTSER and completion. -/
theorem test_ftser_completes :
    nextHas (exec .ftser { running .encode .ftser aabbbcc { treeV10 with FREQ := freqV1, OPTR := 20, PADC := 5 } with
        OUT := [(18, 0xA1), (19, 0xE0)] })
      (fun t => t.OUT == cells aabbbccPacked && t.OUT_LEN == 20 && t.ERR == 0 && t.PHASE == .idle && t.STATUS == 0b010) = true := by
  decide +kernel

/-- V36, with DECODE's checks. -/
theorem test_ftdes_reads_table :
    nextHas (exec .ftdes (running .decode .ftdes aabbbccPacked { Work.zero with PADB := 5 }))
      (fun t => t.work.N16 == 3 && t.work.HLEN == 17 && t.work.FREQ.get 0x61 == some 2 && t.work.FREQ.get 0x62 == some 3 &&
        t.work.FREQ.get 0x63 == some 2 && t.work.PLEN == 2 && t.PHASE == .mkleaf) = true := by
  decide +kernel

/-- V38, V75: symbol 41 twice. -/
theorem test_ftdes_repeated_symbol :
    nextHas (exec .ftdes (running .decode .ftdes [0x00, 0x00, 0x02, 0x41, 0x00, 0x00, 0x00, 0x01, 0x41, 0x00, 0x00, 0x00, 0x01] Work.zero))
      (fun t => t.ERR == 4 && t.OUT_LEN == 0 && t.STATUS == 0b110) = true := by decide +kernel

/-- V80. -/
theorem test_bunpk_trims :
    nextHas (exec .bunpk (running .decode .bunpk aabbbccPacked { treeV10 with PLEN := 2, PADB := 5 }))
      (fun t => t.work.TBITS == 11 && t.PHASE == .twalk) = true := by decide +kernel

/-- V80: the eleven bits. -/
theorem test_payload_bits :
    ((List.range 11).map fun j => (payloadBit (running .decode .bunpk aabbbccPacked treeV10) j).toOption) =
      [1, 0, 1, 0, 0, 0, 0, 1, 1, 1, 1].map (fun b : Nat => some (b == 1)) := by decide +kernel

/-- V83, then completion. -/
theorem test_twalk_emits :
    nextHas (exec .twalk (running .decode .twalk aabbbccPacked { treeV10 with TBITS := 11 }))
      (fun t => t.OUT == cells aabbbcc && t.OUT_LEN == 7 && t.ERR == 0 && t.STATUS == 0b010 && t.PHASE == .idle) = true := by
  decide +kernel

/-- V87: a bit 1 on a one-leaf tree. -/
theorem test_twalk_no_right_branch :
    nextHas (exec .twalk (running .decode .twalk [0x05, 0x00, 0x01, 0x41, 0x00, 0x00, 0x00, 0x03, 0x20]
        { Work.zero with TREE := true, NODE := [.leaf 0x41 3], HLEN := 7, TBITS := 3 }))
      (fun t => t.ERR == 6 && t.OUT_LEN == 0 && t.STATUS == 0b110) = true := by decide +kernel

/-- V111. -/
theorem test_in_len_holds_all_bits :
    nextHas (step { State.reset with script := [.txn (.wr 3 0xFFFFFFFF)] }) (fun t => t.IN_LEN == 0xFFFFFFFF) = true := by
  decide +kernel

/-- V114: a write while a command runs is dropped. -/
theorem test_write_while_busy_dropped :
    nextHas (step { running .encode .fcount aabbbcc Work.zero with script := [.txn (.wr 3 3)] })
      (fun t => t.IN_LEN == 7 && t.STATUS == 0b001) = true := by decide +kernel

/-! ## States and operands that meet the hypotheses of the statements, clause by clause -/

/-- A running ENCODE's first phase and a running DECODE's last one, for the witnesses. -/
def encodeRunning : State := running .encode .fcount aabbbcc Work.zero

/-- The bytes of `cells k` are those of `k`. -/
theorem holds_cells (k : List Byte) : (cells k).holds k := by
  have hread : ∀ (k : List Byte) (n : Nat), ∀ i, i < k.length →
      Memory.read ((k.zipIdx n).map fun e => (e.2, e.1)) (n + i) = k[i]? := by
    intro k
    induction k with
    | nil => intro n i hi; simp at hi
    | cons b k ih =>
      intro n i hi
      rw [List.zipIdx_cons, List.map_cons, read_cons]
      cases i with
      | zero => simp
      | succ i =>
        rw [if_neg (by omega), show n + (i + 1) = n + 1 + i by omega, ih (n + 1) i (by simpa using hi)]
        simp
  intro i hi
  have := hread k 0 i hi
  rw [Nat.zero_add] at this
  exact this

theorem runsOn_cells (m : Mode) (p : Phase) (k : List Byte) (w : Work) (h : k.length < 2 ^ 32) : (running m p k w).runsOn k :=
  ⟨holds_cells k, by show (BitVec.ofNat 32 k.length).toNat = _; rw [BitVec.toNat_ofNat, Nat.mod_eq_of_lt h]⟩

theorem loaded_aabbbcc : (loadedWith aabbbcc).idle ∧ (loadedWith aabbbcc).loaded aabbbcc :=
  ⟨⟨rfl, rfl⟩, holds_cells _, rfl, by decide⟩

theorem loaded_packed : (loadedWith aabbbccPacked).idle ∧ (loadedWith aabbbccPacked).loaded aabbbccPacked :=
  ⟨⟨rfl, rfl⟩, holds_cells _, rfl, by decide⟩

theorem witness_DecodeInvertsEncode : decode (.cmd 0x02) = .ok .decode ∧ decode (.phase 0x9) = .ok .twalk := ⟨rfl, rfl⟩

theorem witness_ReservedWordsAreRejected :
    ((0x00 : BitVec 8) ≠ 1 ∧ (0x00 : BitVec 8) ≠ 2) ∧ ((0x03 : BitVec 8) ≠ 1 ∧ (0x03 : BitVec 8) ≠ 2) ∧
    ((0xFF : BitVec 8) ≠ 1 ∧ (0xFF : BitVec 8) ≠ 2) ∧ 256 ≤ (0x100 : BitVec 40).toNat ∧ 10 ≤ (0xA : BitVec 4).toNat := by decide

theorem witness_StepRunsTheDecodedOperation :
    (∃ s : State, s.script = .txn (.wr 0 0x02) :: [.wait] ∧ decodeCmdWrite 0x02 = .ok .decode) ∧
    (∃ s : State, s.script = [] ∧ decodePhase s.PHASE.code = .ok .fcount) ∧
    (∃ s : State, s.script = .yield :: [.wait] ∧ decodePhase s.PHASE.code = .ok .fcount) ∧
    ∃ s : State, s.script = [] ∧ s.PHASE = .idle :=
  ⟨⟨{ State.reset with script := [.txn (.wr 0 0x02), .wait] }, rfl, rfl⟩, ⟨encodeRunning, rfl, rfl⟩,
    ⟨{ encodeRunning with script := [.yield, .wait] }, rfl, rfl⟩, ⟨State.reset, rfl, rfl⟩⟩

theorem witness_PlatformResetAbandonsTheCommand : ∃ s : State, s.script = .reset :: [.txn (.rd 1)] ∧ s.BUSY = true :=
  ⟨{ encodeRunning with script := [.reset, .txn (.rd 1)] }, rfl, rfl⟩

theorem sequencerInv_encodeRunning : encodeRunning.sequencerInv := by
  refine ⟨?_, ?_, ?_, ?_, ?_, ?_⟩ <;> decide

theorem witness_EveryStepKeepsTheSequencerInvariant : ∃ s t : State, s.sequencerInv ∧ step s = .next t :=
  ⟨encodeRunning, _, sequencerInv_encodeRunning, rfl⟩

/-- A running ENCODE, and one before FTSER with V1's payload. -/
theorem witness_EveryStepKeepsTheBuffersInvariant :
    (∃ s t : State, s.sequencerInv ∧ s.buffersInv ∧ step s = .next t ∧ s.PHASE = .fcount) ∧
    ∃ s t : State, s.sequencerInv ∧ s.buffersInv ∧ step s = .next t ∧ s.PHASE = .ftser := by
  constructor
  · refine ⟨encodeRunning, _, sequencerInv_encodeRunning, ⟨by decide, by decide, by decide, ?_, ?_, ?_⟩, rfl, rfl⟩
    · exact fun h => absurd h (by decide)
    · exact fun _ h => absurd h (by decide)
    · exact fun h => absurd h (by decide)
  · let s : State := { running .encode .ftser aabbbcc { treeV10 with FREQ := freqV1, OPTR := 20, PADC := 5 } with
      OUT := [(18, 0xA1), (19, 0xE0)] }
    refine ⟨s, _, ⟨by decide, by decide, by decide, by decide, by decide, by decide⟩,
      ⟨by decide, by decide, by decide, fun h => absurd h (by decide), fun _ _ => by decide +kernel, ?_⟩, rfl, rfl⟩
    intro _ a h1 h2
    have ha : a = 18 ∨ a = 19 := by
      change 18 ≤ a at h1
      change a < 20 at h2
      omega
    rcases ha with rfl | rfl <;> decide

theorem witness_NoOperationWritesTheInput : ∃ s t : State, exec .mkleaf s = .next t := ⟨encodeRunning, _, rfl⟩

/-- Handing over, and entering an error. -/
theorem witness_PhasesFollowTheSuccessorTable :
    (∃ s t : State, s.PHASE ≠ .idle ∧ s.PHASE.occursIn s.MODE = true ∧ coreTurn s = .next t ∧ t.PHASE = .tbuild) ∧
    ∃ s t : State, s.PHASE ≠ .idle ∧ s.PHASE.occursIn s.MODE = true ∧ coreTurn s = .next t ∧ t = raiseError .emptyInput s :=
  ⟨⟨running .encode .mkleaf aabbbcc Work.zero, _, by decide, by decide, rfl, rfl⟩,
    ⟨running .encode .fcount [] Work.zero, _, by decide, by decide, rfl, rfl⟩⟩

/-- One error of each operation that has one. -/
theorem witness_EachErrorComesFromItsOwnOperation :
    (∃ s t : State, s.STATUS ≠ statusFailed ∧ exec .encode s = .next t ∧ t.STATUS = statusFailed) ∧
    (∃ s t : State, s.STATUS ≠ statusFailed ∧ exec .decode s = .next t ∧ t.STATUS = statusFailed) ∧
    (∃ s t : State, s.STATUS ≠ statusFailed ∧ exec .fcount s = .next t ∧ t.STATUS = statusFailed) ∧
    (∃ s t : State, s.STATUS ≠ statusFailed ∧ exec .ftdes s = .next t ∧ t.STATUS = statusFailed) ∧
    ∃ s t : State, s.STATUS ≠ statusFailed ∧ exec .twalk s = .next t ∧ t.STATUS = statusFailed :=
  ⟨⟨loadedWith [], _, by decide, rfl, rfl⟩, ⟨loadedWith [0x00, 0x00], _, by decide, rfl, rfl⟩,
    ⟨running .encode .fcount [] Work.zero, _, by decide, rfl, rfl⟩,
    ⟨running .decode .ftdes [0x00, 0x00] Work.zero, _, by decide, rfl, rfl⟩,
    ⟨running .decode .twalk [] { Work.zero with TREE := true, NODE := [.leaf 0x41 3] }, _, by decide, rfl, rfl⟩⟩

/-- The least and the greatest length. -/
theorem witness_EncodeIsAccepted :
    (∃ s : State, s.BUSY = false ∧ s.IN_LEN ≠ 0 ∧ s.IN_LEN.toNat ≤ s.cfg.inCap ∧ s.IN_LEN = 1) ∧
    ∃ s : State, s.BUSY = false ∧ s.IN_LEN ≠ 0 ∧ s.IN_LEN.toNat ≤ s.cfg.inCap ∧ s.IN_LEN.toNat = s.cfg.inCap :=
  ⟨⟨loadedWith [0x41], by decide⟩, ⟨{ State.reset with IN_LEN := 0xFFFFFFFF }, by decide⟩⟩

theorem witness_DecodeIsAccepted :
    ∃ (s : State) (b : Byte), s.BUSY = false ∧ 3 ≤ s.IN_LEN.toNat ∧ s.IN_LEN.toNat ≤ s.cfg.inCap ∧ s.IN.read 0 = some b :=
  ⟨loadedWith [0xFF, 0x00, 0x00], 0xFF, by decide⟩

theorem witness_EncodeOfNothingIsEmptyInput : ∃ s : State, s.BUSY = false ∧ s.IN_LEN = 0 := ⟨State.reset, by decide⟩

theorem witness_DecodeOfFewerThanThreeBytesIsTooShort :
    (∃ s : State, s.BUSY = false ∧ s.IN_LEN.toNat < 3 ∧ s.IN_LEN.toNat ≤ s.cfg.inCap ∧ s.IN_LEN = 0) ∧
    ∃ s : State, s.BUSY = false ∧ s.IN_LEN.toNat < 3 ∧ s.IN_LEN.toNat ≤ s.cfg.inCap ∧ s.IN_LEN = 2 :=
  ⟨⟨State.reset, by decide⟩, ⟨loadedWith [0x00, 0x00], by decide⟩⟩

theorem witness_WritesAreDroppedWhileBusy :
    encodeRunning.BUSY = true ∧
    (∃ (s : State) (v : BitVec 40), s.BUSY = true ∧ s.script = .txn (.wr 0 v) :: [] ∧ v = 0xFF) ∧
    (∃ (s : State) (v : BitVec 40), s.BUSY = true ∧ s.script = .txn (.wr 3 v) :: []) ∧
    ∃ (s : State) (a : BitVec 32) (v : Byte), s.BUSY = true ∧ a.toNat < s.cfg.inCap ∧ s.script = .txn (.wrbIn a v) :: [] :=
  ⟨rfl, ⟨{ encodeRunning with script := [.txn (.wr 0 0xFF)] }, 0xFF, rfl, rfl, rfl⟩,
    ⟨{ encodeRunning with script := [.txn (.wr 3 3)] }, 3, rfl, rfl⟩,
    ⟨{ encodeRunning with script := [.txn (.wrbIn 0 9)] }, 0, 9, rfl, by decide, rfl⟩⟩

/-- A machine with two bytes of `IN` and of `OUT`. -/
def smallMachine : State := { State.reset with cfg := ⟨2, 2⟩ }

theorem witness_CapacitiesBoundTheCommands :
    (∃ s : State, s.BUSY = false ∧ s.cfg.inCap < s.IN_LEN.toNat) ∧ (∃ s : State, s.cfg.outCap < s.work.OPTR.toNat) ∧
    ∃ (s : State) (w : Walker), walkPayload s = .ok w ∧ s.cfg.outCap < w.EMIT.toNat :=
  ⟨⟨{ smallMachine with IN_LEN := 3 }, by decide⟩, ⟨{ smallMachine with work := { Work.zero with OPTR := 3 } }, by decide⟩,
    ⟨{ running .decode .twalk aaaPacked { Work.zero with TREE := true, NODE := [.leaf 0x41 3], HLEN := 7, TBITS := 3 } with
        cfg := ⟨9, 2⟩ }, _, rfl, by decide⟩⟩

theorem witness_FcountCountsOccurrences : ∃ (s : State) (d : List Byte), d ≠ [] ∧ s.runsOn d :=
  ⟨encodeRunning, aabbbcc, by decide, runsOn_cells _ _ _ _ (by decide)⟩

theorem witness_CountsAreExactAndAddUp :
    ∃ (s t : State) (d : List Byte) (b : Byte) (c : Count), d ≠ [] ∧ s.runsOn d ∧ exec .fcount s = .next t ∧ t.work.FREQ.get b = some c := by
  refine ⟨running .encode .fcount [0x41] Work.zero, _, [0x41], 0x41, 1, by decide, runsOn_cells _ _ _ _ (by decide),
    rfl, by decide +kernel⟩

theorem witness_FcountOfNothingIsEmptyInput : ∃ s : State, s.work.LEN = 0 := ⟨State.reset, rfl⟩

/-- One state for each clause; the byte that is not written is the first and the last it can be. -/
theorem witness_CoreReadsOfUnwrittenInputFault :
    (∃ s : State, s.BUSY = false ∧ 3 ≤ s.IN_LEN.toNat ∧ s.IN_LEN.toNat ≤ s.cfg.inCap ∧ s.IN.read 0 = none) ∧
    (∃ (s : State) (a : Nat), a < s.work.LEN.toNat ∧ s.IN.read a = none ∧ (∀ x, x < a → s.IN.read x ≠ none) ∧ a = 0) ∧
    (∃ (s : State) (a : Nat), a < s.work.LEN.toNat ∧ s.IN.read a = none ∧ (∀ x, x < a → s.IN.read x ≠ none) ∧
      a + 1 = s.work.LEN.toNat) ∧
    (∃ (s : State) (a : Nat), 3 ≤ s.work.LEN.toNat ∧ (a = 1 ∨ a = 2 ∧ s.IN.read 1 ≠ none) ∧ s.IN.read a = none ∧ a = 1) ∧
    (∃ (s : State) (a : Nat), 3 ≤ s.work.LEN.toNat ∧ (a = 1 ∨ a = 2 ∧ s.IN.read 1 ≠ none) ∧ s.IN.read a = none ∧ a = 2) ∧
    ∀ a ∈ [3, 12], ∃ (s : State) (n : Nat) (hi lo : Byte), s.IN.read 1 = some hi ∧ s.IN.read 2 = some lo ∧
      n = 256 * hi.toNat + lo.toNat ∧ 1 + hdrBytes n ≤ s.work.LEN.toNat ∧ 3 ≤ a ∧ a < 1 + hdrBytes n ∧
      s.IN.read a = none ∧ (∀ x, 3 ≤ x → x < a → s.IN.read x ≠ none) ∧
      ∀ i j, i < j → entryAddr (j + 1) ≤ a → s.IN.read (entryAddr i) ≠ s.IN.read (entryAddr j) := by
  have len : ∀ a ∈ [3, 12], a ≤ 12 := by decide
  refine ⟨⟨{ loadedWith aaaPacked with IN := (cells aaaPacked).drop 1 }, by decide⟩,
    ⟨{ encodeRunning with IN := (cells aabbbcc).drop 1 }, 0, by decide⟩,
    ⟨{ encodeRunning with IN := cells (aabbbcc.take 6) }, 6, by decide⟩,
    ⟨{ running .decode .ftdes aaaPacked Work.zero with IN := cells (aaaPacked.take 1) }, 1, by decide⟩,
    ⟨{ running .decode .ftdes aaaPacked Work.zero with IN := cells (aaaPacked.take 2) }, 2, by decide⟩, fun a ha => ?_⟩
  refine ⟨{ running .decode .ftdes aabbbccPacked Work.zero with
    IN := cells ([0x05, 0x00, 0x02, 0x61, 0x00, 0x00, 0x00, 0x02, 0x62, 0x00, 0x00, 0x00].take a) }, 2, 0x00, 0x02, ?_⟩
  have key : ∀ i j, i < j → ¬ entryAddr (j + 1) ≤ 12 := by
    intro i j hij h
    simp only [entryAddr] at h
    omega
  have rest : ∀ (m : Memory) i j, i < j → entryAddr (j + 1) ≤ a → m.read (entryAddr i) ≠ m.read (entryAddr j) :=
    fun m i j hij h => absurd (h.trans (len a ha)) (key i j hij)
  fin_cases ha
  · exact ⟨by decide, by decide, by decide, by decide, by decide, by decide, by decide, by decide, rest _⟩
  · exact ⟨by decide, by decide, by decide, by decide, by decide, by decide, by decide, by decide, rest _⟩

/-- V11's queue after the first two are removed, with slots appended. -/
theorem witness_MergePutsTheParentBehindEqualCounts :
    ∃ (nodes : List Node) (rest : List NodeIdx), nodes.length < 511 ∧ (∀ j ∈ rest, j.toNat < nodes.length) ∧
      rest.Pairwise (fun x y => (countAt nodes x).toNat ≤ (countAt nodes y).toNat) ∧ rest ≠ [] :=
  ⟨[.leaf 0x61 1, .leaf 0x62 1, .leaf 0x63 2, .leaf 0x64 5], [2, 3], by decide⟩

theorem witness_TbuildBuildsTheTree :
    ∃ (s : State) (es : List (Byte × Count)), es ≠ [] ∧ es.length ≤ 256 ∧
      s.work.NODE = (es.map fun e => .leaf e.1 (e.2.setWidth 40)) ∧
      s.work.QUEUE = (List.range es.length).map (BitVec.ofNat 9) :=
  ⟨running .encode .tbuild aabbbcc { Work.zero with NODE := leavesV1, QUEUE := [0, 1, 2] },
    [(0x61, 2), (0x62, 3), (0x63, 2)], by decide⟩

theorem witness_WithoutATreeCgenAndTwalkFault : ∃ s : State, s.work.QUEUE = [] ∧ s.work.TREE = false := ⟨State.reset, rfl, rfl⟩

/-- V10's tree as a term. -/
def termV10 : HTree := .node 7 (.leaf 0x62 3) (.node 4 (.leaf 0x61 2) (.leaf 0x63 2))

theorem witness_TheTreeHasTheLeavesAndCountsThem :
    ∃ (es : List (Byte × Nat)) (t : HTree), HTree.build es = some t := ⟨[(0x61, 2), (0x62, 3), (0x63, 2)], termV10, by decide⟩

theorem represents_V10 : represents nodesV10 4 termV10 :=
  ⟨7, 1, 3, rfl, rfl, ⟨3, rfl, rfl⟩, 4, 0, 2, rfl, rfl, ⟨2, rfl, rfl⟩, ⟨2, rfl, rfl⟩⟩

/-- TWALK's clause: the first payload byte is not written, or the second (V40's payload without its last byte). -/
theorem witness_CoreReadsOfUnwrittenInputFault_twalk :
    ∀ bits ∈ [[], [true, false, true, false, false, false, false, true]],
      ∃ (s : State) (t : HTree) (d : List Byte), s.work.TREE = true ∧ represents s.work.NODE s.work.ROOT t ∧
        (∀ b ∈ d, t.codeOf b ≠ none) ∧ d.length ≤ t.count ∧ bits <+: codeBits t d ∧ bits.length < s.work.TBITS.toNat ∧
        (∀ j, j < bits.length → (payloadBit s j).toOption = bits[j]?) ∧
        s.IN.read (1 + s.work.HLEN.toNat + bits.length / 8) = none := by
  intro bits hb
  fin_cases hb
  · exact ⟨running .decode .twalk (aabbbccPacked.take 18) { treeV10 with TBITS := 11 }, termV10, aabbbcc, rfl, represents_V10,
      by decide, by decide, by decide, by decide, by decide, by decide⟩
  · exact ⟨running .decode .twalk (aabbbccPacked.take 19) { treeV10 with TBITS := 11 }, termV10, aabbbcc, rfl, represents_V10,
      by decide, by decide, by decide, by decide, by decide, by decide⟩

theorem witness_CgenGivesEachLeafItsPath :
    ∃ (s : State) (t : HTree), s.work.TREE = true ∧ represents s.work.NODE s.work.ROOT t ∧ t.depth ≤ 64 ∧
      (t.paths.map Prod.fst).Nodup :=
  ⟨running .encode .cgen aabbbcc treeV10, termV10, rfl, represents_V10, by decide, by decide⟩

/-- The one-leaf tree meets them as well. -/
theorem witness_CgenGivesEachLeafItsPath_single :
    ∃ (s : State) (t : HTree), s.work.TREE = true ∧ represents s.work.NODE s.work.ROOT t ∧ t.depth ≤ 64 ∧
      (t.paths.map Prod.fst).Nodup ∧ t.depth = 0 :=
  ⟨running .encode .cgen [] { Work.zero with TREE := true, NODE := [.leaf 0x41 3] }, .leaf 0x41 3, rfl, ⟨3, rfl, rfl⟩,
    by decide, by decide, rfl⟩

theorem witness_NoCodeIsAPrefixOfAnother :
    ∃ (s u : State) (t : HTree), s.work.TREE = true ∧ represents s.work.NODE s.work.ROOT t ∧ t.depth ≤ 64 ∧
      (t.paths.map Prod.fst).Nodup ∧ exec .cgen s = .next u ∧
      ∃ b b' k k', b ≠ b' ∧ u.work.CODE.get b = some k ∧ u.work.CODE.get b' = some k' :=
  ⟨running .encode .cgen aabbbcc treeV10, _, termV10, rfl, represents_V10, by decide, by decide, rfl,
    0x61, 0x62, ⟨2, 2⟩, ⟨0, 1⟩, by decide, by decide +kernel, by decide +kernel⟩

theorem frequencies_aabbbcc : frequencies aabbbcc = [(0x61, 2), (0x62, 3), (0x63, 2)] := by decide +kernel

theorem build_aabbbcc : HTree.build (frequencies aabbbcc) = some termV10 := by rw [frequencies_aabbbcc]; decide

/-- Two symbols or more, and one symbol; the runs in the clauses about `CODE`. -/
theorem witness_CodesAreOneToFortyFiveBitsLong :
    (∃ (d : List Byte) (t : HTree), d.length < 2 ^ 32 ∧ HTree.build (frequencies d) = some t ∧
      (∃ b bits, t.codeOf b = some bits) ∧ 2 ≤ (frequencies d).length) ∧
    (∃ (s t : State) (d : List Byte), s.idle ∧ s.loaded d ∧ d ≠ [] ∧ runCommand 5 0x01 s = .next t ∧
      (∃ b k, t.work.CODE.get b = some k) ∧ 2 ≤ t.work.NSYM.toNat) ∧
    ∃ (s t : State) (d : List Byte), s.idle ∧ s.loaded d ∧ d ≠ [] ∧ runCommand 5 0x01 s = .next t ∧
      (∃ b k, t.work.CODE.get b = some k) ∧ t.work.NSYM.toNat = 1 := by
  refine ⟨⟨aabbbcc, termV10, by decide, build_aabbbcc, ⟨0x62, [false], by decide⟩, by rw [frequencies_aabbbcc]; decide⟩, ?_, ?_⟩
  · obtain ⟨t, ht, h⟩ := exists_of_nextHas (o := runCommand 5 0x01 (loadedWith aabbbcc))
      (p := fun t => (t.work.CODE.get 0x62).isSome && decide (2 ≤ t.work.NSYM.toNat)) (by decide +kernel)
    simp only [Bool.and_eq_true, decide_eq_true_eq] at h
    exact ⟨_, t, aabbbcc, loaded_aabbbcc.1, loaded_aabbbcc.2, by decide, ht, ⟨0x62, Option.isSome_iff_exists.1 h.1⟩, h.2⟩
  · obtain ⟨t, ht, h⟩ := exists_of_nextHas (o := runCommand 5 0x01 (loadedWith [0x41]))
      (p := fun t => (t.work.CODE.get 0x41).isSome && decide (t.work.NSYM.toNat = 1)) (by decide +kernel)
    simp only [Bool.and_eq_true, decide_eq_true_eq] at h
    exact ⟨_, t, [0x41], ⟨rfl, rfl⟩, ⟨holds_cells _, rfl, by decide⟩, by decide, ht, ⟨0x41, Option.isSome_iff_exists.1 h.1⟩, h.2⟩

theorem witness_MoreFrequentSymbolsHaveNoLongerCodes :
    (∃ (d : List Byte) (t : HTree), HTree.build (frequencies d) = some t ∧
      ∃ x y cx cy, t.codeOf x = some cx ∧ t.codeOf y = some cy ∧ d.count y < d.count x) ∧
    ∃ (s t : State) (d : List Byte), s.idle ∧ s.loaded d ∧ d ≠ [] ∧ runCommand 5 0x01 s = .next t ∧
      ∃ x y kx ky, t.work.CODE.get x = some kx ∧ t.work.CODE.get y = some ky ∧ d.count y < d.count x := by
  refine ⟨⟨aabbbcc, termV10, build_aabbbcc, 0x62, 0x61, [false], [true, false], by decide, by decide, by decide⟩, ?_⟩
  obtain ⟨t, ht, h⟩ := exists_of_nextHas (o := runCommand 5 0x01 (loadedWith aabbbcc))
    (p := fun t => (t.work.CODE.get 0x62).isSome && (t.work.CODE.get 0x61).isSome) (by decide +kernel)
  simp only [Bool.and_eq_true] at h
  obtain ⟨kx, hx⟩ := Option.isSome_iff_exists.1 h.1
  obtain ⟨ky, hy⟩ := Option.isSome_iff_exists.1 h.2
  exact ⟨_, t, aabbbcc, loaded_aabbbcc.1, loaded_aabbbcc.2, by decide, ht, 0x62, 0x61, kx, ky, hx, hy, by decide⟩

theorem witness_BpackPacksTheCodesBitSerially :
    ∃ (s : State) (d : List Byte), s.runsOn d ∧
      ∀ b ∈ d, ∃ c, s.work.CODE.get b = some c ∧ c.LEN.toNat ≤ 57 ∧ c.PAT.toNat < 2 ^ c.LEN.toNat := by
  refine ⟨running .encode .bpack [0x41] { Work.zero with CODE := CodeTable.clear.put 0x41 ⟨0, 57⟩ }, [0x41],
    runsOn_cells _ _ _ _ (by decide), ?_⟩
  intro b hb
  rw [List.mem_singleton] at hb
  subst hb
  exact ⟨⟨0, 57⟩, by decide +kernel, by decide, by decide⟩

theorem witness_FtserWritesTheHeaderAndCompletes :
    ∃ (s : State) (es : List (Byte × Count)), es.Pairwise (fun a b => a.1.toNat < b.1.toNat) ∧
      (∀ b c, (b, c) ∈ es ↔ s.work.FREQ.get b = some c) ∧ s.work.NSYM.toNat = es.length ∧
      1 + hdrBytes es.length ≤ s.work.OPTR.toNat ∧ s.work.OPTR.toNat ≤ s.cfg.outCap := by
  refine ⟨running .encode .ftser [0x41] { Work.zero with FREQ := FreqTable.clear.put 0x41 1, NSYM := 1, OPTR := 9 },
    [(0x41, 1)], by decide, ?_, rfl, by decide, by decide⟩
  intro b c
  have h : (FreqTable.clear.put 0x41 1).get b = if (0x41 : Byte) = b then some 1 else none := by
    rw [FreqTable.get_put, FreqTable.get_clear]
  show _ ↔ (FreqTable.clear.put 0x41 1).get b = some c
  rw [h]
  simp only [List.mem_singleton, Prod.mk.injEq]
  constructor
  · rintro ⟨rfl, rfl⟩; rfl
  · intro hc
    split at hc
    · next hb => cases hc; exact ⟨hb.symm, rfl⟩
    · cases hc

theorem witness_FtdesReadsTheTable :
    ∃ (s : State) (es : List (Byte × Nat)) (plen : Nat),
      es ≠ [] ∧ (es.map Prod.fst).Nodup ∧ (∀ e ∈ es, e.2 < 2 ^ 32) ∧ 1 ≤ plen ∧
      (∀ i, i < hdrBytes es.length → s.IN.read (1 + i) = (headerBytes es)[i]?) ∧
      s.work.LEN.toNat = 1 + hdrBytes es.length + plen ∧ s.work.PADB.toNat ≤ 7 :=
  ⟨running .decode .ftdes aabbbccPacked { Work.zero with PADB := 5 }, [(0x61, 2), (0x62, 3), (0x63, 2)], 2, by decide⟩

/-- P6: one container for each clause. -/
theorem witness_FtdesRaisesTheFirstError :
    (∃ (s : State) (k : List Byte), s.runsOn k ∧ k.length < 3) ∧
    (∃ (s : State) (k : List Byte), s.runsOn k ∧ 3 ≤ k.length ∧ k.length - 1 < hdrBytes (beNat ((k.drop 1).take 2))) ∧
    (∃ (s : State) (k : List Byte), s.runsOn k ∧ 3 ≤ k.length ∧ hdrBytes (beNat ((k.drop 1).take 2)) ≤ k.length - 1 ∧
      beNat ((k.drop 1).take 2) = 0) ∧
    (∃ (s : State) (k : List Byte), s.runsOn k ∧ 3 ≤ k.length ∧ hdrBytes (beNat ((k.drop 1).take 2)) ≤ k.length - 1 ∧
      ¬ ((headerEntries k (beNat ((k.drop 1).take 2))).map Prod.fst).Nodup) ∧
    (∃ (s : State) (k : List Byte), s.runsOn k ∧ 3 ≤ k.length ∧ beNat ((k.drop 1).take 2) ≠ 0 ∧
      ((headerEntries k (beNat ((k.drop 1).take 2))).map Prod.fst).Nodup ∧ k.length = 1 + hdrBytes (beNat ((k.drop 1).take 2))) ∧
    ∃ (s : State) (k : List Byte), s.runsOn k ∧ 3 ≤ k.length ∧ hdrBytes (beNat ((k.drop 1).take 2)) ≤ k.length - 1 ∧
      beNat ((k.drop 1).take 2) ≠ 0 ∧ ((headerEntries k (beNat ((k.drop 1).take 2))).map Prod.fst).Nodup ∧
      k.length ≠ 1 + hdrBytes (beNat ((k.drop 1).take 2)) ∧ 7 < s.work.PADB.toNat := by
  have on := runsOn_cells .decode .ftdes
  exact ⟨⟨_, [0xFF, 0x00], on _ Work.zero (by decide), by decide⟩,
    ⟨_, [0xFF, 0x00, 0x01], on _ Work.zero (by decide), by decide⟩,
    ⟨_, [0xFF, 0x00, 0x00], on _ Work.zero (by decide), by decide⟩,
    ⟨_, [0xFF, 0x00, 0x02, 0x41, 0x00, 0x00, 0x00, 0x01, 0x41, 0x00, 0x00, 0x00, 0x01], on _ Work.zero (by decide), by decide⟩,
    ⟨_, [0xFF, 0x00, 0x01, 0x41, 0x00, 0x00, 0x00, 0x01], on _ Work.zero (by decide), by decide⟩,
    ⟨_, [0x08, 0x00, 0x01, 0x41, 0x00, 0x00, 0x00, 0x01, 0x00], on _ { Work.zero with PADB := 8 } (by decide), by decide⟩⟩

/-- A container of 257 entries, all bytes zero but N (V103's shape). -/
theorem witness_MoreThan256EntriesAreInvalid :
    ∃ (s : State) (k : List Byte), s.runsOn k ∧ 3 ≤ k.length ∧ 256 < beNat ((k.drop 1).take 2) ∧
      hdrBytes (beNat ((k.drop 1).take 2)) ≤ k.length - 1 := by
  have hl : (0x00 :: 0x01 :: 0x01 :: List.replicate 1286 (0x00 : Byte)).length = 1289 := by
    rw [List.length_cons, List.length_cons, List.length_cons, List.length_replicate]
  refine ⟨_, 0x00 :: 0x01 :: 0x01 :: List.replicate 1286 0x00, runsOn_cells .decode .ftdes _ Work.zero ?_, ?_, ?_, ?_⟩
  · rw [hl]; decide
  · rw [hl]; decide
  · decide
  · rw [hl]; decide

theorem witness_BunpkTrimsThePadding :
    ∃ (s : State) (t : State) (payload : List Byte) (pad : Nat), 1 ≤ s.work.PLEN.toNat ∧ s.work.PADB.toNat ≤ 7 ∧
      exec .bunpk s = .next t ∧ pad ≤ 7 ∧
      (∀ i, i < payload.length → s.IN.read (1 + s.work.HLEN.toNat + i) = payload[i]?) ∧
      (payloadBits payload pad)[10]? = some true :=
  ⟨running .decode .bunpk aabbbccPacked { treeV10 with PLEN := 2, PADB := 5 }, _, [0xA1, 0xE0], 5, by decide, by decide, rfl,
    by decide, by decide, by decide⟩

/-- V83: success; V84's bits: an error. -/
theorem witness_TwalkEmitsTheSymbolsOrRaisesCorruptTree :
    (∃ (s : State) (t : HTree) (bits : List Bool) (d : List Byte), s.work.TREE = true ∧ represents s.work.NODE s.work.ROOT t ∧
      s.work.TBITS.toNat = bits.length ∧ (∀ j, j < bits.length → (payloadBit s j).toOption = bits[j]?) ∧
      walkResult t bits = .ok d ∧ d.length ≤ s.cfg.outCap) ∧
    ∃ (s : State) (t : HTree) (bits : List Bool) (e : ErrKind), s.work.TREE = true ∧ represents s.work.NODE s.work.ROOT t ∧
      s.work.TBITS.toNat = bits.length ∧ (∀ j, j < bits.length → (payloadBit s j).toOption = bits[j]?) ∧
      walkResult t bits = .error e :=
  ⟨⟨running .decode .twalk aabbbccPacked { treeV10 with TBITS := 11 }, termV10,
      [true, false, true, false, false, false, false, true, true, true, true], aabbbcc, rfl, represents_V10, rfl,
      by decide, by decide, by decide⟩,
    ⟨running .decode .twalk aabbbccPacked { treeV10 with TBITS := 10 }, termV10,
      [true, false, true, false, false, false, false, true, true, true], .corruptTree, rfl, represents_V10, rfl,
      by decide, by decide⟩⟩

/-- V86's tree with all three bits, and V87. -/
theorem witness_OneLeafTreesReadZeroBitsOnly :
    (∃ (s : State) (b : Byte) (n : Nat) (bits : List Bool), s.work.TREE = true ∧
      represents s.work.NODE s.work.ROOT (.leaf b n) ∧ s.work.TBITS.toNat = bits.length ∧
      (∀ j, j < bits.length → (payloadBit s j).toOption = bits[j]?) ∧ bits = List.replicate n false ∧ n ≤ s.cfg.outCap) ∧
    ∃ (s : State) (b : Byte) (n : Nat) (bits : List Bool), s.work.TREE = true ∧
      represents s.work.NODE s.work.ROOT (.leaf b n) ∧ s.work.TBITS.toNat = bits.length ∧
      (∀ j, j < bits.length → (payloadBit s j).toOption = bits[j]?) ∧ true ∈ bits :=
  ⟨⟨running .decode .twalk aaaPacked { Work.zero with TREE := true, NODE := [.leaf 0x41 3], HLEN := 7, TBITS := 3 }, 0x41, 3,
      List.replicate 3 false, rfl, ⟨3, rfl, rfl⟩, rfl, by decide, rfl, by decide⟩,
    ⟨running .decode .twalk [0x05, 0x00, 0x01, 0x41, 0x00, 0x00, 0x00, 0x03, 0x20]
        { Work.zero with TREE := true, NODE := [.leaf 0x41 3], HLEN := 7, TBITS := 3 }, 0x41, 3,
      [false, false, true], rfl, ⟨3, rfl, rfl⟩, rfl, by decide, by decide⟩⟩

/-! ### Whole commands -/

theorem codeBits_aabbbcc :
    codeBits termV10 aabbbcc = [true, false, true, false, false, false, false, true, true, true, true] := by decide

/-- V40, by the closed form of R124. -/
theorem encodeResult_aabbbcc : encodeResult aabbbcc = .ok aabbbccPacked := by
  rw [encodeResult, build_aabbbcc]
  simp only [containerOf, codeBits_aabbbcc, frequencies_aabbbcc]
  decide

theorem leafList_packed : leafList (headerEntries aabbbccPacked 3) = [(0x61, 2), (0x62, 3), (0x63, 2)] := by decide +kernel

/-- V40, back. -/
theorem decodeResult_packed : decodeResult aabbbccPacked = .ok aabbbcc := by
  have hn : beNat ((aabbbccPacked.drop 1).take 2) = 3 := by decide
  rw [decodeResult]
  simp only [hn, leafList_packed]
  decide

/-- V40's input, and the empty one, whose result is an error. -/
theorem witness_EncodeComputesTheContainer :
    (∃ (s : State) (d : List Byte), s.idle ∧ s.loaded d ∧ (∀ k, encodeResult d = .ok k → k.length ≤ s.cfg.outCap) ∧
      encodeResult d = .ok aabbbccPacked) ∧
    ∃ (s : State) (d : List Byte), s.idle ∧ s.loaded d ∧ (∀ k, encodeResult d = .ok k → k.length ≤ s.cfg.outCap) ∧
      encodeResult d = .error .emptyInput := by
  have he : encodeResult [] = .error .emptyInput := by decide +kernel
  refine ⟨⟨loadedWith aabbbcc, aabbbcc, loaded_aabbbcc.1, loaded_aabbbcc.2, ?_, encodeResult_aabbbcc⟩,
    ⟨loadedWith [], [], ⟨rfl, rfl⟩, ⟨holds_cells _, rfl, by decide⟩, ?_, he⟩⟩
  · intro k hk
    rw [encodeResult_aabbbcc] at hk
    cases hk; decide
  · intro k hk
    rw [he] at hk
    cases hk

/-- V40's container, and V61's two bytes and V87's container, which fail. -/
theorem witness_DecodeComputesTheData :
    (∃ (s : State) (k : List Byte), s.idle ∧ s.loaded k ∧ (∀ d, decodeResult k = .ok d → d.length ≤ s.cfg.outCap) ∧
      decodeResult k = .ok aabbbcc) ∧
    (∃ (s : State) (k : List Byte), s.idle ∧ s.loaded k ∧ (∀ d, decodeResult k = .ok d → d.length ≤ s.cfg.outCap) ∧
      decodeResult k = .error .tooShort) ∧
    ∃ (s : State) (k : List Byte), s.idle ∧ s.loaded k ∧ (∀ d, decodeResult k = .ok d → d.length ≤ s.cfg.outCap) ∧
      decodeResult k = .error .corruptTree := by
  have h1 : decodeResult [0x00, 0x00] = .error .tooShort := by decide +kernel
  have h2 : decodeResult [0x05, 0x00, 0x01, 0x41, 0x00, 0x00, 0x00, 0x03, 0x20] = .error .corruptTree := by decide +kernel
  refine ⟨⟨loadedWith aabbbccPacked, aabbbccPacked, loaded_packed.1, loaded_packed.2, ?_, decodeResult_packed⟩,
    ⟨loadedWith [0x00, 0x00], _, ⟨rfl, rfl⟩, ⟨holds_cells _, rfl, by decide⟩, ?_, h1⟩,
    ⟨loadedWith [0x05, 0x00, 0x01, 0x41, 0x00, 0x00, 0x00, 0x03, 0x20], _, ⟨rfl, rfl⟩, ⟨holds_cells _, rfl, by decide⟩, ?_, h2⟩⟩
  · intro d hd
    rw [decodeResult_packed] at hd
    cases hd; decide
  · intro d hd
    rw [h1] at hd
    cases hd
  · intro d hd
    rw [h2] at hd
    cases hd

/-- The second machine holds V40's container as its input. -/
theorem witness_DecodeOfEncodeIsTheInput :
    ∃ (s : State) (d k : List Byte), s.idle ∧ s.loaded d ∧ d ≠ [] ∧ encodeResult d = .ok k ∧ k.length ≤ s.cfg.outCap ∧
      ∃ s' : State, s'.idle ∧ s'.IN_LEN.toNat = k.length ∧ s'.IN_LEN.toNat ≤ s'.cfg.inCap ∧
        (∀ a, a < k.length → s'.IN.read a = k[a]?) ∧ d.length ≤ s'.cfg.outCap :=
  ⟨loadedWith aabbbcc, aabbbcc, aabbbccPacked, loaded_aabbbcc.1, loaded_aabbbcc.2, by decide, encodeResult_aabbbcc, by decide,
    loadedWith aabbbccPacked, loaded_packed.1, rfl, by decide, loaded_packed.2.1, by decide⟩

/-- A command on the empty input, and two machines with different histories. -/
theorem witness_TheResultDependsOnTheInputOnly :
    ∃ (s s' t : State) (d : List Byte) (n : Nat) (v : BitVec 40), ((n = 7 ∧ v = 0x01) ∨ (n = 6 ∧ v = 0x02)) ∧
      s.idle ∧ s.loaded d ∧ s'.idle ∧ s'.loaded d ∧ s'.cfg.outCap = s.cfg.outCap ∧ runCommand n v s = .next t ∧ s ≠ s' :=
  ⟨loadedWith [], { loadedWith [] with STATUS := statusFailed, ERR := 6, IN := [(0, 9)] }, _, [], 7, 0x01, .inl ⟨rfl, rfl⟩,
    ⟨rfl, rfl⟩, ⟨holds_cells _, rfl, by decide⟩, ⟨rfl, rfl⟩,
    ⟨by unfold Memory.holds; decide, rfl, by decide⟩, rfl, rfl, by decide⟩

/-- V70, the last cut: c = 19. -/
theorem witness_TruncatedContainersAreRejected :
    ∃ (s : State) (d k : List Byte) (c : Nat), encodeResult d = .ok k ∧ d.length < 2 ^ 32 ∧ c < k.length ∧ s.idle ∧
      s.loaded (k.take c) :=
  ⟨loadedWith (aabbbccPacked.take 19), aabbbcc, aabbbccPacked, 19, encodeResult_aabbbcc, by decide, by decide, ⟨rfl, rfl⟩,
    holds_cells _, rfl, by decide⟩

/-- V41's container. -/
theorem witness_NoSilentWrongAnswer :
    ∃ (s t : State) (k : List Byte), s.idle ∧ s.loaded k ∧ runCommand 6 0x02 s = .next t ∧ t.STATUS = statusDone := by
  obtain ⟨t, ht, h⟩ := exists_of_nextHas (o := runCommand 6 0x02 (loadedWith aaaPacked))
    (p := fun t => t.STATUS == statusDone) (by decide +kernel)
  exact ⟨_, t, aaaPacked, ⟨rfl, rfl⟩, ⟨holds_cells _, rfl, by decide⟩, ht, by simpa using h⟩

/-! ### The host -/

/-- Every register number, busy and not, and the first one that does not exist. -/
theorem witness_RegisterReadsReturnTheRegisters :
    (∀ n, n < 6 → ∃ s : State, s.script = .txn (.rd n) :: [] ∧ s.BUSY = false) ∧
    ∀ n, n < 6 → ∃ s : State, s.script = .txn (.rd n) :: [] ∧ s.BUSY = true :=
  ⟨fun n _ => ⟨{ State.reset with script := [.txn (.rd n)] }, rfl, show State.reset.BUSY = false from rfl⟩,
    fun n _ => ⟨{ encodeRunning with script := [.txn (.rd n)] }, rfl, show encodeRunning.BUSY = true from rfl⟩⟩

theorem witness_HostWritesGoWhereTheyShould :
    (∃ (s : State) (v : BitVec 40), s.BUSY = false ∧ s.script = .txn (.wr 1 v) :: []) ∧
    (∃ (s : State) (a : BitVec 40) (v : Byte), s.BUSY = false ∧ a.toNat < s.cfg.outCap ∧ s.script = .txn (.wrbOut a v) :: []) ∧
    (∃ (s : State) (v : BitVec 40), s.BUSY = false ∧ v.toNat < 2 ^ 32 ∧ s.script = .txn (.wr 3 v) :: [] ∧ v.toNat = 2 ^ 32 - 1) ∧
    (∃ (s : State) (a : BitVec 32) (v : Byte), s.BUSY = false ∧ a.toNat < s.cfg.inCap ∧ s.script = .txn (.wrbIn a v) :: [] ∧
      a.toNat + 1 = s.cfg.inCap) ∧
    (∃ (s : State) (v : BitVec 40), s.BUSY = false ∧ v.toNat ≠ 1 ∧ v.toNat ≠ 2 ∧ s.script = .txn (.wr 0 v) :: [] ∧ v = 3) ∧
    (∃ (s : State) (v : BitVec 40), s.BUSY = false ∧ 2 ^ 32 ≤ v.toNat ∧ s.script = .txn (.wr 3 v) :: [] ∧ v.toNat = 2 ^ 32) ∧
    (∃ (s : State) (v : BitVec 40), s.script = .txn (.wr 5 v) :: []) ∧
    (∃ (s : State) (a : BitVec 32) (v : Byte), s.script = .txn (.wrbIn a v) :: [] ∧ a.toNat = s.cfg.inCap) ∧
    ∃ (s : State) (a : BitVec 40) (v : Byte), s.script = .txn (.wrbOut a v) :: [] ∧ a.toNat = s.cfg.outCap :=
  ⟨⟨{ smallMachine with script := [.txn (.wr 1 7)] }, 7, rfl, rfl⟩,
    ⟨{ smallMachine with script := [.txn (.wrbOut 1 7)] }, 1, 7, rfl, by decide, rfl⟩,
    ⟨{ smallMachine with script := [.txn (.wr 3 0xFFFFFFFF)] }, 0xFFFFFFFF, rfl, by decide, rfl, rfl⟩,
    ⟨{ smallMachine with script := [.txn (.wrbIn 1 7)] }, 1, 7, rfl, by decide, rfl, rfl⟩,
    ⟨{ smallMachine with script := [.txn (.wr 0 3)] }, 3, rfl, by decide, by decide, rfl, rfl⟩,
    ⟨{ smallMachine with script := [.txn (.wr 3 0x100000000)] }, 0x100000000, rfl, by decide, rfl, rfl⟩,
    ⟨{ smallMachine with script := [.txn (.wr 5 7)] }, 7, rfl⟩,
    ⟨{ smallMachine with script := [.txn (.wrbIn 2 7)] }, 2, 7, rfl, rfl⟩,
    ⟨{ smallMachine with script := [.txn (.wrbOut 2 7)] }, 2, 7, rfl, rfl⟩⟩

theorem witness_BufferReadsReturnTheBytes :
    (∃ (s : State) (a : BitVec 32) (b : Byte), a.toNat < s.cfg.inCap ∧ s.IN.read a.toNat = some b ∧ s.script = .txn (.rdbIn a) :: [] ∧
      s.BUSY = true) ∧
    (∃ (s : State) (a : BitVec 40) (b : Byte), a.toNat < s.cfg.outCap ∧ s.BUSY = false ∧ s.OUT.read a.toNat = some b ∧
      s.script = .txn (.rdbOut a) :: []) ∧
    (∃ (s : State) (a : BitVec 32), s.cfg.inCap ≤ a.toNat ∧ s.script = .txn (.rdbIn a) :: []) ∧
    (∃ (s : State) (a : BitVec 40), s.cfg.outCap ≤ a.toNat ∧ s.script = .txn (.rdbOut a) :: []) ∧
    (∃ (s : State) (a : BitVec 32), s.inDraw = 0 ∧ a.toNat < s.cfg.inCap ∧ s.IN.read a.toNat = none ∧
      s.script = .txn (.rdbIn a) :: [] ∧ a.toNat + 1 = s.cfg.inCap) ∧
    (∃ (s : State) (a : BitVec 40), s.outDraw = 0 ∧ a.toNat < s.cfg.outCap ∧ s.BUSY = false ∧ s.OUT.read a.toNat = none ∧
      s.script = .txn (.rdbOut a) :: [] ∧ a.toNat = s.OUT_LEN.toNat) ∧
    ∃ s t : State, (∀ rest, s.script ≠ .reset :: rest) ∧ step s = .next t ∧ t.replies ≠ [] :=
  ⟨⟨{ encodeRunning with script := [.txn (.rdbIn 6)] }, 6, 0x63, by decide, by decide, rfl, rfl⟩,
    ⟨{ smallMachine with OUT := [(1, 0x42)], OUT_LEN := 2, script := [.txn (.rdbOut 1)] }, 1, 0x42, by decide, rfl, rfl, rfl⟩,
    ⟨{ smallMachine with script := [.txn (.rdbIn 2)] }, 2, by decide, rfl⟩,
    ⟨{ smallMachine with script := [.txn (.rdbOut 2)] }, 2, by decide, rfl⟩,
    ⟨{ smallMachine with script := [.txn (.rdbIn 1)] }, 1, rfl, by decide, rfl, rfl, rfl⟩,
    ⟨{ smallMachine with OUT := [(0, 0x42)], OUT_LEN := 1, script := [.txn (.rdbOut 1)] }, 1, rfl, by decide, rfl, rfl, rfl, rfl⟩,
    ⟨{ smallMachine with script := [.txn (.rdbIn 1)] }, _, fun _ h => (by cases h), rfl, List.cons_ne_nil _ _⟩⟩

theorem witness_WaitPollsUntilDone :
    (∃ s : State, s.script = .wait :: [] ∧ s.DONE = true) ∧ ∃ s : State, s.script = .wait :: [] ∧ s.DONE = false :=
  ⟨⟨{ State.reset with STATUS := statusDone, script := [.wait] }, rfl, rfl⟩, ⟨{ encodeRunning with script := [.wait] }, rfl, rfl⟩⟩

/-- A result that fills both buffers, and the empty one; and the shortest result that is too long. -/
theorem witness_CopyBackCopiesTheResult :
    (∃ (s : State) (d : List Byte), s.idle ∧ s.OUT_LEN.toNat = d.length ∧ s.OUT.holds d ∧ d.length < 2 ^ 32 ∧
      d.length ≤ s.cfg.inCap ∧ d.length ≤ s.cfg.outCap ∧ s.script = [.copyBack] ∧ d.length = s.cfg.inCap) ∧
    (∃ (s : State) (d : List Byte), s.idle ∧ s.OUT_LEN.toNat = d.length ∧ s.OUT.holds d ∧ d.length < 2 ^ 32 ∧
      d.length ≤ s.cfg.inCap ∧ d.length ≤ s.cfg.outCap ∧ s.script = [.copyBack] ∧ d = []) ∧
    ∃ s : State, s.BUSY = false ∧ 2 ^ 32 ≤ s.OUT_LEN.toNat ∧ s.script = .copyBack :: [] ∧ s.OUT_LEN.toNat = 2 ^ 32 :=
  ⟨⟨{ smallMachine with STATUS := statusDone, OUT := cells [0x61, 0x62], OUT_LEN := 2, script := [.copyBack] }, [0x61, 0x62],
      ⟨rfl, rfl⟩, rfl, holds_cells _, by decide, by decide, by decide, rfl, rfl⟩,
    ⟨{ smallMachine with script := [.copyBack] }, [], ⟨rfl, rfl⟩, rfl, holds_cells _, by decide, by decide,
      by decide, rfl, rfl⟩,
    ⟨{ State.reset with STATUS := statusDone, OUT_LEN := 0x100000000, script := [.copyBack] }, rfl, by decide, rfl, rfl⟩⟩

/-! ### The remaining statements -/

theorem witness_TheHostCannotInfluenceARunningCommand :
    (∃ (s t : State) (e : HostEvent), s.BUSY = true ∧ s.script = e :: [] ∧ e ≠ .yield ∧ e ≠ .reset ∧ step s = .next t) ∧
    ∃ s t : State, s.sequencerInv ∧ s.BUSY = true ∧ (∀ rest, s.script ≠ .reset :: rest) ∧ step s = .next t :=
  ⟨⟨{ encodeRunning with script := [.txn (.wr 3 9)] }, _, .txn (.wr 3 9), rfl, rfl, by decide, by decide, rfl⟩,
    ⟨encodeRunning, _, sequencerInv_encodeRunning, rfl, fun _ => (List.cons_ne_nil _ _).symm, rfl⟩⟩

theorem witness_AnIdleMachineKeepsTheResult :
    ∃ s t : State, s.idle ∧ (∀ v rest, s.script ≠ .txn (.wr 0 v) :: rest) ∧ (∀ rest, s.script ≠ .reset :: rest) ∧
      step s = .next t ∧ s.STATUS = statusFailed :=
  ⟨{ State.reset with STATUS := statusFailed, ERR := 1 }, _, ⟨rfl, rfl⟩, fun _ _ => (List.cons_ne_nil _ _).symm, fun _ => (List.cons_ne_nil _ _).symm, rfl, rfl⟩

/-- V36: FTDES raises nothing. -/
theorem witness_MoreThan256EntriesAreInvalid_none_raised : ∃ s t : State, exec .ftdes s = .next t ∧ t.PHASE = .mkleaf :=
  ⟨running .decode .ftdes aaaPacked { Work.zero with PADB := 5 }, _, rfl, rfl⟩

theorem witness_WalkingUndoesPacking :
    ∃ (s : State) (t : HTree) (d : List Byte) (bits : List Bool), s.work.TREE = true ∧
      represents s.work.NODE s.work.ROOT t ∧ (∀ b ∈ d, t.codeOf b ≠ none) ∧ bits = codeBits t d ∧
      s.work.TBITS.toNat = bits.length ∧ (∀ j, j < bits.length → (payloadBit s j).toOption = bits[j]?) ∧ t.count = d.length ∧
      d.length ≤ s.cfg.outCap :=
  ⟨running .decode .twalk aabbbccPacked { treeV10 with TBITS := 11 }, termV10, aabbbcc, codeBits termV10 aabbbcc, rfl,
    represents_V10, by decide, rfl, by decide, by decide, rfl, by decide⟩

theorem witness_CodesBelongToThePresentSymbols : ∃ (s : State) (d : List Byte), s.idle ∧ s.loaded d ∧ d ≠ [] :=
  ⟨loadedWith aabbbcc, aabbbcc, loaded_aabbbcc.1, loaded_aabbbcc.2, by decide⟩

theorem witness_ThreeEqualBytesRoundTrip :
    (∃ s : State, s.idle ∧ s.loaded [0x41, 0x41, 0x41] ∧ 9 ≤ s.cfg.outCap) ∧
    ∃ s : State, s.idle ∧ s.loaded [0x05, 0x00, 0x01, 0x41, 0x00, 0x00, 0x00, 0x03, 0x00] ∧ 3 ≤ s.cfg.outCap :=
  ⟨⟨loadedWith [0x41, 0x41, 0x41], ⟨rfl, rfl⟩, ⟨holds_cells _, rfl, by decide⟩, by decide⟩,
    ⟨loadedWith aaaPacked, ⟨rfl, rfl⟩, ⟨holds_cells _, rfl, by decide⟩, by decide⟩⟩

theorem witness_ReadsWhileBusy :
    ∃ (s : State) (a : BitVec 32) (b : Byte), s.sequencerInv ∧ s.BUSY = true ∧ a.toNat < s.cfg.inCap ∧
      s.IN.read a.toNat = some b ∧ s.script = .txn (.rdbIn a) :: [] :=
  ⟨{ encodeRunning with script := [.txn (.rdbIn 6)] }, 6, 0x63, by refine ⟨?_, ?_, ?_, ?_, ?_, ?_⟩ <;> decide, rfl, by decide,
    by decide, rfl⟩

/-- The other clauses of `ReadsWhileBusy`. -/
theorem witness_ReadsWhileBusy_registers :
    ∀ t ∈ [HostTxn.rd 1, .rd 2, .rd 3, .rd 4, .rdbOut 0],
      ∃ s : State, s.sequencerInv ∧ s.BUSY = true ∧ 0 < s.cfg.outCap ∧ s.script = .txn t :: [] :=
  fun t _ => ⟨{ encodeRunning with script := [.txn t] }, sequencerInv_encodeRunning, show encodeRunning.BUSY = true from rfl,
    show 0 < encodeRunning.cfg.outCap by decide, rfl⟩

/-- One present symbol, the header of `aaaPacked`. -/
theorem witness_TheTableSurvivesTheRoundTrip :
    ∃ (s t s' : State) (n : Nat), n = (allSymbols.countP fun b => (s.work.FREQ.get b).isSome) ∧ 1 ≤ n ∧
      s.work.NSYM.toNat = n ∧ 1 + hdrBytes n ≤ s.work.OPTR.toNat ∧ exec .ftser s = .next t ∧
      (∀ a, 1 ≤ a → a < 1 + hdrBytes n → s'.IN.read a = t.OUT.read a) ∧ 1 + hdrBytes n ≤ s'.work.LEN.toNat := by
  obtain ⟨t, ht, h⟩ := exists_of_nextHas
    (o := exec .ftser (running .encode .ftser [0x41, 0x41, 0x41]
      { Work.zero with FREQ := FreqTable.clear.put 0x41 3, NSYM := 1, OPTR := 9 }))
    (p := fun t => decide (∀ a : Nat, a < 7 → (cells aaaPacked).read (1 + a) = t.OUT.read (1 + a))) (by decide +kernel)
  refine ⟨_, t, running .decode .ftdes aaaPacked Work.zero, 1, by decide +kernel, by decide, rfl, by decide, ht, ?_, by decide⟩
  intro a h1 h2
  have := (of_decide_eq_true h) (a - 1) (by simp [hdrBytes] at h2; omega)
  rwa [show 1 + (a - 1) = a by omega] at this

end Sys2Proof.Tests
end

section
/-! The host port while a command runs (R51, R52): what a transaction does to a busy machine, one lemma per
transaction, and from these the two statements about dropped writes and about reads. -/

namespace Sys2Proof.Machine

/-! ## The script's next event -/

/-- A step over a transaction is that transaction on the state that no longer holds it. -/
theorem step_txn {s : State} {t : HostTxn} {rest : List HostEvent} (h : s.script = .txn t :: rest) :
    step s = execTxn t (s.setScript rest) := by
  simp only [step, nextMove, h, execEvent]

/-! ## Writes to a busy machine (R51) -/

/-- R11: a command written while another runs is dropped, whatever it would do. -/
theorem startCommand_of_busy {m : Mode} {f : State → Except Halt State} {s : State} (hb : s.BUSY = true) :
    startCommand m f s = .next s :=
  startCommand_eq_next.2 (.inl ⟨hb, rfl⟩)

theorem exec_encode_of_busy {s : State} (hb : s.BUSY = true) : exec .encode s = .next s := startCommand_of_busy hb

theorem exec_decode_of_busy {s : State} (hb : s.BUSY = true) : exec .decode s = .next s := startCommand_of_busy hb

/-- The two legal values of `CMD` are the two commands (R11). -/
theorem decodeCmdWrite_eq_ok {v : BitVec 40} {i : Instr} (h : decodeCmdWrite v = .ok i) : i = .encode ∨ i = .decode := by
  simp only [decodeCmdWrite, decodeCommand] at h
  split at h
  · split at h <;> cases h
    · exact .inl rfl
    · exact .inr rfl
  · cases h

/-- R11, R51: a write of any value to `CMD` is dropped, legal or reserved. -/
theorem writeCommand_of_busy {s : State} (v : BitVec 40) (hb : s.BUSY = true) : writeCommand v s = .next s := by
  unfold writeCommand
  split
  next i hd =>
    obtain rfl | rfl := decodeCmdWrite_eq_ok hd
    · exact exec_encode_of_busy hb
    · exact exec_decode_of_busy hb
  next => exact if_pos hb

theorem writeInLen_of_busy {s : State} (v : BitVec 40) (hb : s.BUSY = true) : writeInLen v s = .next s := if_pos hb

theorem writeIn_of_busy {s : State} (a : Nat) (v : Byte) (hb : s.BUSY = true) : writeIn a v s = s := if_pos hb

/-- A write to an address of `IN` that exists is `writeIn`; one to any other is refused (R43). -/
theorem execTxn_wrbIn {s : State} {a : BitVec 32} (v : Byte) (ha : a.toNat < s.cfg.inCap) :
    execTxn (.wrbIn a v) s = .next (writeIn a.toNat v s) := if_pos ha

/-! ## Reads of a busy machine (R52) -/

/-- Under the sequencer invariant `BUSY` fixes all of `STATUS` (R12). -/
theorem STATUS_of_busy {s : State} (hinv : s.sequencerInv) (hb : s.BUSY = true) : s.STATUS = statusBusy := by
  obtain ⟨-, hstatus, -⟩ := hinv
  rw [BUSY_def] at hb
  rcases hstatus with h | h | h | h
  · simp [h] at hb
  · exact h
  · simp [h] at hb
  · simp [h] at hb

/-- A read that is unspecified while a command runs logs some value and draws, and does nothing else. -/
theorem readWhileBusy_eq (s : State) (t : HostTxn) (width : Nat) :
    ∃ v, readWhileBusy s t width = ({ s with draws := s.draws + 1 } : State).addReply t v := ⟨_, rfl⟩

theorem readRegister_STATUS (s : State) :
    readRegister 1 s = .next (s.addReply (.rd 1) ((s.STATUS.setWidth 3).setWidth 40)) := rfl

theorem readRegister_IN_LEN (s : State) : readRegister 3 s = .next (s.addReply (.rd 3) (s.IN_LEN.setWidth 40)) := rfl

/-- `ERR` and `OUT_LEN` are the registers whose read is unspecified while a command runs. -/
theorem readRegister_of_busy {s : State} {n : Nat} (hn : n = 2 ∨ n = 4) (hb : s.BUSY = true) :
    ∃ width, readRegister n s = .next (readWhileBusy s (.rd n) width) := by
  obtain rfl | rfl := hn
  · exact ⟨32, congrArg Host.Outcome.next (if_pos hb)⟩
  · exact ⟨40, congrArg Host.Outcome.next (if_pos hb)⟩

theorem execTxn_rdbOut_of_busy {s : State} {a : BitVec 40} (ha : a.toNat < s.cfg.outCap) (hb : s.BUSY = true) :
    execTxn (.rdbOut a) s = .next (readWhileBusy s (.rdbOut a) 8) := by
  simp only [execTxn, if_pos ha, if_pos hb]

theorem hostByteIn_of_read {s : State} {a : Nat} {b : Byte} (h : s.IN.read a = some b) : hostByteIn s a = b := by
  simp only [hostByteIn, h, Option.getD_some]

/-- A written byte of `IN` reads as it was written, running or not. -/
theorem execTxn_rdbIn_of_read {s : State} {a : BitVec 32} {b : Byte} (ha : a.toNat < s.cfg.inCap)
    (hr : s.IN.read a.toNat = some b) : execTxn (.rdbIn a) s = .next (s.addReply (.rdbIn a) (b.setWidth 40)) := by
  simp only [execTxn, if_pos ha, hostByteIn_of_read hr]

/-! ## The statements -/

/-- Settles O20: each of the three writes is dropped by its own test of `BUSY`; a legal `CMD` value by the command's. -/
theorem writesAreDroppedWhileBusy : Obligations.WritesAreDroppedWhileBusy := by
  refine ⟨fun s hb => ⟨exec_encode_of_busy hb, exec_decode_of_busy hb⟩, fun s rest hb => ⟨?command, ?inLen, ?input⟩⟩
  case command => exact fun v hs => (step_txn hs).trans (writeCommand_of_busy v hb)
  case inLen => exact fun v hs => (step_txn hs).trans (writeInLen_of_busy v hb)
  case input =>
    intro a v ha hs
    rw [step_txn hs, execTxn_wrbIn (s := s.setScript rest) v ha, writeIn_of_busy (s := s.setScript rest) _ v hb]

/-- Settles O56: the sequencer invariant gives `STATUS` its value; the other reads need only `BUSY` and the state. -/
theorem readsWhileBusy : Obligations.ReadsWhileBusy := by
  intro s rest hinv hb
  refine ⟨?status, ?errOutLen, ?out, ?inLen, ?input⟩
  case status =>
    intro hs
    have hstatus : (s.setScript rest).STATUS = statusBusy := STATUS_of_busy hinv hb
    rw [step_txn hs, execTxn, readRegister_STATUS, hstatus]
    rfl
  case errOutLen =>
    intro n hn hs
    obtain ⟨width, hread⟩ := readRegister_of_busy (s := s.setScript rest) hn hb
    obtain ⟨v, hv⟩ := readWhileBusy_eq (s.setScript rest) (.rd n) width
    exact ⟨v, (step_txn hs).trans (hread.trans (congrArg _ hv))⟩
  case out =>
    intro a ha hs
    obtain ⟨v, hv⟩ := readWhileBusy_eq (s.setScript rest) (.rdbOut a) 8
    exact ⟨v, (step_txn hs).trans ((execTxn_rdbOut_of_busy (s := s.setScript rest) ha hb).trans (congrArg _ hv))⟩
  case inLen =>
    intro hs
    rw [step_txn hs, execTxn, readRegister_IN_LEN, setScript_IN_LEN, BitVec.ofNat_toNat]
  case input =>
    intro a b ha hr hs
    rw [step_txn hs, execTxn_rdbIn_of_read (s := s.setScript rest) ha hr, BitVec.ofNat_toNat]

end Sys2Proof.Machine
end

section
/-! FCOUNT on the empty input (R81). -/

namespace Sys2Proof.Machine

theorem exec_fcount (s : State) : exec .fcount s = execFcount s := rfl

/-- R81: FCOUNT tests `LEN` before it reads a byte, so on the empty input it raises whatever `IN` holds. -/
theorem execFcount_of_LEN_eq_zero {s : State} (h : s.work.LEN = 0) :
    execFcount s = .next (raiseError .emptyInput s) := by
  rw [execFcount, if_pos h, settle_raise]

/-- Settles O24: the test of `LEN` raises `EmptyInput`, and a raised error is the error entry. -/
theorem fcountOfNothingIsEmptyInput : Obligations.FcountOfNothingIsEmptyInput :=
  fun s h => (exec_fcount s).trans (execFcount_of_LEN_eq_zero h)

end Sys2Proof.Machine
end

section
/-! TBUILD's sort (R87). -/

namespace Sys2Proof.Machine

/-- Settles O27: `stableSort` is the repeated insertion of `stableSort_spec`, which keeps the sorted prefix sorted and
puts each entry behind the earlier ones of its own count. -/
theorem theSortIsStable : Obligations.TheSortIsStable := fun nodes q =>
  have ⟨ascending, perm, stable⟩ := stableSort_spec nodes q
  ⟨perm, ascending, stable⟩

end Sys2Proof.Machine
end

section
/-! The code table CGEN leaves (R95, R96), and that no code in it begins another (R98). -/

namespace Sys2Proof.Machine

theorem exec_cgen (s : State) : exec .cgen s = execCgen s := rfl

/-- R95, R122: where the codes are generated, CGEN writes them to `CODE` and hands over to BPACK. -/
theorem execCgen_of_generateCodes {s : State} {c : CodeTable} (h : generateCodes s.work = .ok c) :
    execCgen s = .next ((s.setWork { s.work with CODE := c }).setPHASE .bpack) := by
  rw [execCgen, h]
  rfl

/-- R95, R96: every code in a table of codes along the tree's paths is the bits of such a path. -/
theorem bits_mem_codes {t : HTree} {c : CodeTable} {b : Byte} {k : Code} (hd : t.depth ≤ 64)
    (hc : ∀ b, c.get b = (t.codes.lookup b).map (Code.along ⟨0, 0⟩)) (h : c.get b = some k) : (b, k.bits) ∈ t.codes := by
  rw [hc] at h
  obtain ⟨p, hp, rfl⟩ := Option.map_eq_some_iff.1 h
  have hmem : (b, p) ∈ t.codes := mem_of_lookup hp
  have hbits := (Code.along_root (HTree.codes_length hd hmem)).1
  rwa [hbits]

/-- Settles O34: both codes' bits are paths of one tree, and two paths of which one begins the other lead to one leaf. -/
theorem noCodeIsAPrefixOfAnother : Obligations.NoCodeIsAPrefixOfAnother := by
  intro s u t hT hrep hd hn hu b b' k k' hne hk hk' hprefix
  obtain ⟨c, hgen, hc⟩ := generateCodes_spec hT hrep hd hn
  rw [exec_cgen, execCgen_of_generateCodes hgen] at hu
  cases hu
  exact hne (HTree.codes_eq_of_prefix (bits_mem_codes hd hc hk) (bits_mem_codes hd hc hk') hprefix)

end Sys2Proof.Machine
end

section
/-! TWALK's two ends (R115, R117): the completion with the symbols read, or the error entry of `CorruptTree`. -/

namespace Sys2Proof.Machine

theorem exec_twalk (s : State) : exec .twalk s = execTwalk s := rfl

theorem execTwalk_of_walkPayload_raise {s : State} {e : ErrKind} (h : walkPayload s = .error (.raise e)) :
    execTwalk s = .next (raiseError e s) := by
  rw [execTwalk, h]
  rfl

/-- R115, R126: a walk that passes its checks completes DECODE, where `OUT` has room for the symbols emitted (R43). -/
theorem execTwalk_of_walkPayload_ok {s : State} {w : Walker} (h : walkPayload s = .ok w)
    (hcap : w.EMIT.toNat ≤ s.cfg.outCap) : execTwalk s = .next (completed w.EMIT (s.setOUT w.out)) := by
  have hcomplete : complete w.EMIT (s.setOUT w.out) = .ok (completed w.EMIT (s.setOUT w.out)) :=
    complete_eq_ok.2 ⟨hcap, rfl⟩
  calc execTwalk s = settle s (complete w.EMIT (s.setOUT w.out)) := by rw [execTwalk, h]; rfl
    _ = .next (completed w.EMIT (s.setOUT w.out)) := by rw [hcomplete, settle_ok]

theorem holds_writeBytes (m : Memory) (d : List Byte) : (m.writeBytes 0 d).holds d := by
  intro i hi
  simp [read_writeBytes, hi]

/-- R123: a completion that counts the bytes at the beginning of `OUT` has these bytes as its result. -/
theorem succeededWith_completed {n : BitVec 40} {s : State} {d : List Byte} (hn : n.toNat = d.length)
    (hd : s.OUT.holds d) : (completed n s).succeededWith d := by
  refine ⟨⟨BUSY_completed n s, rfl⟩, rfl, rfl, hn, ?below, ?beyond⟩
  case below =>
    intro i hi
    rw [completed_OUT, read_keepBelow, hn, if_pos hi, hd i hi]
  case beyond =>
    intro a ha
    rw [completed_OUT, read_keepBelow, hn, if_neg (Nat.not_lt.2 ha)]

/-- Settles O44: by `walkPayload_spec` the walk is `walkResult` of the bits; its symbols are the completion's result,
and its only error is `CorruptTree`. -/
theorem twalkEmitsTheSymbolsOrRaisesCorruptTree : Obligations.TwalkEmitsTheSymbolsOrRaisesCorruptTree := by
  intro s t bits hT ht hlen hbits
  obtain ⟨hok, herror⟩ := walkPayload_spec hT ht hlen hbits
  refine ⟨?symbols, ?corrupt⟩
  case symbols =>
    intro d hd hcap
    obtain ⟨w, hw, hemit, hout⟩ := hok d hd
    refine ⟨_, (exec_twalk s).trans (execTwalk_of_walkPayload_ok hw (hemit ▸ hcap)), ?frame, ?result⟩
    case frame =>
      rw [← hemit, BitVec.ofNat_toNat, BitVec.setWidth_eq]
      rfl
    case result =>
      refine succeededWith_completed hemit ?_
      rw [setOUT_OUT, hout]
      exact holds_writeBytes s.OUT d
  case corrupt =>
    intro e he
    exact ⟨walkResult_error he, (exec_twalk s).trans (execTwalk_of_walkPayload_raise (herror e he))⟩

end Sys2Proof.Machine
end

section
/-! ENCODE of the empty input (R131): the command is accepted, its first check raises `EmptyInput`, and what is left is the
error entry of the accepted state. -/

namespace Sys2Proof.Machine

/-- R141, R146: the error entry of a kind is an idle machine whose last command failed with that kind. -/
theorem failedWith_raiseError (e : ErrKind) (s : State) : (raiseError e s).failedWith e :=
  ⟨⟨BUSY_raiseError e s, raiseError_PHASE e s⟩, raiseError_STATUS e s, raiseError_ERR e s, raiseError_OUT_LEN e s,
    raiseError_OUT e s⟩

/-- R26: neither the acceptance of a command nor the error entry reaches outside the core. -/
theorem sameOutside_raiseError_accept (e : ErrKind) (m : Mode) (s : State) :
    s.sameOutside (raiseError e (accept m s)) := by
  simp [State.sameOutside]

/-- R121: ENCODE tests `LEN` before its first phase. -/
theorem beginEncode_of_LEN_eq_zero {s : State} (h : s.work.LEN = 0) : beginEncode s = .error (.raise .emptyInput) :=
  if_pos h

/-- R131: an empty input is within every `IN_CAP`, so ENCODE is accepted, and it ends in `EmptyInput`. -/
theorem exec_encode_of_IN_LEN_eq_zero {s : State} (hidle : s.BUSY = false) (hlen : s.IN_LEN = 0) :
    exec .encode s = .next (raiseError .emptyInput (accept .encode s)) := by
  have hcap : s.IN_LEN.toNat ≤ s.cfg.inCap := by simp [hlen]
  have hbegin : beginEncode (accept .encode s) = .error (.raise .emptyInput) :=
    beginEncode_of_LEN_eq_zero (by simpa using hlen)
  exact startCommand_eq_next.2 (.inr ⟨hidle, hcap, .inr ⟨_, hbegin, rfl⟩⟩)

/-- Settles O18: the state reached is the error entry of `EmptyInput`, whose code is 1. -/
theorem encodeOfNothingIsEmptyInput : Obligations.EncodeOfNothingIsEmptyInput := by
  intro s hidle hlen
  obtain ⟨idle, status, err, outLen, out⟩ := failedWith_raiseError .emptyInput (accept .encode s)
  exact ⟨_, exec_encode_of_IN_LEN_eq_zero hidle hlen, err, outLen, out, idle, status, sameOutside_raiseError_accept _ _ s⟩

end Sys2Proof.Machine
end

section
/-! What one step can do (R7, R14): the core's turn hands over, completes or enters an error; an event of the host leaves
the core alone. The invariants of the sequencer and of the buffers, and every statement about what a step keeps, follow
from these inversions. -/

namespace Sys2Proof.Machine

/-! ## What every ending of an operation keeps outside the core -/

theorem State.sameOutside.refl (s : State) : s.sameOutside s := ⟨rfl, rfl, rfl, rfl, rfl, rfl⟩

theorem State.sameOutside.trans {s t u : State} (h : s.sameOutside t) (g : t.sameOutside u) : s.sameOutside u := by
  obtain ⟨h1, h2, h3, h4, h5, h6⟩ := h
  obtain ⟨g1, g2, g3, g4, g5, g6⟩ := g
  exact ⟨g1.trans h1, g2.trans h2, g3.trans h3, g4.trans h4, g5.trans h5, g6.trans h6⟩

theorem sameOutside_accept (m : Mode) (s : State) : s.sameOutside (accept m s) := ⟨rfl, rfl, rfl, rfl, rfl, rfl⟩

theorem handsOver.sameOutside {s t : State} {p : Phase} (h : handsOver s p t) : s.sameOutside t := by
  obtain ⟨w, m, rfl, -⟩ := h
  exact ⟨rfl, rfl, rfl, rfl, rfl, rfl⟩

theorem completes.sameOutside {s t : State} (h : completes s t) : s.sameOutside t := by
  obtain ⟨n, m, rfl, -⟩ := h
  exact ⟨rfl, rfl, rfl, rfl, rfl, rfl⟩

theorem enters.sameOutside {ks : List ErrKind} {s t : State} (h : enters ks s t) : s.sameOutside t := by
  obtain ⟨e, -, rfl⟩ := h
  exact ⟨rfl, rfl, rfl, rfl, rfl, rfl⟩

theorem handsOver.PHASE {s t : State} {p : Phase} (h : handsOver s p t) : t.PHASE = p := by
  obtain ⟨w, m, rfl, -⟩ := h
  rfl

theorem handsOver.sameRegisters {s t : State} {p : Phase} (h : handsOver s p t) : s.sameRegisters t := by
  obtain ⟨w, m, rfl, -⟩ := h
  exact ⟨rfl, rfl, rfl, rfl, rfl, rfl, rfl⟩

theorem completes.done {s t : State} (h : completes s t) :
    t.PHASE = .idle ∧ t.STATUS = statusDone ∧ t.ERR = 0 ∧ t.MODE = s.MODE := by
  obtain ⟨n, m, rfl, -⟩ := h
  exact ⟨rfl, rfl, rfl, rfl⟩

/-! ## The core's turn -/

/-- How a phase can end: it hands over to its successor in `MODE` (R122), completes the command, or enters an error. -/
def turnEnds (s t : State) : Prop :=
  (∃ p, handsOver s p t ∧ p ≠ .idle ∧ (s.PHASE.occursIn s.MODE = true → Phase.mayFollow s.MODE s.PHASE p = true)) ∨
  (completes s t ∧ (s.PHASE.occursIn s.MODE = true → Phase.mayFollow s.MODE s.PHASE .idle = true)) ∨
  ∃ e, t = raiseError e s

theorem turnEnds_of_handsOver {s t : State} {p : Phase} (h : handsOver s p t) (hp : p ≠ .idle)
    (hnext : s.PHASE.occursIn s.MODE = true → Phase.mayFollow s.MODE s.PHASE p = true) : turnEnds s t :=
  .inl ⟨p, h, hp, hnext⟩

theorem turnEnds_of_completes {s t : State} (h : completes s t)
    (hnext : s.PHASE.occursIn s.MODE = true → Phase.mayFollow s.MODE s.PHASE .idle = true) : turnEnds s t :=
  .inr (.inl ⟨h, hnext⟩)

theorem turnEnds_of_enters {s t : State} {ks : List ErrKind} (h : enters ks s t) : turnEnds s t := by
  obtain ⟨e, -, he⟩ := h
  exact .inr (.inr ⟨e, he⟩)

/-- An idle core waits (R153). -/
theorem coreTurn_of_idle {s : State} (h : s.PHASE = .idle) : coreTurn s = .next s := by
  simp only [coreTurn, h]
  rfl

/-- The core's turn is the operation `PHASE` names. -/
theorem coreTurn_of_PHASE {s : State} {p : Phase} {i : Instr} (hp : s.PHASE = p) (hd : decodePhase p.code = .ok i) :
    coreTurn s = exec i s := by
  simp only [coreTurn, hp, hd]

/-- A phase's successor, checked in both modes, is its successor in `MODE` (R122). -/
theorem mayFollow_of_PHASE {s : State} {p q : Phase} (hp : s.PHASE = p)
    (he : p.occursIn .encode = true → Phase.mayFollow .encode p q = true)
    (hd : p.occursIn .decode = true → Phase.mayFollow .decode p q = true) :
    s.PHASE.occursIn s.MODE = true → Phase.mayFollow s.MODE s.PHASE q = true := by
  rw [hp]
  cases s.MODE
  · exact he
  · exact hd

/-- R14, R122: the core's turn on a phase ends in one of three ways. -/
theorem coreTurn_next {s t : State} (hp : s.PHASE ≠ .idle) (h : coreTurn s = .next t) : turnEnds s t := by
  cases hph : s.PHASE with
  | idle => exact absurd hph hp
  | fcount =>
    rw [coreTurn_of_PHASE (i := .fcount) hph rfl] at h
    rcases execFcount_next h with hh | he
    · exact turnEnds_of_handsOver hh (by decide) (mayFollow_of_PHASE hph (by decide) (by decide))
    · exact turnEnds_of_enters he
  | mkleaf =>
    rw [coreTurn_of_PHASE (i := .mkleaf) hph rfl] at h
    exact turnEnds_of_handsOver (execMkleaf_next h) (by decide) (mayFollow_of_PHASE hph (by decide) (by decide))
  | tbuild =>
    rw [coreTurn_of_PHASE (i := .tbuild) hph rfl] at h
    have hh := execTbuild_next h
    cases hm : s.MODE <;> rw [hm] at hh
    · exact turnEnds_of_handsOver hh (by decide) (fun _ => by rw [hph, hm]; rfl)
    · exact turnEnds_of_handsOver hh (by decide) (fun _ => by rw [hph, hm]; rfl)
  | cgen =>
    rw [coreTurn_of_PHASE (i := .cgen) hph rfl] at h
    exact turnEnds_of_handsOver (execCgen_next h) (by decide) (mayFollow_of_PHASE hph (by decide) (by decide))
  | bpack =>
    rw [coreTurn_of_PHASE (i := .bpack) hph rfl] at h
    exact turnEnds_of_handsOver (execBpack_next h) (by decide) (mayFollow_of_PHASE hph (by decide) (by decide))
  | ftser =>
    rw [coreTurn_of_PHASE (i := .ftser) hph rfl] at h
    exact turnEnds_of_completes (execFtser_next h) (mayFollow_of_PHASE hph (by decide) (by decide))
  | ftdes =>
    rw [coreTurn_of_PHASE (i := .ftdes) hph rfl] at h
    rcases execFtdes_next h with hh | he
    · exact turnEnds_of_handsOver hh (by decide) (mayFollow_of_PHASE hph (by decide) (by decide))
    · exact turnEnds_of_enters he
  | bunpk =>
    rw [coreTurn_of_PHASE (i := .bunpk) hph rfl] at h
    exact turnEnds_of_handsOver (execBunpk_next h) (by decide) (mayFollow_of_PHASE hph (by decide) (by decide))
  | twalk =>
    rw [coreTurn_of_PHASE (i := .twalk) hph rfl] at h
    rcases execTwalk_next h with hc | he
    · exact turnEnds_of_completes hc (mayFollow_of_PHASE hph (by decide) (by decide))
    · exact turnEnds_of_enters he

theorem turnEnds.sameOutside {s t : State} (h : turnEnds s t) : s.sameOutside t := by
  rcases h with ⟨p, hh, -⟩ | ⟨hc, -⟩ | ⟨e, rfl⟩
  · exact hh.sameOutside
  · exact hc.sameOutside
  · exact ⟨rfl, rfl, rfl, rfl, rfl, rfl⟩

/-! ## The host's events -/

/-- What an event that is neither the core's turn, a command nor a reset can change: the host's own fields, and on an idle
machine `IN_LEN` and the bytes of `IN` that the implementation provides (R41, R51). -/
structure hostOnly (s t : State) : Prop where
  cfg     : t.cfg = s.cfg
  STATUS  : t.STATUS = s.STATUS
  ERR     : t.ERR = s.ERR
  OUT_LEN : t.OUT_LEN = s.OUT_LEN
  PHASE   : t.PHASE = s.PHASE
  MODE    : t.MODE = s.MODE
  work    : t.work = s.work
  OUT     : t.OUT = s.OUT
  inDraw  : t.inDraw = s.inDraw
  outDraw : t.outDraw = s.outDraw
  busy    : s.BUSY = true → t.IN = s.IN ∧ t.IN_LEN = s.IN_LEN
  wf      : s.IN.wf = true → t.IN.wf = true
  bound   : (∀ c ∈ s.IN, c.1 < s.cfg.inCap) → ∀ c ∈ t.IN, c.1 < s.cfg.inCap

theorem hostOnly.BUSY {s t : State} (h : hostOnly s t) : t.BUSY = s.BUSY := by rw [BUSY_def, BUSY_def, h.STATUS]

theorem hostOnly.refl (s : State) : hostOnly s s :=
  ⟨rfl, rfl, rfl, rfl, rfl, rfl, rfl, rfl, rfl, rfl, fun _ => ⟨rfl, rfl⟩, id, id⟩

theorem hostOnly.trans {s t u : State} (h : hostOnly s t) (g : hostOnly t u) : hostOnly s u where
  cfg     := g.cfg.trans h.cfg
  STATUS  := g.STATUS.trans h.STATUS
  ERR     := g.ERR.trans h.ERR
  OUT_LEN := g.OUT_LEN.trans h.OUT_LEN
  PHASE   := g.PHASE.trans h.PHASE
  MODE    := g.MODE.trans h.MODE
  work    := g.work.trans h.work
  OUT     := g.OUT.trans h.OUT
  inDraw  := g.inDraw.trans h.inDraw
  outDraw := g.outDraw.trans h.outDraw
  busy hb :=
    have ⟨h1, h2⟩ := h.busy hb
    have ⟨g1, g2⟩ := g.busy (h.BUSY.trans hb)
    ⟨g1.trans h1, g2.trans h2⟩
  wf hw   := g.wf (h.wf hw)
  bound hc := h.cfg ▸ g.bound (h.cfg ▸ h.bound hc)

theorem hostOnly_setScript (s : State) (l : List HostEvent) : hostOnly s (s.setScript l) :=
  ⟨rfl, rfl, rfl, rfl, rfl, rfl, rfl, rfl, rfl, rfl, fun _ => ⟨rfl, rfl⟩, id, id⟩

theorem hostOnly_addReply (s : State) (t : HostTxn) (v : BitVec 40) : hostOnly s (s.addReply t v) :=
  ⟨rfl, rfl, rfl, rfl, rfl, rfl, rfl, rfl, rfl, rfl, fun _ => ⟨rfl, rfl⟩, id, id⟩

theorem hostOnly_readWhileBusy (s : State) (t : HostTxn) (n : Nat) : hostOnly s (readWhileBusy s t n) :=
  ⟨rfl, rfl, rfl, rfl, rfl, rfl, rfl, rfl, rfl, rfl, fun _ => ⟨rfl, rfl⟩, id, id⟩

theorem hostOnly_setIN_LEN {s : State} (hb : s.BUSY = false) (n : BitVec 32) : hostOnly s { s with IN_LEN := n } :=
  ⟨rfl, rfl, rfl, rfl, rfl, rfl, rfl, rfl, rfl, rfl, fun h => by simp [hb] at h, id, id⟩

theorem hostOnly_writeIn {s : State} {a : Nat} (ha : a < s.cfg.inCap) (v : Byte) : hostOnly s (writeIn a v s) := by
  unfold writeIn
  cases hb : s.BUSY
  · refine ⟨rfl, rfl, rfl, rfl, rfl, rfl, rfl, rfl, rfl, rfl, fun h => by simp [hb] at h, fun hw => wf_write hw a v, ?_⟩
    intro hc c hmem
    rcases mem_write hmem with rfl | hmem
    · exact ha
    · exact hc c hmem
  · exact hostOnly.refl s

/-- A read of a register leaves all but the host's log as it was. -/
theorem readRegister_next {n : Nat} {s t : State} (h : readRegister n s = .next t) : hostOnly s t := by
  unfold readRegister at h
  split at h
  · cases h; exact hostOnly_addReply s _ _
  · cases h; exact hostOnly_addReply s _ _
  · cases h
    split
    · exact hostOnly_readWhileBusy s _ _
    · exact hostOnly_addReply s _ _
  · cases h; exact hostOnly_addReply s _ _
  · cases h
    split
    · exact hostOnly_readWhileBusy s _ _
    · exact hostOnly_addReply s _ _
  · cases h

theorem writeInLen_next {v : BitVec 40} {s t : State} (h : writeInLen v s = .next t) : hostOnly s t := by
  unfold writeInLen at h
  cases hb : s.BUSY
  · rw [hb, if_neg Bool.false_ne_true] at h
    split at h
    · cases h; exact hostOnly_setIN_LEN hb _
    · cases h
  · rw [hb, if_pos rfl] at h
    cases h; exact hostOnly.refl s

/-- A write to `CMD` starts the command its value encodes, or is dropped (R11). -/
theorem writeCommand_next {v : BitVec 40} {s t : State} (h : writeCommand v s = .next t) :
    (∃ i, decodeCmdWrite v = .ok i ∧ exec i s = .next t) ∨ t = s := by
  unfold writeCommand at h
  split at h
  next i hd => exact .inl ⟨i, hd, h⟩
  next =>
    split at h
    · cases h; exact .inr rfl
    · cases h

/-- A transaction is a command's acceptance or leaves the core alone. -/
theorem execTxn_next {x : HostTxn} {s t : State} (h : execTxn x s = .next t) :
    (∃ v i, x = .wr 0 v ∧ decodeCmdWrite v = .ok i ∧ exec i s = .next t) ∨ hostOnly s t := by
  cases x with
  | wr reg v =>
    simp only [execTxn, writeRegister] at h
    split at h
    · rcases writeCommand_next h with ⟨i, hd, he⟩ | rfl
      · exact .inl ⟨v, i, rfl, hd, he⟩
      · exact .inr (hostOnly.refl _)
    · cases h; exact .inr (hostOnly.refl s)
    · cases h; exact .inr (hostOnly.refl s)
    · exact .inr (writeInLen_next h)
    · cases h; exact .inr (hostOnly.refl s)
    · cases h
  | rd reg => exact .inr (readRegister_next h)
  | wrbIn a v =>
    simp only [execTxn] at h
    split at h
    next ha => cases h; exact .inr (hostOnly_writeIn ha v)
    next => cases h
  | rdbIn a =>
    simp only [execTxn] at h
    split at h
    · cases h; exact .inr (hostOnly_addReply s _ _)
    · cases h
  | wrbOut a v =>
    simp only [execTxn] at h
    split at h
    · cases h; exact .inr (hostOnly.refl s)
    · cases h
  | rdbOut a =>
    simp only [execTxn] at h
    split at h
    · cases h
      split
      · exact .inr (hostOnly_readWhileBusy s _ _)
      · exact .inr (hostOnly_addReply s _ _)
    · cases h

/-- A transaction that is no write to `CMD` leaves the core alone. -/
theorem hostOnly_of_execTxn {x : HostTxn} {s t : State} (hx : ∀ v, x ≠ .wr 0 v) (h : execTxn x s = .next t) : hostOnly s t := by
  rcases execTxn_next h with ⟨v, i, hv, -⟩ | hh
  · exact absurd hv (hx v)
  · exact hh

theorem execWait_next {s t : State} (h : execWait s = .next t) : hostOnly s t := by
  unfold execWait at h
  split at h
  next u hu =>
    cases h
    split
    · exact readRegister_next hu
    · exact (readRegister_next hu).trans (hostOnly_setScript u _)
  next hno => exact absurd h (hno t)

theorem execCopyBack_next {s t : State} (h : execCopyBack s = .next t) : hostOnly s t := by
  unfold execCopyBack at h
  split at h
  next u hu =>
    simp only at h
    split at h
    · cases h; exact (readRegister_next hu).trans (hostOnly_setScript u _)
    · cases h
  next hno => exact absurd h (hno t)

theorem execCopyByte_next {a : BitVec 32} {s t : State} (h : execCopyByte a s = .next t) : hostOnly s t := by
  unfold execCopyByte at h
  split at h
  next u hu => exact (hostOnly_of_execTxn (by simp) hu).trans (hostOnly_of_execTxn (by simp) h)
  next hno => exact absurd h (hno t)

/-- What one event can do (R7): a reset, a turn of the core, a command's acceptance, or nothing to the core. -/
theorem execEvent_next {e : HostEvent} {s t : State} (h : execEvent e s = .next t) :
    (e = .reset ∧ t = platformReset s) ∨ (e = .yield ∧ coreTurn s = .next t) ∨
      (∃ v i, e = .txn (.wr 0 v) ∧ decodeCmdWrite v = .ok i ∧ exec i s = .next t) ∨ hostOnly s t := by
  cases e with
  | txn x =>
    rcases execTxn_next h with ⟨v, i, rfl, hd, he⟩ | hh
    · exact .inr (.inr (.inl ⟨v, i, rfl, hd, he⟩))
    · exact .inr (.inr (.inr hh))
  | yield => exact .inr (.inl ⟨rfl, h⟩)
  | wait => exact .inr (.inr (.inr (execWait_next h)))
  | copyBack => exact .inr (.inr (.inr (execCopyBack_next h)))
  | copyByte a => exact .inr (.inr (.inr (execCopyByte_next h)))
  | reset => cases h; exact .inl ⟨rfl, rfl⟩

theorem step_of_script_cons {s : State} {e : HostEvent} {rest : List HostEvent} (h : s.script = e :: rest) :
    step s = execEvent e (s.setScript rest) := by
  simp only [step, nextMove, h]

theorem step_of_script_nil {s : State} (h : s.script = []) : step s = coreTurn s := by
  simp only [step, nextMove, h]

/-- What one step can do, where `u` is the state without the event that the step takes off the script. -/
theorem step_next {s t : State} (h : step s = .next t) :
    ∃ u, hostOnly s u ∧ s.sameRegisters u ∧ u.IN = s.IN ∧ (s.script = [] → u = s) ∧
      (coreTurn u = .next t ∨ (∃ rest, s.script = .reset :: rest ∧ t = platformReset u) ∨
        (∃ v i rest, s.script = .txn (.wr 0 v) :: rest ∧ decodeCmdWrite v = .ok i ∧ exec i u = .next t) ∨
        (s.script ≠ [] ∧ hostOnly u t)) := by
  cases hs : s.script with
  | nil =>
    rw [step_of_script_nil hs] at h
    exact ⟨s, hostOnly.refl s, ⟨rfl, rfl, rfl, rfl, rfl, rfl, rfl⟩, rfl, fun _ => rfl, .inl h⟩
  | cons e rest =>
    rw [step_of_script_cons hs] at h
    refine ⟨s.setScript rest, hostOnly_setScript s rest, ⟨rfl, rfl, rfl, rfl, rfl, rfl, rfl⟩, rfl, fun hn => by simp at hn, ?_⟩
    rcases execEvent_next h with ⟨rfl, ht⟩ | ⟨rfl, hc⟩ | ⟨v, i, rfl, hd, he⟩ | hh
    · exact .inr (.inl ⟨rest, rfl, ht⟩)
    · exact .inl hc
    · exact .inr (.inr (.inl ⟨v, i, rest, rfl, hd, he⟩))
    · exact .inr (.inr (.inr ⟨by simp, hh⟩))

end Sys2Proof.Machine
end

section
/-! The invariant of the sequencer (R12 to R16): a running machine and an idle one meet it each for reasons of its own, and
every step leads from one that meets it to one that does. -/

namespace Sys2Proof.Machine

/-- What the host registers hold from acceptance to completion (R120). -/
structure State.running (s : State) : Prop where
  STATUS  : s.STATUS = statusBusy
  ERR     : s.ERR = 0
  OUT_LEN : s.OUT_LEN = 0
  LEN     : s.work.LEN = s.IN_LEN
  inCap   : s.IN_LEN.toNat ≤ s.cfg.inCap

theorem State.running.BUSY {s : State} (h : s.running) : s.BUSY = true := by
  rw [BUSY_def, h.STATUS]; decide

/-- A running machine is one of `running`, in a phase of its mode. -/
theorem State.sequencerInv.running {s : State} (h : s.sequencerInv) (hb : s.BUSY = true) :
    s.running ∧ s.PHASE ≠ .idle ∧ s.PHASE.occursIn s.MODE = true := by
  have hstatus := STATUS_of_busy h hb
  obtain ⟨hphase, -, herr, -, hout, hbusy⟩ := h
  obtain ⟨hlen, hcap, hmode⟩ := hbusy hb
  refine ⟨⟨hstatus, ?err, hout (by rw [hstatus]; decide), hlen, hcap⟩, ?phase, hmode⟩
  case err =>
    by_contra hne
    exact absurd (hstatus.symm.trans (herr.1 hne)) (by decide)
  case phase =>
    intro hp
    simp [hphase.1 hp] at hb

theorem sequencerInv_of_running {s : State} (h : s.running) (hp : s.PHASE ≠ .idle) (hm : s.PHASE.occursIn s.MODE = true) :
    s.sequencerInv := by
  have hne : s.STATUS ≠ statusFailed := by rw [h.STATUS]; decide
  refine ⟨?phase, .inr (.inl h.STATUS), ?error, ?code, fun _ => h.OUT_LEN, fun _ => ⟨h.LEN, h.inCap, hm⟩⟩
  case phase => exact ⟨fun hi => absurd hi hp, fun hb => by simp [h.BUSY] at hb⟩
  case error => exact ⟨fun he => absurd h.ERR he, fun hs => absurd hs hne⟩
  case code => rw [h.ERR]; decide

theorem errorCode_ne_zero (e : ErrKind) : errorCode e ≠ 0 := by cases e <;> decide

theorem errorCode_toNat_le (e : ErrKind) : (errorCode e).toNat ≤ 7 := by cases e <;> decide

/-- How a machine can be idle: after a reset, after a success, after a failure. -/
def State.rests (s : State) : Prop :=
  (s.STATUS = 0 ∧ s.ERR = 0 ∧ s.OUT_LEN = 0) ∨ (s.STATUS = statusDone ∧ s.ERR = 0) ∨
    (s.STATUS = statusFailed ∧ s.OUT_LEN = 0 ∧ ∃ e, s.ERR = errorCode e)

theorem State.rests.BUSY {s : State} (h : s.rests) : s.BUSY = false := by
  rw [BUSY_def]
  rcases h with ⟨h, -⟩ | ⟨h, -⟩ | ⟨h, -⟩ <;> rw [h] <;> decide

theorem sequencerInv_of_rests {s : State} (hp : s.PHASE = .idle) (h : s.rests) : s.sequencerInv := by
  have hb := h.BUSY
  have hidle : s.PHASE = .idle ↔ s.BUSY = false := ⟨fun _ => hb, fun _ => hp⟩
  have hfree : s.BUSY = true → s.work.LEN = s.IN_LEN ∧ s.IN_LEN.toNat ≤ s.cfg.inCap ∧ s.PHASE.occursIn s.MODE := by simp [hb]
  rcases h with ⟨hs, he, ho⟩ | ⟨hs, he⟩ | ⟨hs, ho, e, he⟩
  · exact ⟨hidle, .inl hs, by rw [hs, he]; decide, by rw [he]; decide, fun _ => ho, hfree⟩
  · exact ⟨hidle, .inr (.inr (.inl hs)), by rw [hs, he]; decide, by rw [he]; decide, fun hd => absurd hs hd, hfree⟩
  · refine ⟨hidle, .inr (.inr (.inr hs)), ?_, he ▸ errorCode_toNat_le e, fun _ => ho, hfree⟩
    exact ⟨fun _ => hs, fun _ => he ▸ errorCode_ne_zero e⟩

theorem rests_raiseError (e : ErrKind) (s : State) : (raiseError e s).rests := .inr (.inr ⟨rfl, rfl, e, rfl⟩)

theorem completes.rests {s t : State} (h : completes s t) : t.rests := by
  obtain ⟨-, hs, he, -⟩ := h.done
  exact .inr (.inl ⟨hs, he⟩)

theorem rests_platformReset (s : State) : (platformReset s).rests := .inl ⟨rfl, rfl, rfl⟩

theorem running_accept (m : Mode) {s : State} (h : s.IN_LEN.toNat ≤ s.cfg.inCap) : (accept m s).running :=
  ⟨rfl, rfl, rfl, rfl, h⟩

theorem State.running.handsOver {s t : State} {p : Phase} (h : s.running) (hh : handsOver s p t) : t.running := by
  obtain ⟨w, m, rfl, hl, -⟩ := hh
  exact ⟨h.STATUS, h.ERR, h.OUT_LEN, hl.trans h.LEN, h.inCap⟩

/-- R122: a successor belongs to the mode it is a successor in. -/
theorem occursIn_of_mayFollow {m : Mode} {p q : Phase} : Phase.mayFollow m p q = true → q.occursIn m = true := by
  cases m <;> cases p <;> cases q <;> decide

/-- A turn of the core that began in agreement ends in it. -/
theorem State.sequencerInv.coreTurn {s t : State} (h : s.sequencerInv) (ht : coreTurn s = .next t) : t.sequencerInv := by
  by_cases hp : s.PHASE = .idle
  · rw [coreTurn_of_idle hp] at ht
    cases ht
    exact h
  · have hb : s.BUSY = true := by simpa using fun hb => hp (h.1.2 hb)
    obtain ⟨hrun, -, hmode⟩ := h.running hb
    rcases coreTurn_next hp ht with ⟨p, hh, hne, hnext⟩ | ⟨hc, -⟩ | ⟨e, rfl⟩
    · refine sequencerInv_of_running (hrun.handsOver hh) (hh.PHASE ▸ hne) ?_
      obtain ⟨-, -, -, -, hm, -⟩ := hh.sameRegisters
      rw [hh.PHASE, hm]
      exact occursIn_of_mayFollow (hnext hmode)
    · exact sequencerInv_of_rests hc.done.1 hc.rests
    · exact sequencerInv_of_rests rfl (rests_raiseError e s)

/-- What a command's acceptance leaves: nothing new, or the accepted state's first phase, or its error entry. -/
theorem exec_command_next {v : BitVec 40} {i : Instr} {s t : State} (hd : decodeCmdWrite v = .ok i) (h : exec i s = .next t) :
    (s.BUSY = true ∧ t = s) ∨
    (s.BUSY = false ∧ s.IN_LEN.toNat ≤ s.cfg.inCap ∧ ∃ m,
      ((∃ p, handsOver (accept m s) p t ∧ (m = .encode ∧ p = .fcount ∨ m = .decode ∧ p = .ftdes)) ∨
        ∃ e, t = raiseError e (accept m s))) := by
  rcases decodeCmdWrite_eq_ok hd with rfl | rfl
  · rcases execEncode_next h with hbusy | ⟨hb, hc, hh | ⟨e, -, he⟩⟩
    · exact .inl hbusy
    · exact .inr ⟨hb, hc, .encode, .inl ⟨_, hh, .inl ⟨rfl, rfl⟩⟩⟩
    · exact .inr ⟨hb, hc, .encode, .inr ⟨e, he⟩⟩
  · rcases execDecode_next h with hbusy | ⟨hb, hc, hh | ⟨e, -, he⟩⟩
    · exact .inl hbusy
    · exact .inr ⟨hb, hc, .decode, .inl ⟨_, hh, .inr ⟨rfl, rfl⟩⟩⟩
    · exact .inr ⟨hb, hc, .decode, .inr ⟨e, he⟩⟩

theorem State.sequencerInv.exec_command {v : BitVec 40} {i : Instr} {s t : State} (h : s.sequencerInv)
    (hd : decodeCmdWrite v = .ok i) (ht : exec i s = .next t) : t.sequencerInv := by
  rcases exec_command_next hd ht with ⟨-, rfl⟩ | ⟨-, hc, m, ⟨p, hh, hmp⟩ | ⟨e, rfl⟩⟩
  · exact h
  · have hrun := (running_accept m hc).handsOver hh
    obtain ⟨-, -, -, -, hm, -⟩ := hh.sameRegisters
    rcases hmp with ⟨rfl, rfl⟩ | ⟨rfl, rfl⟩
    · exact sequencerInv_of_running hrun (by rw [hh.PHASE]; decide) (by rw [hh.PHASE, hm]; rfl)
    · exact sequencerInv_of_running hrun (by rw [hh.PHASE]; decide) (by rw [hh.PHASE, hm]; rfl)
  · exact sequencerInv_of_rests rfl (rests_raiseError e _)

/-- What the host does to its own fields does not touch the agreement. -/
theorem State.sequencerInv.hostOnly {s t : State} (h : s.sequencerInv) (hh : hostOnly s t) : t.sequencerInv := by
  obtain ⟨hphase, hstatus, herr, hcode, hout, hbusy⟩ := h
  rw [State.sequencerInv, hh.BUSY, hh.PHASE, hh.STATUS, hh.ERR, hh.OUT_LEN, hh.MODE, hh.work, hh.cfg]
  refine ⟨hphase, hstatus, herr, hcode, hout, fun hb => ?_⟩
  rw [(hh.busy hb).2]
  exact hbusy hb

/-- Settles O8: each of the four things a step can do leads from agreement to agreement. -/
theorem everyStepKeepsTheSequencerInvariant : Obligations.EveryStepKeepsTheSequencerInvariant := by
  intro s t h hst
  obtain ⟨u, hu, -, -, -, hmove⟩ := step_next hst
  have hinv := h.hostOnly hu
  rcases hmove with hturn | ⟨rest, -, rfl⟩ | ⟨v, i, rest, -, hd, hexec⟩ | ⟨-, hhost⟩
  · exact hinv.coreTurn hturn
  · exact sequencerInv_of_rests rfl (rests_platformReset u)
  · exact hinv.exec_command hd hexec
  · exact hinv.hostOnly hhost

end Sys2Proof.Machine
end

section
/-! The invariant of the buffers (R43, R48, R82, R110). The canonical form and the bound on `IN` are kept by every ending of
an operation; which bytes of `OUT` have a value is the work of BPACK, FTSER and TWALK. -/

namespace Sys2Proof.Machine

/-- The part of the buffers' invariant that does not look at `OUT_LEN` or at a running ENCODE. -/
structure State.canonical (s : State) : Prop where
  IN    : s.IN.wf = true
  OUT   : s.OUT.wf = true
  bound : ∀ c ∈ s.IN, c.1 < s.cfg.inCap

theorem State.buffersInv.canonical {s : State} (h : s.buffersInv) : s.canonical := by
  obtain ⟨hin, hout, hb, -⟩ := h
  exact ⟨hin, hout, hb⟩

theorem State.canonical.handsOver {s t : State} {p : Phase} (h : s.canonical) (hh : handsOver s p t) : t.canonical := by
  obtain ⟨w, m, rfl, -, hwf⟩ := hh
  exact ⟨h.IN, hwf h.OUT, h.bound⟩

theorem State.canonical.completes {s t : State} (h : s.canonical) (hc : completes s t) : t.canonical := by
  obtain ⟨n, m, rfl, -, hwf⟩ := hc
  exact ⟨h.IN, wf_keepBelow (hwf h.OUT) _, h.bound⟩

theorem State.canonical.raiseError {s : State} (h : s.canonical) (e : ErrKind) : (raiseError e s).canonical :=
  ⟨h.IN, rfl, h.bound⟩

theorem State.canonical.accept {s : State} (h : s.canonical) (m : Mode) : (accept m s).canonical := ⟨h.IN, rfl, h.bound⟩

theorem State.canonical.turnEnds {s t : State} (h : s.canonical) (ht : turnEnds s t) : t.canonical := by
  rcases ht with ⟨p, hh, -⟩ | ⟨hc, -⟩ | ⟨e, rfl⟩
  · exact h.handsOver hh
  · exact h.completes hc
  · exact h.raiseError e

/-- Exactly the bytes of the result have a value, and `OUT` has room for them (R43, R48). -/
def State.holdsResult (s : State) : Prop :=
  (∀ a, s.OUT.read a ≠ none ↔ a < s.OUT_LEN.toNat) ∧ s.OUT_LEN.toNat ≤ s.cfg.outCap

theorem holdsResult_of_empty {s : State} (ho : s.OUT = []) (hl : s.OUT_LEN = 0) : s.holdsResult := by
  simp [State.holdsResult, ho, hl]

/-- No ENCODE that has come as far as TBUILD is running, so nothing is owed to the result. -/
theorem payloadInv_of_PHASE {s : State} (h : s.PHASE ≠ .tbuild ∧ s.PHASE ≠ .cgen ∧ s.PHASE ≠ .bpack ∧ s.PHASE ≠ .ftser) :
    s.payloadInv := by
  obtain ⟨h1, h2, h3, h4⟩ := h
  exact ⟨fun _ hp => by simp [h1, h2, h3, h4] at hp, fun hp => absurd hp h4⟩

theorem payloadInv_of_header {s : State} (hp : s.PHASE ≠ .ftser)
    (h : s.MODE = .encode → s.work.HLEN.toNat = hdrBytes s.work.FREQ.present.length) : s.payloadInv :=
  ⟨fun hm _ => h hm, fun hf => absurd hf hp⟩

theorem buffersInv_of_busy {s : State} (h : s.canonical) (hb : s.BUSY = true) (hp : s.payloadInv) : s.buffersInv :=
  ⟨h.IN, h.OUT, h.bound, fun hf => by simp [hb] at hf, hp⟩

theorem buffersInv_of_idle {s : State} (h : s.canonical) (hi : s.PHASE = .idle) (hr : s.holdsResult) : s.buffersInv :=
  ⟨h.IN, h.OUT, h.bound, fun _ => hr, payloadInv_of_PHASE (by rw [hi]; decide)⟩

theorem buffersInv_raiseError {s : State} (h : s.canonical) (e : ErrKind) : (raiseError e s).buffersInv :=
  buffersInv_of_idle (h.raiseError e) rfl (holdsResult_of_empty rfl rfl)

/-- In an ENCODE, `HLEN` as MKLEAF set it stands until FTSER (R82). -/
theorem State.payloadInv.HLEN {s : State} (h : s.payloadInv) (hm : s.MODE = .encode)
    (hp : s.PHASE = .tbuild ∨ s.PHASE = .cgen ∨ s.PHASE = .bpack ∨ s.PHASE = .ftser) :
    s.work.HLEN.toNat = hdrBytes s.work.FREQ.present.length := h.1 hm hp

/-- A turn of the core leaves a running ENCODE what it owes the result, or leaves exactly the result. -/
theorem payloadInv_of_coreTurn {s t : State} (hmode : s.PHASE.occursIn s.MODE = true) (h : s.payloadInv)
    (hp : s.PHASE ≠ .idle) (ht : coreTurn s = .next t) :
    (t.PHASE ≠ .idle ∧ t.payloadInv) ∨ (t.PHASE = .idle ∧ t.holdsResult) := by
  have failed : ∀ e, t = raiseError e s → (t.PHASE ≠ .idle ∧ t.payloadInv) ∨ (t.PHASE = .idle ∧ t.holdsResult) := by
    rintro e rfl
    exact .inr ⟨rfl, holdsResult_of_empty rfl rfl⟩
  have free : ∀ {p}, handsOver s p t → p = .mkleaf ∨ p = .twalk →
      (t.PHASE ≠ .idle ∧ t.payloadInv) ∨ (t.PHASE = .idle ∧ t.holdsResult) := by
    rintro p hh hq
    refine .inl ⟨?_, payloadInv_of_PHASE ?_⟩ <;> rw [hh.PHASE] <;> rcases hq with rfl | rfl <;> decide
  cases hph : s.PHASE with
  | idle => exact absurd hph hp
  | fcount =>
    rw [coreTurn_of_PHASE (i := .fcount) hph rfl] at ht
    rcases execFcount_next ht with hh | ⟨e, -, he⟩
    · exact free hh (.inl rfl)
    · exact failed e he
  | mkleaf =>
    rw [coreTurn_of_PHASE (i := .mkleaf) hph rfl] at ht
    have hh := execMkleaf_next ht
    obtain ⟨-, -, -, -, hm, -⟩ := hh.sameRegisters
    refine .inl ⟨by rw [hh.PHASE]; decide, payloadInv_of_header (by rw [hh.PHASE]; decide) fun he => ?_⟩
    exact execMkleaf_header ht (hm.symm.trans he)
  | tbuild =>
    rw [coreTurn_of_PHASE (i := .tbuild) hph rfl] at ht
    have hh := (execTbuild_next ht).PHASE
    obtain ⟨hl, hf, hm⟩ := execTbuild_header ht
    refine .inl ⟨by rw [hh]; cases s.MODE <;> decide, payloadInv_of_header (by rw [hh]; cases s.MODE <;> decide) fun he => ?_⟩
    rw [hl, hf]
    exact h.HLEN (hm.symm.trans he) (.inl hph)
  | cgen =>
    rw [coreTurn_of_PHASE (i := .cgen) hph rfl] at ht
    have hh := (execCgen_next ht).PHASE
    obtain ⟨hl, hf, hm⟩ := execCgen_header ht
    refine .inl ⟨by rw [hh]; decide, payloadInv_of_header (by rw [hh]; decide) fun he => ?_⟩
    rw [hl, hf]
    exact h.HLEN (hm.symm.trans he) (.inr (.inl hph))
  | bpack =>
    rw [coreTurn_of_PHASE (i := .bpack) hph rfl] at ht
    obtain ⟨hcov, hl, hf, hm, hq⟩ := execBpack_covers ht
    refine .inl ⟨by rw [hq]; decide, fun he _ => ?_, fun _ => hcov⟩
    rw [hl, hf]
    exact h.HLEN (hm.symm.trans he) (.inr (.inr (.inl hph)))
  | ftser =>
    rw [coreTurn_of_PHASE (i := .ftser) hph rfl] at ht
    have hm : s.MODE = .encode := by
      rw [hph] at hmode
      cases hm : s.MODE with
      | encode => rfl
      | decode => rw [hm] at hmode; cases hmode
    have hlen := h.HLEN hm (.inr (.inr (.inr hph)))
    exact .inr ⟨(execFtser_next ht).done.1, execFtser_covers ht hlen (h.2 hph)⟩
  | ftdes =>
    rw [coreTurn_of_PHASE (i := .ftdes) hph rfl] at ht
    rcases execFtdes_next ht with hh | ⟨e, -, he⟩
    · exact free hh (.inl rfl)
    · exact failed e he
  | bunpk =>
    rw [coreTurn_of_PHASE (i := .bunpk) hph rfl] at ht
    exact free (execBunpk_next ht) (.inr rfl)
  | twalk =>
    rw [coreTurn_of_PHASE (i := .twalk) hph rfl] at ht
    rcases execTwalk_next ht with hc | ⟨e, -, he⟩
    · rcases execTwalk_covers ht with ⟨e, he⟩ | hr
      · exact failed e he
      · exact .inr ⟨hc.done.1, hr⟩
    · exact failed e he

theorem State.buffersInv.coreTurn {s t : State} (hseq : s.sequencerInv) (h : s.buffersInv) (ht : coreTurn s = .next t) :
    t.buffersInv := by
  by_cases hp : s.PHASE = .idle
  · rw [coreTurn_of_idle hp] at ht
    cases ht
    exact h
  · have hb : s.BUSY = true := by simpa using fun hb => hp (hseq.1.2 hb)
    have hcan := h.canonical.turnEnds (coreTurn_next hp ht)
    have hnext := hseq.coreTurn ht
    obtain ⟨-, -, hmode⟩ := hseq.running hb
    obtain ⟨-, -, -, -, hpay⟩ := h
    rcases payloadInv_of_coreTurn hmode hpay hp ht with ⟨hne, hpay'⟩ | ⟨hi, hr⟩
    · have hb' : t.BUSY = true := by simpa using fun hf => hne (hnext.1.2 hf)
      exact buffersInv_of_busy hcan hb' hpay'
    · exact buffersInv_of_idle hcan hi hr

theorem State.buffersInv.exec_command {v : BitVec 40} {i : Instr} {s t : State} (h : s.buffersInv)
    (hd : decodeCmdWrite v = .ok i) (ht : exec i s = .next t) : t.buffersInv := by
  rcases exec_command_next hd ht with ⟨-, rfl⟩ | ⟨-, hc, m, ⟨p, hh, hmp⟩ | ⟨e, rfl⟩⟩
  · exact h
  · have hb := ((running_accept m hc).handsOver hh).BUSY
    refine buffersInv_of_busy ((h.canonical.accept m).handsOver hh) hb (payloadInv_of_PHASE ?_)
    rw [hh.PHASE]
    rcases hmp with ⟨-, rfl⟩ | ⟨-, rfl⟩ <;> decide
  · exact buffersInv_raiseError (h.canonical.accept m) e

theorem State.buffersInv.hostOnly {s t : State} (h : s.buffersInv) (hh : hostOnly s t) : t.buffersInv := by
  obtain ⟨hin, hout, hbound, hidle, hpay⟩ := h
  rw [State.buffersInv, State.payloadInv, hh.BUSY, hh.OUT, hh.OUT_LEN, hh.cfg, hh.MODE, hh.PHASE, hh.work]
  exact ⟨hh.wf hin, hout, hh.bound hbound, hidle, hpay⟩

/-- Settles O9: as for the sequencer, each of the four things a step can do keeps the invariant. -/
theorem everyStepKeepsTheBuffersInvariant : Obligations.EveryStepKeepsTheBuffersInvariant := by
  intro s t hseq h hst
  obtain ⟨u, hu, -, -, -, hmove⟩ := step_next hst
  have hinv := h.hostOnly hu
  rcases hmove with hturn | ⟨rest, -, rfl⟩ | ⟨v, i, rest, -, hd, hexec⟩ | ⟨-, hhost⟩
  · exact hinv.coreTurn (hseq.hostOnly hu) hturn
  · exact buffersInv_of_idle ⟨rfl, rfl, by simp⟩ rfl (holdsResult_of_empty rfl rfl)
  · exact hinv.exec_command hd hexec
  · exact hinv.hostOnly hhost

/-- Settles O7: at reset the machine rests and its buffers are empty. -/
theorem invariantsHoldAtReset : Obligations.InvariantsHoldAtReset :=
  ⟨sequencerInv_of_rests rfl (.inl ⟨rfl, rfl, rfl⟩),
    buffersInv_of_idle ⟨rfl, rfl, by simp [State.reset]⟩ rfl (holdsResult_of_empty rfl rfl)⟩

end Sys2Proof.Machine
end

section
/-! What operations and steps keep (R26, R51, R148), and where errors come from (R142): each read off the inversions. -/

namespace Sys2Proof.Machine

theorem startCommand_sameOutside {s t : State} {m : Mode} {p : Phase} {ks : List ErrKind}
    (h : (s.BUSY = true ∧ t = s) ∨ (s.BUSY = false ∧ s.IN_LEN.toNat ≤ s.cfg.inCap ∧
      (handsOver (accept m s) p t ∨ enters ks (accept m s) t))) : s.sameOutside t := by
  rcases h with ⟨-, rfl⟩ | ⟨-, -, hh | he⟩
  · exact State.sameOutside.refl t
  · exact (sameOutside_accept m s).trans hh.sameOutside
  · exact (sameOutside_accept m s).trans he.sameOutside

/-- Settles O10: every operation hands over, completes or enters an error, and none of the three reaches outside. -/
theorem noOperationWritesTheInput : Obligations.NoOperationWritesTheInput := by
  intro i s t h
  cases i with
  | encode => exact startCommand_sameOutside (execEncode_next h)
  | decode => exact startCommand_sameOutside (execDecode_next h)
  | fcount => exact (execFcount_next h).elim handsOver.sameOutside enters.sameOutside
  | mkleaf => exact (execMkleaf_next h).sameOutside
  | tbuild => exact (execTbuild_next h).sameOutside
  | cgen => exact (execCgen_next h).sameOutside
  | bpack => exact (execBpack_next h).sameOutside
  | ftser => exact (execFtser_next h).sameOutside
  | ftdes => exact (execFtdes_next h).elim handsOver.sameOutside enters.sameOutside
  | bunpk => exact (execBunpk_next h).sameOutside
  | twalk => exact (execTwalk_next h).elim completes.sameOutside enters.sameOutside

/-- Settles O11: of the three endings of a turn, two are successors of R122 and the third is the error entry. -/
theorem phasesFollowTheSuccessorTable : Obligations.PhasesFollowTheSuccessorTable := by
  intro s t hp hmode h
  rcases coreTurn_next hp h with ⟨p, hh, hne, hnext⟩ | ⟨hc, hnext⟩ | herr
  · have hregs := hh.sameRegisters
    have ⟨_, _, _, _, hm, _⟩ := hregs
    rw [hh.PHASE]
    exact .inl ⟨hnext hmode, hm, fun _ => hregs, fun hi => absurd hi hne⟩
  · obtain ⟨hi, hs, he, hm⟩ := hc.done
    rw [hi]
    exact .inl ⟨hnext hmode, hm, fun hn => absurd rfl hn, fun _ => ⟨hs, he⟩⟩
  · exact .inr herr

/-- A turn of a running command leaves it running, or ends it as a success or a failure. -/
theorem turnEnds.busy_or_ended {s t : State} (hs : s.BUSY = true) (h : turnEnds s t) :
    t.BUSY = true ∨ t.STATUS = statusDone ∨ t.STATUS = statusFailed := by
  rcases h with ⟨p, hh, -⟩ | ⟨hc, -⟩ | ⟨e, rfl⟩
  · obtain ⟨hst, -⟩ := hh.sameRegisters
    rw [BUSY_def, hst]
    exact .inl hs
  · exact .inr (.inl hc.done.2.1)
  · exact .inr (.inr rfl)

/-- R51: an event of the host other than a turn and a reset leaves a running command and its input alone. -/
theorem hostOnly_of_busy {s t : State} {e : HostEvent} (hb : s.BUSY = true) (hy : e ≠ .yield) (hr : e ≠ .reset)
    (h : execEvent e s = .next t) : hostOnly s t := by
  rcases execEvent_next h with ⟨he, -⟩ | ⟨he, -⟩ | ⟨v, i, -, hd, hexec⟩ | hh
  · exact absurd he hr
  · exact absurd he hy
  · rcases exec_command_next hd hexec with ⟨-, rfl⟩ | ⟨hf, -⟩
    · exact hostOnly.refl t
    · simp [hb] at hf
  · exact hh

/-- Settles O12: while busy a `CMD` write is dropped and the other events are the host's own; a turn ends as `turnEnds`
says. -/
theorem theHostCannotInfluenceARunningCommand : Obligations.TheHostCannotInfluenceARunningCommand := by
  refine ⟨?frame, ?ends⟩
  case frame =>
    intro s t e rest hb hs hy hr hst
    rw [step_of_script_cons hs] at hst
    have h := hostOnly_of_busy (s := s.setScript rest) hb hy hr hst
    obtain ⟨hin, hlen⟩ := h.busy hb
    exact ⟨h.STATUS, h.ERR, hlen, h.OUT_LEN, h.PHASE, h.MODE, h.work, hin, h.OUT, h.cfg⟩
  case ends =>
    intro s t hinv hb hr hst
    obtain ⟨u, hu, -, -, -, hmove⟩ := step_next hst
    have hub : u.BUSY = true := hu.BUSY.trans hb
    rcases hmove with hturn | ⟨rest, hs, -⟩ | ⟨v, i, rest, -, hd, hexec⟩ | ⟨-, hhost⟩
    · obtain ⟨-, hp, -⟩ := (hinv.hostOnly hu).running hub
      exact (coreTurn_next hp hturn).busy_or_ended hub
    · exact absurd hs (hr rest)
    · rcases exec_command_next hd hexec with ⟨-, rfl⟩ | ⟨hf, -⟩
      · exact .inl hub
      · simp [hub] at hf
    · exact .inl (hhost.BUSY.trans hub)

/-- Settles O13: an idle core waits, and of the host's events only a `CMD` write and a reset reach the core. -/
theorem anIdleMachineKeepsTheResult : Obligations.AnIdleMachineKeepsTheResult := by
  rintro s t ⟨hb, hp⟩ hcmd hreset hst
  obtain ⟨u, hu, -, -, hnil, hmove⟩ := step_next hst
  have keeps : hostOnly s t → s.script ≠ [] ∨ t = s →
      t.idle ∧ t.STATUS = s.STATUS ∧ t.ERR = s.ERR ∧ t.OUT_LEN = s.OUT_LEN ∧ t.OUT = s.OUT ∧ t.outDraw = s.outDraw ∧
        (s.script = [] → t = s) := fun h hn =>
    ⟨⟨h.BUSY.trans hb, h.PHASE.trans hp⟩, h.STATUS, h.ERR, h.OUT_LEN, h.OUT, h.outDraw,
      fun he => hn.resolve_left (not_not_intro he)⟩
  rcases hmove with hturn | ⟨rest, hs, -⟩ | ⟨v, i, rest, hs, -, -⟩ | ⟨hne, hhost⟩
  · rw [coreTurn_of_idle (hu.PHASE.trans hp)] at hturn
    cases hturn
    refine keeps hu ?_
    by_cases hs : s.script = []
    · exact .inr (hnil hs)
    · exact .inl hs
  · exact absurd hs (hreset rest)
  · exact absurd hs (hcmd v rest)
  · exact keeps (hu.trans hhost) (.inl hne)

/-- A state that hands over or completes is in no error that it was not in before. -/
theorem handsOver.not_failed {s t : State} {p : Phase} (h : handsOver s p t) (hs : s.STATUS ≠ statusFailed) :
    t.STATUS ≠ statusFailed := by
  obtain ⟨hst, -⟩ := h.sameRegisters
  rw [hst]
  exact hs

theorem completes.not_failed {s t : State} (h : completes s t) : t.STATUS ≠ statusFailed := by
  rw [h.done.2.1]
  decide

/-- An error entry among `ks` carries the code of one of them. -/
theorem enters.ERR {ks : List ErrKind} {s t : State} (h : enters ks s t) : ∃ e ∈ ks, t.ERR = errorCode e := by
  obtain ⟨e, he, rfl⟩ := h
  exact ⟨e, he, rfl⟩

theorem ERR_of_startCommand {s t : State} {m : Mode} {p : Phase} {e : ErrKind} (hs : s.STATUS ≠ statusFailed)
    (ht : t.STATUS = statusFailed)
    (h : (s.BUSY = true ∧ t = s) ∨ (s.BUSY = false ∧ s.IN_LEN.toNat ≤ s.cfg.inCap ∧
      (handsOver (accept m s) p t ∨ enters [e] (accept m s) t))) : t.ERR = errorCode e := by
  rcases h with ⟨-, rfl⟩ | ⟨-, -, hh | he⟩
  · exact absurd ht hs
  · exact absurd ht (hh.not_failed (by rw [accept_STATUS]; decide))
  · simpa using he.ERR

/-- Settles O14: an operation's next state is a hand-over, a completion or an entry of one of its kinds, and only the last
is in an error. -/
theorem eachErrorComesFromItsOwnOperation : Obligations.EachErrorComesFromItsOwnOperation := by
  intro i s t hs h ht
  cases i with
  | encode => exact ERR_of_startCommand hs ht (execEncode_next h)
  | decode => exact ERR_of_startCommand hs ht (execDecode_next h)
  | fcount =>
    rcases execFcount_next h with hh | he
    · exact absurd ht (hh.not_failed hs)
    · simpa using he.ERR
  | ftdes =>
    rcases execFtdes_next h with hh | he
    · exact absurd ht (hh.not_failed hs)
    · simpa using he.ERR
  | twalk =>
    rcases execTwalk_next h with hc | he
    · exact absurd ht hc.not_failed
    · simpa using he.ERR
  | mkleaf => exact (execMkleaf_next h).not_failed hs ht
  | tbuild => exact (execTbuild_next h).not_failed hs ht
  | cgen => exact (execCgen_next h).not_failed hs ht
  | bpack => exact (execBpack_next h).not_failed hs ht
  | ftser => exact (execFtser_next h).not_failed ht
  | bunpk => exact (execBunpk_next h).not_failed hs ht

/-- Settles O15: the fields of the error entry, of which `STATUS` has both `DONE` and `ERROR` (R12, R146). -/
theorem errorEntryRecordsOnlyTheKind : Obligations.ErrorEntryRecordsOnlyTheKind := by
  intro e s
  refine ⟨failedWith_raiseError e s, ⟨rfl, rfl, rfl, rfl, rfl, rfl⟩, ?error, ?done⟩
  case error => rw [State.ERROR, raiseError_STATUS]; decide
  case done => rw [DONE_def, raiseError_STATUS]; decide

end Sys2Proof.Machine
end

section
/-! The words of the operations (R60 to R62), and how a step comes to run one (R11, R14). -/

namespace Sys2Proof.Machine

/-- Settles O1: each word is written out, so the decoder evaluates on it. -/
theorem writtenOutWordsDecode : Obligations.WrittenOutWordsDecode :=
  ⟨rfl, rfl, rfl, rfl, rfl, rfl, rfl, rfl, rfl, rfl, rfl⟩

/-- A `CMD` value that decodes is the value of the command it decodes to. -/
theorem encode_of_decodeCommand {op : BitVec 8} {i : Instr} (h : decodeCommand op = .ok i) : encode i = .cmd op := by
  unfold decodeCommand at h
  split at h <;> cases h
  all_goals exact congrArg OpWord.cmd (BitVec.eq_of_toNat_eq (Eq.symm ‹_›))

/-- A `PHASE` value that decodes is the value of the phase it decodes to. -/
theorem encode_of_decodePhase {ph : BitVec 4} {i : Instr} (h : decodePhase ph = .ok i) : encode i = .phase ph := by
  unfold decodePhase at h
  split at h <;> cases h
  all_goals exact congrArg OpWord.phase (BitVec.eq_of_toNat_eq (Eq.symm ‹_›))

/-- Settles O2: operation by operation one way, format by format the other. -/
theorem decodeInvertsEncode : Obligations.DecodeInvertsEncode := by
  refine ⟨fun i => by cases i <;> exact ⟨rfl, rfl⟩, fun o i h => ?_⟩
  cases o with
  | cmd op => exact encode_of_decodeCommand h
  | phase ph => exact encode_of_decodePhase h

theorem decodeCommand_reserved {op : BitVec 8} (h1 : op ≠ 1) (h2 : op ≠ 2) : decodeCommand op = .error .reservedCommand := by
  unfold decodeCommand
  split
  next h => exact absurd (BitVec.eq_of_toNat_eq h) h1
  next h => exact absurd (BitVec.eq_of_toNat_eq h) h2
  next => rfl

theorem decodePhase_reserved : ∀ ph : BitVec 4, 10 ≤ ph.toNat → decodePhase ph = .error .reservedPhase := by decide

/-- Settles O3: the reserved values of each format fall through to the rejection by name. -/
theorem reservedWordsAreRejected : Obligations.ReservedWordsAreRejected := by
  refine ⟨fun op => decodeCommand_reserved, fun v hv => ?_, rfl, decodePhase_reserved⟩
  rw [decodeCmdWrite, if_neg (by omega)]

/-- A write of a legal value to `CMD` is the command it encodes (R11). -/
theorem execTxn_wr_command {v : BitVec 40} {i : Instr} (s : State) (h : decodeCmdWrite v = .ok i) :
    execTxn (.wr 0 v) s = exec i s := by
  simp only [execTxn, writeRegister, writeCommand, h]

theorem coreTurn_of_decodePhase {s : State} {i : Instr} (h : decodePhase s.PHASE.code = .ok i) : coreTurn s = exec i s := by
  simp only [coreTurn, h]

/-- Settles O4: the script's next event, and the core's turn where it is empty or yields, decide which operation runs. -/
theorem stepRunsTheDecodedOperation : Obligations.StepRunsTheDecodedOperation := by
  refine ⟨?command, ?turn, ?yield, ?wait⟩
  case command => exact fun s rest v i hs hd => (step_txn hs).trans (execTxn_wr_command _ hd)
  case turn => exact fun s i hs hd => (step_of_script_nil hs).trans (coreTurn_of_decodePhase hd)
  case yield => exact fun s rest i hs hd => (step_of_script_cons hs).trans (coreTurn_of_decodePhase (s := s.setScript rest) hd)
  case wait => exact fun s hs hp => (step_of_script_nil hs).trans (coreTurn_of_idle hp)

/-- Settles O5: reset's fields, and the buffers it leaves list no byte. -/
theorem resetLeavesTheNamedRegistersZero : Obligations.ResetLeavesTheNamedRegistersZero :=
  ⟨rfl, rfl, rfl, rfl, rfl, fun _ => rfl, fun _ => rfl⟩

/-- Settles O6: the event is taken off the script, and the rest is `platformReset`, field by field. -/
theorem platformResetAbandonsTheCommand : Obligations.PlatformResetAbandonsTheCommand := fun s rest hs =>
  ⟨platformReset (s.setScript rest), step_of_script_cons hs, rfl, rfl, rfl, rfl, ⟨BUSY_platformReset _, rfl⟩, fun _ => rfl,
    fun _ => rfl, rfl, rfl, rfl⟩

end Sys2Proof.Machine
end

section
/-! The acceptance of a command (R43, R120, R121, R126). -/

namespace Sys2Proof.Machine

/-- R120: an idle machine whose input is within `IN_CAP` accepts a command and goes on with its beginning. -/
theorem startCommand_of_idle {m : Mode} {f : State → Except Halt State} {s : State} (hb : s.BUSY = false)
    (hc : s.IN_LEN.toNat ≤ s.cfg.inCap) : startCommand m f s = settle (accept m s) (f (accept m s)) := by
  rw [startCommand, hb, if_neg Bool.false_ne_true, if_neg (by omega)]

/-- R43: a command whose input is beyond `IN_CAP` is refused before any of its effect. -/
theorem startCommand_refused {m : Mode} {f : State → Except Halt State} {s : State} (hb : s.BUSY = false)
    (hc : s.cfg.inCap < s.IN_LEN.toNat) : startCommand m f s = .refused .inputExceedsCapacity := by
  rw [startCommand, hb, if_neg Bool.false_ne_true, if_pos hc]

theorem exec_encode (s : State) : exec .encode s = startCommand .encode beginEncode s := rfl

theorem exec_decode (s : State) : exec .decode s = startCommand .decode beginDecode s := rfl

/-- Settles O16: the checks pass, and what is left is `accept` with the first phase. -/
theorem encodeIsAccepted : Obligations.EncodeIsAccepted := by
  intro s hb hl hc
  rw [exec_encode, startCommand_of_idle hb hc, beginEncode, if_neg (by simpa using hl)]
  rfl

/-- R126: DECODE of at least 3 bytes reads the padding byte. -/
theorem beginDecode_of_three_le {s : State} (h : 3 ≤ s.work.LEN.toNat) :
    beginDecode s = (memRead1 s 0).map fun b => (s.setWork { s.work with PADB := b }).setPHASE .ftdes := by
  rw [beginDecode, if_neg (by omega)]
  cases memRead1 s 0 <;> rfl

/-- Settles O17: the checks pass, byte 0 has a value, and what is left is `accept` with `PADB` and the first phase. -/
theorem decodeIsAccepted : Obligations.DecodeIsAccepted := by
  intro s b hb hl hc hr
  rw [exec_decode, startCommand_of_idle hb hc, beginDecode_of_three_le (by simpa using hl),
    memRead1_eq_ok.2 (show (accept .decode s).IN.read 0 = some b from hr)]
  rfl

/-- Settles O19: `TooShort` is tested before a byte is read. -/
theorem decodeOfFewerThanThreeBytesIsTooShort : Obligations.DecodeOfFewerThanThreeBytesIsTooShort := by
  intro s hb hl hc
  refine ⟨raiseError .tooShort (accept .decode s), ?_, failedWith_raiseError _ _, sameOutside_raiseError_accept _ _ s⟩
  rw [exec_decode, startCommand_of_idle hb hc, beginDecode, if_pos (by simpa using hl), settle_raise]

theorem exec_ftser (s : State) : exec .ftser s = execFtser s := rfl

theorem settle_complete_refused {n : BitVec 40} {s u : State} (h : u.cfg.outCap < n.toNat) :
    settle s (complete n u) = .refused .resultExceedsCapacity := by
  rw [complete_eq, if_pos h, settle_refuse]

/-- Settles O21: the test of `IN_CAP` stands before acceptance, that of `OUT_CAP` in the completion; at the defaults
both bound every value of their registers. -/
theorem capacitiesBoundTheCommands : Obligations.CapacitiesBoundTheCommands := by
  refine ⟨?input, ?ftser, ?twalk, ?inLen, ?outLen⟩
  case input => exact fun s hb hc => ⟨startCommand_refused hb hc, startCommand_refused hb hc⟩
  case ftser => exact fun s hc => settle_complete_refused (u := s.setOUT _) hc
  case twalk =>
    intro s w hw hc
    rw [exec_twalk, execTwalk, hw]
    exact settle_complete_refused (u := s.setOUT w.out) hc
  case inLen => exact fun n => Nat.le_pred_of_lt n.isLt
  case outLen => exact fun n => Nat.le_pred_of_lt n.isLt

end Sys2Proof.Machine
end

section
/-! The host's side (R10 to R16, R41 to R43, R47, R74): what a transaction answers on an idle machine, and the two
pseudo-transactions that are events. -/

namespace Sys2Proof.Machine

/-! ## Registers -/

theorem STATUS_reply (s : State) : (s.STATUS.setWidth 3).setWidth 40 = BitVec.ofNat 40 (s.STATUS.toNat % 8) := by
  apply BitVec.eq_of_toNat_eq
  simp

theorem ERR_reply (s : State) : s.errCode.setWidth 40 = BitVec.ofNat 40 (s.ERR.toNat % 16) := by
  apply BitVec.eq_of_toNat_eq
  simp [State.errCode]

theorem readRegister_ERR {s : State} (hb : s.BUSY = false) :
    readRegister 2 s = .next (s.addReply (.rd 2) (s.errCode.setWidth 40)) := by
  simp only [readRegister, hb, Bool.false_eq_true, if_false]

theorem readRegister_OUT_LEN {s : State} (hb : s.BUSY = false) : readRegister 4 s = .next (s.addReply (.rd 4) s.OUT_LEN) := by
  simp only [readRegister, hb, Bool.false_eq_true, if_false]

theorem readRegister_reserved {n : Nat} (h : 5 ≤ n) (s : State) : readRegister n s = .refused (.reservedRegister n) := by
  obtain ⟨k, rfl⟩ := Nat.exists_eq_add_of_le' h
  rfl

theorem writeRegister_reserved {n : Nat} (h : 5 ≤ n) (v : BitVec 40) (s : State) :
    writeRegister n v s = .refused (.reservedRegister n) := by
  obtain ⟨k, rfl⟩ := Nat.exists_eq_add_of_le' h
  rfl

/-- Settles O55: register by register; the two that are unspecified while busy log what is drawn. -/
theorem registerReadsReturnTheRegisters : Obligations.RegisterReadsReturnTheRegisters := by
  intro s rest n hs
  have hstep : step s = readRegister n (s.setScript rest) := step_txn hs
  rw [hstep]
  refine ⟨?cmd, ?status, ?inLen, ?err, ?outLen, ?busy, fun h => readRegister_reserved h _⟩
  case cmd => rintro rfl; rfl
  case status =>
    rintro rfl
    rw [readRegister_STATUS, STATUS_reply]
    rfl
  case inLen =>
    rintro rfl
    rw [readRegister_IN_LEN, BitVec.ofNat_toNat]
    rfl
  case err =>
    rintro rfl hb
    rw [readRegister_ERR (s := s.setScript rest) hb, ERR_reply]
    rfl
  case outLen =>
    rintro rfl hb
    exact readRegister_OUT_LEN (s := s.setScript rest) hb
  case busy =>
    intro hn hb
    obtain ⟨width, hread⟩ := readRegister_of_busy (s := s.setScript rest) hn hb
    obtain ⟨v, hv⟩ := readWhileBusy_eq (s.setScript rest) (.rd n) width
    exact ⟨v, hread.trans (congrArg _ hv)⟩

theorem decodeCmdWrite_reserved {v : BitVec 40} (h1 : v.toNat ≠ 1) (h2 : v.toNat ≠ 2) :
    decodeCmdWrite v = .error .reservedCommand := by
  unfold decodeCmdWrite
  split
  next hv =>
    have hop : (BitVec.ofNat 8 v.toNat).toNat = v.toNat := by rw [BitVec.toNat_ofNat, Nat.mod_eq_of_lt hv]
    refine decodeCommand_reserved (fun h => h1 ?_) (fun h => h2 ?_)
    · rw [← hop, h]; rfl
    · rw [← hop, h]; rfl
  next => rfl

theorem writeCommand_reserved {v : BitVec 40} {s : State} (hb : s.BUSY = false) (h1 : v.toNat ≠ 1) (h2 : v.toNat ≠ 2) :
    writeCommand v s = .refused .reservedCommand := by
  simp only [writeCommand, decodeCmdWrite_reserved h1 h2, hb, Bool.false_eq_true, if_false]

theorem writeInLen_of_idle {v : BitVec 40} {s : State} (hb : s.BUSY = false) (hv : v.toNat < 2 ^ 32) :
    writeInLen v s = .next { s with IN_LEN := v.setWidth 32 } := by
  rw [writeInLen, hb, if_neg Bool.false_ne_true, if_pos hv]

theorem writeInLen_tooWide {v : BitVec 40} {s : State} (hb : s.BUSY = false) (hv : 2 ^ 32 ≤ v.toNat) :
    writeInLen v s = .refused .valueTooWide := by
  rw [writeInLen, hb, if_neg Bool.false_ne_true, if_neg (by omega)]

/-! ## Buffers -/

theorem writeIn_of_idle {s : State} (a : Nat) (v : Byte) (hb : s.BUSY = false) :
    writeIn a v s = { s with IN := s.IN.write a v } := by
  rw [writeIn, hb, if_neg Bool.false_ne_true]

theorem execTxn_wrbIn_refused {s : State} {a : BitVec 32} (v : Byte) (ha : s.cfg.inCap ≤ a.toNat) :
    execTxn (.wrbIn a v) s = .refused (.noSuchAddress a.toNat) := if_neg (by omega)

theorem execTxn_wrbOut {s : State} {a : BitVec 40} (v : Byte) (ha : a.toNat < s.cfg.outCap) :
    execTxn (.wrbOut a v) s = .next s := if_pos ha

theorem execTxn_wrbOut_refused {s : State} {a : BitVec 40} (v : Byte) (ha : s.cfg.outCap ≤ a.toNat) :
    execTxn (.wrbOut a v) s = .refused (.noSuchAddress a.toNat) := if_neg (by omega)

theorem execTxn_rdbIn {s : State} {a : BitVec 32} (ha : a.toNat < s.cfg.inCap) :
    execTxn (.rdbIn a) s = .next (s.addReply (.rdbIn a) ((hostByteIn s a.toNat).setWidth 40)) := if_pos ha

theorem execTxn_rdbIn_refused {s : State} {a : BitVec 32} (ha : s.cfg.inCap ≤ a.toNat) :
    execTxn (.rdbIn a) s = .refused (.noSuchAddress a.toNat) := if_neg (by omega)

theorem execTxn_rdbOut_of_idle {s : State} {a : BitVec 40} (ha : a.toNat < s.cfg.outCap) (hb : s.BUSY = false) :
    execTxn (.rdbOut a) s = .next (s.addReply (.rdbOut a) ((hostByteOut s a.toNat).setWidth 40)) := by
  simp only [execTxn, if_pos ha, hb, Bool.false_eq_true, if_false]

theorem execTxn_rdbOut_refused {s : State} {a : BitVec 40} (ha : s.cfg.outCap ≤ a.toNat) :
    execTxn (.rdbOut a) s = .refused (.noSuchAddress a.toNat) := if_neg (by omega)

theorem hostByteOut_of_read {s : State} {a : Nat} {b : Byte} (h : s.OUT.read a = some b) : hostByteOut s a = b := by
  simp only [hostByteOut, h, Option.getD_some]

theorem hostByteIn_free {s : State} {a : Nat} (h : s.IN.read a = none) : hostByteIn s a = Config.freeIn s.inDraw a := by
  simp only [hostByteIn, h, Option.getD_none]

theorem hostByteOut_free {s : State} {a : Nat} (h : s.OUT.read a = none) : hostByteOut s a = Config.freeOut s.outDraw a := by
  simp only [hostByteOut, h, Option.getD_none]

/-- Settles O57: each write on the state without its event; the tests of the register's number and of the address come
before that of `BUSY`. -/
theorem hostWritesGoWhereTheyShould : Obligations.HostWritesGoWhereTheyShould := by
  refine ⟨fun s rest hb => ⟨?readOnly, ?output, ?inLen, ?input, ?command, ?wide⟩, fun s rest => ⟨?register, ?noIn, ?noOut⟩⟩
  case readOnly =>
    intro n v hn hs
    rw [step_txn hs]
    rcases hn with rfl | rfl | rfl <;> rfl
  case output => exact fun a v ha hs => (step_txn hs).trans (execTxn_wrbOut (s := s.setScript rest) v ha)
  case inLen =>
    intro v hv hs
    rw [step_txn hs, BitVec.ofNat_toNat]
    exact writeInLen_of_idle (s := s.setScript rest) hb hv
  case input =>
    intro a v ha hs
    refine ⟨s.IN.write a.toNat v, ?_, fun x => read_write s.IN a.toNat x v⟩
    rw [step_txn hs, execTxn_wrbIn (s := s.setScript rest) v ha, writeIn_of_idle (s := s.setScript rest) _ v hb]
    rfl
  case command => exact fun v h1 h2 hs => (step_txn hs).trans (writeCommand_reserved (s := s.setScript rest) hb h1 h2)
  case wide => exact fun v hv hs => (step_txn hs).trans (writeInLen_tooWide (s := s.setScript rest) hb hv)
  case register => exact fun n v hn hs => (step_txn hs).trans (writeRegister_reserved hn v _)
  case noIn => exact fun a v ha hs => (step_txn hs).trans (execTxn_wrbIn_refused (s := s.setScript rest) v ha)
  case noOut => exact fun a v ha hs => (step_txn hs).trans (execTxn_wrbOut_refused (s := s.setScript rest) v ha)

/-- Only a reset changes the draw of the bytes of `IN` without a value. -/
theorem inDraw_of_step {s t : State} (hr : ∀ rest, s.script ≠ .reset :: rest) (h : step s = .next t) : t.inDraw = s.inDraw := by
  obtain ⟨u, hu, -, -, -, hmove⟩ := step_next h
  rw [← hu.inDraw]
  rcases hmove with hturn | ⟨rest, hs, -⟩ | ⟨v, i, rest, -, -, hexec⟩ | ⟨-, hhost⟩
  · by_cases hp : u.PHASE = .idle
    · rw [coreTurn_of_idle hp] at hturn
      cases hturn
      rfl
    · obtain ⟨-, -, -, -, -, hd⟩ := (coreTurn_next hp hturn).sameOutside
      exact hd
  · exact absurd hs (hr rest)
  · obtain ⟨-, -, -, -, -, hd⟩ := noOperationWritesTheInput i u t hexec
    exact hd
  · exact hhost.inDraw

/-- Settles O58: a byte with a value is what is logged; for one without, the free value of the draw at the address. -/
theorem bufferReadsReturnTheBytes : Obligations.BufferReadsReturnTheBytes := by
  refine ⟨fun s rest b => ⟨?input, ?output, ?noIn, ?noOut⟩, fun draw a => ⟨Config.freeIn draw a.toNat, ?freeIn⟩,
    fun draw a => ⟨Config.freeOut draw a.toNat, ?freeOut⟩, fun s t => inDraw_of_step⟩
  case input =>
    intro a ha hr hs
    rw [step_txn hs, execTxn_rdbIn_of_read (s := s.setScript rest) ha hr, BitVec.ofNat_toNat]
  case output =>
    intro a ha hb hr hs
    rw [step_txn hs, execTxn_rdbOut_of_idle (s := s.setScript rest) ha hb, hostByteOut_of_read (s := s.setScript rest) hr,
      BitVec.ofNat_toNat]
  case noIn => exact fun a ha hs => (step_txn hs).trans (execTxn_rdbIn_refused (s := s.setScript rest) ha)
  case noOut => exact fun a ha hs => (step_txn hs).trans (execTxn_rdbOut_refused (s := s.setScript rest) ha)
  case freeIn =>
    intro s rest hd ha hr hs
    rw [step_txn hs, execTxn_rdbIn (s := s.setScript rest) ha, hostByteIn_free (s := s.setScript rest) hr, setScript_inDraw, hd,
      BitVec.ofNat_toNat]
  case freeOut =>
    intro s rest hd ha hb hr hs
    rw [step_txn hs, execTxn_rdbOut_of_idle (s := s.setScript rest) ha hb, hostByteOut_free (s := s.setScript rest) hr,
      setScript_outDraw, hd, BitVec.ofNat_toNat]

/-! ## WAIT and COPYBACK -/

theorem execWait_eq (s : State) :
    execWait s = .next (if s.DONE then s.addReply (.rd 1) ((s.STATUS.setWidth 3).setWidth 40)
      else (s.addReply (.rd 1) ((s.STATUS.setWidth 3).setWidth 40)).setScript (.yield :: .wait :: s.script)) := by
  rw [execWait, readRegister_STATUS]
  rfl

/-- Settles O59: one read of `STATUS`, and a test of `DONE` as it was read. -/
theorem waitPollsUntilDone : Obligations.WaitPollsUntilDone := by
  intro s rest hs
  have hstep : step s = execWait (s.setScript rest) := step_of_script_cons hs
  rw [hstep, execWait_eq, STATUS_reply]
  refine ⟨fun hd => ?_, fun hd => ?_⟩
  · rw [if_pos (show (s.setScript rest).DONE = true from hd)]
    rfl
  · rw [if_neg (show ¬ (s.setScript rest).DONE = true by rw [DONE_def] at hd ⊢; simpa using hd)]
    rfl

/-- R74: COPYBACK reads `OUT_LEN` and puts its transactions in front of the script, or is refused. -/
theorem execCopyBack_of_idle {s : State} (hb : s.BUSY = false) :
    execCopyBack s = if s.OUT_LEN.toNat < 2 ^ 32
      then .next ((s.addReply (.rd 4) s.OUT_LEN).setScript (copyBackScript s.OUT_LEN.toNat ++ s.script))
      else .refused .copyBackTooLong := by
  rw [execCopyBack, readRegister_OUT_LEN hb]
  rfl

/-- What one byte of a COPYBACK leaves: the host has read `b` and written it to `IN` (R74). -/
def copiedByte (a : BitVec 32) (b : Byte) (s : State) : State :=
  { s.addReply (.rdbOut (a.setWidth 40)) (b.setWidth 40) with IN := s.IN.write a.toNat b }

/-- R74: one byte of `OUT` with a value goes to the same address of `IN`. -/
theorem execCopyByte_of_idle {s : State} {a : BitVec 32} {b : Byte} (hb : s.BUSY = false) (hin : a.toNat < s.cfg.inCap)
    (hout : a.toNat < s.cfg.outCap) (hr : s.OUT.read a.toNat = some b) :
    execCopyByte a s = .next (copiedByte a b s) := by
  have ha : (a.setWidth 40).toNat = a.toNat := by
    have := a.isLt
    rw [BitVec.toNat_setWidth, Nat.mod_eq_of_lt (by omega)]
  have hv : (b.setWidth 40).setWidth 8 = b := by
    apply BitVec.eq_of_toNat_eq
    simp
  rw [execCopyByte, execTxn_rdbOut_of_idle (by rw [ha]; exact hout) hb, hostByteOut_of_read (by rw [ha]; exact hr)]
  simp only [addReply_replies, List.head?_cons, Option.map_some, Option.getD_some, hv]
  rw [execTxn_wrbIn _ (by exact hin), writeIn_of_idle _ _ (by exact hb)]
  rfl

/-- The bytes `k` to `k + n` of a COPYBACK and the write of `IN_LEN` after them, still to come. -/
def copyBackRest (k n m : Nat) : List HostEvent :=
  ((List.range' k n).map fun a => .copyByte (BitVec.ofNat 32 a)) ++ [.txn (.wr 3 (BitVec.ofNat 40 m))]

/-- R74: the rest of a COPYBACK, run to its end, leaves the rest of the result in `IN` and its length in `IN_LEN`. -/
theorem run_copyBackRest {d : List Byte} (hd : d.length < 2 ^ 32) :
    ∀ (n k : Nat) (s : State), s.idle → s.OUT.holds d → d.length ≤ s.cfg.inCap → d.length ≤ s.cfg.outCap →
      k + n = d.length → s.script = copyBackRest k n d.length →
      ∃ t, Host.Core.run Sys2Proof.core (n + 1) s = .next t ∧
        (∀ x, t.IN.read x = if k ≤ x ∧ x < d.length then d[x]? else s.IN.read x) ∧ t.IN_LEN.toNat = d.length ∧
        t.OUT = s.OUT ∧ t.OUT_LEN = s.OUT_LEN ∧ t.idle ∧ t.script = [] := by
  intro n
  induction n with
  | zero =>
    rintro k s ⟨hb, hp⟩ hout hin hcap hk hs
    have hm : (BitVec.ofNat 40 d.length).toNat = d.length := by rw [BitVec.toNat_ofNat, Nat.mod_eq_of_lt (by omega)]
    have hstep : step s = .next { s.setScript [] with IN_LEN := (BitVec.ofNat 40 d.length).setWidth 32 } :=
      (step_txn (rest := []) hs).trans (writeInLen_of_idle (s := s.setScript []) hb (by rw [hm]; exact hd))
    refine ⟨_, run_step hstep, fun x => ?_, ?_, rfl, rfl, ⟨hb, hp⟩, rfl⟩
    · rw [if_neg (by omega)]
      rfl
    · show ((BitVec.ofNat 40 d.length).setWidth 32).toNat = d.length
      rw [BitVec.toNat_setWidth, hm, Nat.mod_eq_of_lt hd]
  | succ n ih =>
    rintro k s ⟨hb, hp⟩ hout hin hcap hk hs
    have hkd : k < d.length := by omega
    have hka : (BitVec.ofNat 32 k).toNat = k := by rw [BitVec.toNat_ofNat, Nat.mod_eq_of_lt (by omega)]
    have hread : s.OUT.read k = some d[k] := by rw [hout k hkd, List.getElem?_eq_getElem hkd]
    have hscript : s.script = .copyByte (BitVec.ofNat 32 k) :: copyBackRest (k + 1) n d.length := by
      rw [hs, copyBackRest, List.range'_succ]
      rfl
    have hstep : step s = .next (copiedByte (BitVec.ofNat 32 k) d[k] (s.setScript (copyBackRest (k + 1) n d.length))) :=
      (step_of_script_cons hscript).trans (execCopyByte_of_idle (by exact hb) (by rw [hka, setScript_cfg]; omega)
        (by rw [hka, setScript_cfg]; omega) (by rw [hka]; exact hread))
    obtain ⟨t, hrun, hin', hrest⟩ := ih (k + 1)
      (copiedByte (BitVec.ofNat 32 k) d[k] (s.setScript (copyBackRest (k + 1) n d.length))) ⟨hb, hp⟩ hout hin hcap (by omega) rfl
    refine ⟨t, (run_step hstep).trans hrun, fun x => ?_, hrest⟩
    rw [hin' x]
    by_cases hx : x = k
    · subst hx
      rw [if_neg (by omega), if_pos ⟨le_rfl, hkd⟩, List.getElem?_eq_getElem hkd]
      simp only [copiedByte, hka, setScript_IN, read_write_same]
    · have hiff : (k + 1 ≤ x ∧ x < d.length) ↔ (k ≤ x ∧ x < d.length) := by omega
      simp only [hiff]
      split
      · rfl
      · simp only [copiedByte, hka, setScript_IN, read_write_ne _ _ hx]

/-- Settles O60: the first step reads `OUT_LEN` and writes the script out, and the rest is `run_copyBackRest` from byte 0. -/
theorem copyBackCopiesTheResult : Obligations.CopyBackCopiesTheResult := by
  refine ⟨?copies, ?tooLong⟩
  case copies =>
    rintro s d hidle hlen hout hd hin hcap hs
    have hstep : step s = .next ((s.addReply (.rd 4) s.OUT_LEN).setScript (copyBackRest 0 d.length d.length)) := by
      rw [step_of_script_cons hs, execEvent, execCopyBack_of_idle (by exact hidle.1),
        if_pos (show (s.setScript []).OUT_LEN.toNat < 2 ^ 32 by simpa [hlen] using hd)]
      simp only [setScript_OUT_LEN, hlen, copyBackScript, copyBackRest, List.range_eq_range', setScript_script, List.append_nil]
      rfl
    obtain ⟨t, hrun, hread, hlen', hout', houtLen, hidle', hscript⟩ :=
      run_copyBackRest hd d.length 0 ((s.addReply (.rd 4) s.OUT_LEN).setScript (copyBackRest 0 d.length d.length)) hidle hout
        hin hcap (Nat.zero_add _) rfl
    refine ⟨t, (run_step hstep).trans hrun, fun i hi => ?_, hlen', hout', houtLen, hidle', hscript, fun a ha => ?_⟩
    · rw [hread i, if_pos ⟨Nat.zero_le i, hi⟩]
    · rw [hread a, if_neg (by omega)]
      rfl
  case tooLong =>
    intro s rest hb hlong hs
    rw [step_of_script_cons hs, execEvent, execCopyBack_of_idle (by exact hb), if_neg (by exact Nat.not_lt.2 hlong)]

end Sys2Proof.Machine
end

section
/-! The phases of ENCODE one by one (R80, R82, R85 to R89, R95, R110, R101). -/

namespace Sys2Proof.Machine

/-! ## FCOUNT -/

theorem LEN_ne_zero_of_runsOn {s : State} {d : List Byte} (hd : d ≠ []) (h : s.runsOn d) : s.work.LEN ≠ 0 := by
  intro h0
  have hl := h.2
  rw [h0] at hl
  exact hd (List.length_eq_zero_iff.1 hl.symm)

/-- R80: where the input has a value byte by byte, FCOUNT leaves its counts and nothing else. -/
theorem execFcount_of_runsOn {s : State} {d : List Byte} (hd : d ≠ []) (h : s.runsOn d) :
    execFcount s = .next ((s.setWork { s.work with FREQ := countBytes d }).setPHASE .mkleaf) := by
  rw [execFcount, if_neg (LEN_ne_zero_of_runsOn hd h), inputBytes_of_runsOn h]
  rfl

/-- Settles O22: the table is `countBytes` of the input. -/
theorem fcountCountsOccurrences : Obligations.FcountCountsOccurrences := fun s d hd h =>
  ⟨countBytes d, get_countBytes d, (exec_fcount s).trans (execFcount_of_runsOn hd h)⟩

/-- R80 (a): no input has so many bytes that a count would wrap. -/
theorem toNat_get_countBytes {d : List Byte} (hd : d.length < 2 ^ 32) {b : Byte} {c : Count}
    (h : (countBytes d).get b = some c) : c.toNat = d.count b ∧ d.count b ≠ 0 := by
  rw [get_countBytes] at h
  split at h
  · cases h
  next hne =>
    cases h
    have := (List.count_le_length (a := b) (l := d)).trans_lt hd
    exact ⟨by rw [BitVec.toNat_ofNat, Nat.mod_eq_of_lt this], hne⟩

/-- The present symbols of FCOUNT's table with their counts are the frequencies of the input. -/
theorem present_countBytes {d : List Byte} (hd : d.length < 2 ^ 32) :
    ((countBytes d).present.map fun e => (e.1, e.2.toNat)) = frequencies d := by
  refine eq_of_pairwise_of_mem (by rw [List.pairwise_map]; exact present_pairwise _) (frequencies_pairwise d) ?_
  rintro ⟨b, n⟩
  rw [mem_frequencies, List.mem_map]
  constructor
  · rintro ⟨⟨b', c⟩, hmem, he⟩
    cases he
    obtain ⟨hc, hne⟩ := toNat_get_countBytes hd ((mem_present _ _ _).1 hmem)
    exact ⟨hne, hc⟩
  · rintro ⟨hne, hn⟩
    have hget : (countBytes d).get b = some (BitVec.ofNat 32 (d.count b)) := by rw [get_countBytes, if_neg hne]
    refine ⟨(b, _), (mem_present _ _ _).2 hget, ?_⟩
    rw [(toNat_get_countBytes hd hget).1]
    exact Prod.ext rfl hn.symm

theorem length_lt_of_runsOn {s : State} {d : List Byte} (h : s.runsOn d) : d.length < 2 ^ 32 := h.2 ▸ s.work.LEN.isLt

/-- Settles O23: each count is exact because the input's length has 32 bits, and the frequencies of an input add up to its
length. -/
theorem countsAreExactAndAddUp : Obligations.CountsAreExactAndAddUp := by
  intro s t d hd h ht
  rw [exec_fcount, execFcount_of_runsOn hd h] at ht
  cases ht
  have hlt := length_lt_of_runsOn h
  refine ⟨fun b c hc => ?exact, ?sum⟩
  case exact =>
    obtain ⟨hcount, hne⟩ := toNat_get_countBytes hlt hc
    exact ⟨hcount, by omega⟩
  case sum =>
    have hsum := sum_frequencies d
    rwa [← present_countBytes hlt, List.map_map] at hsum

/-! ## MKLEAF -/

/-- Settles O26: the present symbols in ascending order are the list. -/
theorem mkleafListsLeavesInSymbolOrder : Obligations.MkleafListsLeavesInSymbolOrder := by
  intro s
  refine ⟨s.work.FREQ.present, present_pairwise _, mem_present _, present_length _, ?_⟩
  show execMkleaf s = _
  rw [execMkleaf, settle_ok, makeLeaves]
  simp only [List.length_map, hdrBytes]
  rfl

/-! ## TBUILD -/

/-- Settles O28: `insertByCount` cuts the sorted rest where the counts exceed the parent's. -/
theorem mergePutsTheParentBehindEqualCounts : Obligations.MergePutsTheParentBehindEqualCounts := by
  intro nodes a b rest hlen hslots hsorted
  have hp : (BitVec.ofNat 9 nodes.length).toNat = nodes.length := by rw [BitVec.toNat_ofNat, Nat.mod_eq_of_lt (by omega)]
  have hparent : countAt (nodes ++ [.inner (countAt nodes a + countAt nodes b) a b]) (BitVec.ofNat 9 nodes.length) =
      countAt nodes a + countAt nodes b := by
    simp [countAt, hp, Node.CNT]
  have hcount : (rest.countP fun j => decide ((countAt (nodes ++ [.inner (countAt nodes a + countAt nodes b) a b]) j).toNat ≤
      (countAt nodes a + countAt nodes b).toNat)) =
      rest.countP fun j => decide ((countAt nodes j).toNat ≤ (countAt nodes a + countAt nodes b).toNat) :=
    List.countP_congr fun j hj => by rw [countAt_append _ (hslots j hj)]
  obtain ⟨hbefore, hafter⟩ := countP_le_prefix (fun j => (countAt nodes j).toNat) (countAt nodes a + countAt nodes b).toNat rest
    hsorted
  refine ⟨_, _, _, _, rfl, hp, (List.take_append_drop _ rest).symm, ?_, hbefore, hafter⟩
  simp only [mergeStep, if_pos hlen, insertByCount_eq, hparent, hcount]

/-- R86, R89: TBUILD on a non-empty queue whose entries are trees checks it, sorts it and merges it. -/
theorem buildTree_of_queue {w : Work} {nodes : List Node} {root : NodeIdx} (hne : w.QUEUE ≠ [])
    (hcheck : checkQueue w.NODE w.QUEUE = .ok ())
    (hmerge : mergeAll w.QUEUE.length w.NODE (stableSort w.NODE w.QUEUE) = .ok (nodes, [root])) :
    buildTree w = .ok { w with NODE := nodes, QUEUE := [root], ROOT := root, TREE := true } := by
  unfold buildTree
  split
  next h => exact absurd h hne
  next => simp only [hcheck, hmerge, bind, Except.bind, pure, Except.pure, List.headD_cons]

theorem afterTbuild_eq (m : Mode) : afterTbuild m = if m = .encode then .cgen else .bunpk := by cases m <;> rfl

/-- R86: TBUILD with its registers computed hands over. -/
theorem exec_tbuild_of_buildTree {s : State} {w : Work} (h : buildTree s.work = .ok w) :
    exec .tbuild s = .next { s with PHASE := if s.MODE = .encode then .cgen else .bunpk, work := w } := by
  show execTbuild s = _
  rw [execTbuild, h, ← afterTbuild_eq]
  rfl

/-- Settles O29: on the leaf list the queue stands for the list of leaves as trees, sorting and merging go together with
`HTree.build`'s, and the slots taken and the queue's entries add up to twice the leaves. -/
theorem tbuildBuildsTheTree : Obligations.TbuildBuildsTheTree := by
  intro s es hne hle hnode hqueue
  have hleaves := leaves_represent es hle
  rw [← hnode, ← hqueue] at hleaves
  have hsorted : List.Forall₂ (represents s.work.NODE) (stableSort s.work.NODE s.work.QUEUE)
      (HTree.sortedLeaves (es.map fun e => (e.1, e.2.toNat))) := forall₂_foldl_insert hleaves .nil
  have hqlen : s.work.QUEUE.length = es.length := by simp [hqueue]
  have hslen : (stableSort s.work.NODE s.work.QUEUE).length = es.length := by
    rw [(stableSort_spec _ _).2.1.length_eq, hqlen]
  have hnlen : s.work.NODE.length = es.length := by simp [hnode]
  obtain ⟨t, hbuild, -, -, -, hmerged⟩ := HTree.build_spec (es.map fun e => (e.1, e.2.toNat)) (by simpa using hne)
  have hsum : ((HTree.sortedLeaves (es.map fun e => (e.1, e.2.toNat))).map HTree.count).sum < 2 ^ 40 := by
    rw [HTree.sortedLeaves, ((foldl_putBehind_perm _ []).map HTree.count).sum_eq]
    simpa [Function.comp_def, HTree.count] using sum_counts_lt es hle
  obtain ⟨nodes, q, hmerge, hrep, hlen, hprefix⟩ := mergeAll_represents es.length hsorted (by omega) hsum
  rw [List.length_map] at hmerged
  rw [HTree.sortedLeaves, hmerged] at hrep
  obtain ⟨root, _, hroot, hnil, rfl⟩ := List.forall₂_cons_right_iff.1 hrep
  rw [List.forall₂_nil_right_iff.1 hnil] at hmerge hlen
  have hpos : 0 < es.length := List.length_pos_iff.2 hne
  have hnodes : nodes.length = 2 * es.length - 1 := by
    rw [List.length_singleton] at hlen
    omega
  refine ⟨t, nodes, root, hbuild, hroot, hnodes, ?root, hprefix, exec_tbuild_of_buildTree (buildTree_of_queue ?_ ?_ ?_)⟩
  case root =>
    by_cases hone : es.length = 1
    · have := lt_length_of_represents hroot
      omega
    · have := mergeAll_root _ _ _ _ _ (by omega) (by omega) hmerge
      omega
  · rw [← List.length_pos_iff, hqlen]
    exact hpos
  · exact checkQueue_of_forall₂ hleaves
  · rw [hqlen]
    exact hmerge

/-- Settles O30: an empty queue is the "no tree" branch, and the test of `TREE` comes first in the other two. -/
theorem withoutATreeCgenAndTwalkFault : Obligations.WithoutATreeCgenAndTwalkFault := by
  intro s
  refine ⟨fun hq => exec_tbuild_of_buildTree ?_, fun hT => ⟨?cgen, ?twalk⟩⟩
  · unfold buildTree
    split
    next => rfl
    next h => exact absurd hq h
  case cgen =>
    show execCgen s = _
    rw [execCgen, generateCodes, hT]
    rfl
  case twalk =>
    show execTwalk s = _
    rw [execTwalk, walkPayload, hT]
    rfl

end Sys2Proof.Machine
end

section
/-! Trees and codes (R93 to R97, R134). -/

namespace Sys2Proof.Machine

/-! ## The tree as a term -/

/-- Settles O31: each leaf list is sorted and merged in at most four steps, in which only the ties are not decided by the
counts. -/
theorem tiesGoBehindEqualCounts : Obligations.TiesGoBehindEqualCounts := by
  refine ⟨fun w x y z c => ?four, fun x y z => ?three, fun x y c e => ?two⟩
  case four => simp [HTree.build, HTree.mergeAll, HTree.putBehind, HTree.count]
  case three => simp [HTree.build, HTree.mergeAll, HTree.putBehind, HTree.count]
  case two =>
    by_cases h : c ≤ e
    · simp [HTree.build, HTree.mergeAll, HTree.putBehind, HTree.count, h]
    · simp [HTree.build, HTree.mergeAll, HTree.putBehind, HTree.count, h]

theorem HTree.leafSum_of_summed : ∀ {t : HTree}, t.summed → t.leafSum = t.count := by
  intro t
  induction t with
  | leaf s c => intro _; rfl
  | node c l r ihl ihr =>
    rintro ⟨hc, hl, hr⟩
    rw [HTree.leafSum, ihl hl, ihr hr]
    exact hc.symm

/-- A tree has as many leaves as its leaf list. -/
theorem leaves_of_build {es : List (Byte × Nat)} {t : HTree} (h : HTree.build es = some t) : t.leaves = es.length := by
  rw [← HTree.leafPairs_length, (build_leafPairs h).1.length_eq]

/-- Settles O32: `build_leafPairs` says all of it of the list of leaves, from which the sums and the paths are read off. -/
theorem theTreeHasTheLeavesAndCountsThem : Obligations.TheTreeHasTheLeavesAndCountsThem := by
  intro es t h
  obtain ⟨hperm, hsummed, hcount⟩ := build_leafPairs h
  refine ⟨hsummed, hcount, HTree.leafSum_of_summed hsummed, leaves_of_build h, ?_⟩
  rw [HTree.paths_fst]
  exact hperm.map _

/-! ## The code table -/

/-- Settles O33: the code along a path of at most 64 branches has the path's bits, and a pattern below 2^LEN. -/
theorem cgenGivesEachLeafItsPath : Obligations.CgenGivesEachLeafItsPath := by
  intro s t hT hrep hd hn
  obtain ⟨c, hgen, hc⟩ := generateCodes_spec hT hrep hd hn
  have along : ∀ {b p}, t.codes.lookup b = some p → p.length ≤ 64 := fun hp => HTree.codes_length hd (mem_of_lookup hp)
  refine ⟨c, (exec_cgen s).trans (execCgen_of_generateCodes hgen), fun b => ?bits, fun b k hk => ?pattern⟩
  case bits =>
    rw [hc, Option.map_map, HTree.codeOf]
    cases hp : t.codes.lookup b with
    | none => rfl
    | some p => exact congrArg some (Code.along_root (along hp)).1
  case pattern =>
    rw [hc] at hk
    obtain ⟨p, hp, rfl⟩ := Option.map_eq_some_iff.1 hk
    exact (Code.along_root (along hp)).2.2

/-! ## The lengths of codes -/

/-- With two leaves or more, codes are paths. -/
theorem HTree.codes_eq_paths {t : HTree} (h : t.leaves ≠ 1) : t.codes = t.paths := by
  cases t with
  | leaf s c => exact absurd rfl h
  | node c l r => rfl

theorem HTree.code_length_pos {t : HTree} {b : Byte} {p : List Bool} (h : (b, p) ∈ t.codes) : 1 ≤ p.length := by
  cases t with
  | leaf s c =>
    simp only [HTree.codes, List.mem_singleton, Prod.mk.injEq] at h
    simp [h.2]
  | node c l r =>
    simp only [HTree.codes, HTree.paths, List.mem_append, List.mem_map, Prod.mk.injEq, Prod.exists] at h
    rcases h with ⟨_, _, _, -, rfl⟩ | ⟨_, _, _, -, rfl⟩ <;> simp

/-- The code of a one-leaf tree has one bit (R96). -/
theorem HTree.code_length_of_one_leaf {t : HTree} {b : Byte} {p : List Bool} (ht : t.leaves = 1) (h : (b, p) ∈ t.codes) :
    p.length = 1 := by
  cases t with
  | leaf s c =>
    simp only [HTree.codes, List.mem_singleton, Prod.mk.injEq] at h
    simp [h.2]
  | node c l r =>
    have := l.leaves_pos
    have := r.leaves_pos
    simp only [HTree.leaves] at ht
    omega

/-- R97: a path of 46 bits or more would make the root count F(48) or more, which is above 2^32. -/
theorem path_length_le {d : List Byte} {t : HTree} (hd : d.length < 2 ^ 32) (ht : HTree.build (frequencies d) = some t)
    {b : Byte} {p : List Bool} (h : (b, p) ∈ t.paths) : p.length ≤ 45 := by
  obtain ⟨hbal, hsum⟩ := balanced_of_build ht
  have hleaf : ∀ e ∈ t.leafPairs, 1 ≤ e.2 := by
    intro e he
    obtain ⟨hne, hc⟩ := mem_frequencies.1 ((build_leafPairs ht).1.mem_iff.1 he)
    omega
  have hfib : Nat.fib (p.length + 2) ≤ d.length := count_of_build ht ▸ (fib_le_count t hbal hsum hleaf).2.1 h
  by_contra hlong
  have hmono : Nat.fib 48 ≤ Nat.fib (p.length + 2) := Nat.fib_mono (by omega)
  rw [fib_48] at hmono
  omega

/-- R97 for the tree of an input: the bounds on a code's length. -/
theorem code_length_bounds {d : List Byte} {t : HTree} (hd : d.length < 2 ^ 32) (ht : HTree.build (frequencies d) = some t)
    {b : Byte} {p : List Bool} (h : (b, p) ∈ t.codes) :
    1 ≤ p.length ∧ p.length ≤ 45 ∧ (2 ≤ (frequencies d).length → p.length ≤ (frequencies d).length - 1) ∧
      ((frequencies d).length = 1 → p.length = 1) := by
  have hl := leaves_of_build ht
  refine ⟨HTree.code_length_pos h, ?_, fun h2 => ?_, fun h1 => HTree.code_length_of_one_leaf (hl.trans h1) h⟩
  · by_cases h1 : t.leaves = 1
    · rw [HTree.code_length_of_one_leaf h1 h]
      decide
    · exact path_length_le hd ht (HTree.codes_eq_paths h1 ▸ h)
  · have h1 : t.leaves ≠ 1 := by omega
    have := length_lt_leaves t (HTree.codes_eq_paths h1 ▸ h)
    omega

/-- R134 for the tree of an input: codes and counts run against each other. -/
theorem code_length_le_of_count_lt {d : List Byte} {t : HTree} (ht : HTree.build (frequencies d) = some t) {x y : Byte}
    {cx cy : List Bool} (hx : t.codeOf x = some cx) (hy : t.codeOf y = some cy) (hlt : d.count y < d.count x) :
    cx.length ≤ cy.length := by
  have leaf : ∀ {b c}, t.codeOf b = some c → (b, d.count b) ∈ frequencies d := by
    intro b c hc
    have hmem : b ∈ t.leafPairs.map Prod.fst := by
      rw [← HTree.paths_fst, ← HTree.codeOf_isSome, hc]
      rfl
    obtain ⟨e, he, rfl⟩ := List.mem_map.1 (((build_leafPairs ht).1.map Prod.fst).mem_iff.1 hmem)
    rwa [← (mem_frequencies.1 he).2]
  by_cases h1 : t.leaves = 1
  · rw [HTree.code_length_of_one_leaf h1 (mem_of_lookup hx), HTree.code_length_of_one_leaf h1 (mem_of_lookup hy)]
  · have path : ∀ {b c p}, t.codeOf b = some c → (b, p) ∈ t.paths → c = p := by
      intro b c p hc hp
      rw [HTree.codeOf, HTree.codes_eq_paths h1, lookup_of_mem (build_nodup ht (frequencies_nodup d)) hp] at hc
      exact (Option.some.inj hc).symm
    obtain ⟨p, q, hp, hq, hle⟩ := depth_of_counts ht (leaf hx) (leaf hy) hlt
    rw [path hx hp, path hy hq]
    exact hle

end Sys2Proof.Machine
end

section
/-! The payload and the header that ENCODE writes (R101, R110 to R112). -/

namespace Sys2Proof.Machine

/-! ## BPACK -/

/-- The code bits of an input whose codes have at most 57 bits each. -/
theorem length_flatMap_codes_le {t : CodeTable} {d : List Byte} (h : ∀ b ∈ d, ∃ c, t.get b = some c ∧ c.LEN.toNat ≤ 57) :
    (d.flatMap fun b => ((t.get b).map Code.bits).getD []).length ≤ 57 * d.length := by
  induction d with
  | nil => simp
  | cons b d ih =>
    obtain ⟨c, hc, hl⟩ := h b (by simp)
    have := ih fun x hx => h x (by simp [hx])
    rw [List.flatMap_cons, List.length_append, List.length_cons, hc, Option.map_some, Option.getD_some, Code.bits_length]
    omega

theorem exec_bpack (s : State) : exec .bpack s = execBpack s := rfl

/-- R110: BPACK with its input read and its codes taken hands over to FTSER. -/
theorem execBpack_of_takeBytes {s : State} {d : List Byte} {p : Packer} (hd : s.runsOn d)
    (hp : Packer.takeBytes s.work.CODE (Packer.start s.work.HLEN s.OUT) d = .ok p) :
    execBpack s = .next (((s.setWork (p.registers s.work)).setOUT p.flush.out).setPHASE .ftser) := by
  rw [execBpack, inputBytes_of_runsOn hd]
  simp only [bind, Except.bind, hp]
  rfl

/-- Settles O37: `Packer.Took` says what the packer's registers and `OUT` are after the code bits, and after the flush. -/
theorem bpackPacksTheCodesBitSerially : Obligations.BpackPacksTheCodesBitSerially := by
  intro s d bits hd hcodes hbits
  have hlt := length_lt_of_runsOn hd
  have hh := s.work.HLEN.isLt
  have hlen : bits.length ≤ 57 * d.length := by
    rw [hbits]
    exact length_flatMap_codes_le fun b hb => (hcodes b hb).imp fun c hc => ⟨hc.1, hc.2.1⟩
  obtain ⟨p, hp, htook⟩ := Packer.Took.takeBytes d (Packer.Took.start s.work.HLEN s.OUT) hcodes (by simp only [List.length_nil]; omega)
  rw [List.nil_append, ← hbits] at htook
  obtain ⟨hoptr, hout⟩ := htook.flush (by omega)
  have hacc : p.ACC = BitVec.ofNat 64 (natOfBits (bits.drop (8 * (bits.length / 8)))) := by
    rw [← htook.ACC, BitVec.ofNat_toNat, BitVec.setWidth_eq]
  have haccn : p.ACCN = BitVec.ofNat 7 (bits.length % 8) := by
    rw [show bits.length % 8 = p.ACCN.toNat by rw [htook.ACCN]; omega, BitVec.ofNat_toNat, BitVec.setWidth_eq]
  have hpadc : p.padc = BitVec.ofNat 3 (padOf bits.length) := by
    rw [← htook.padc, BitVec.ofNat_toNat, BitVec.setWidth_eq]
  refine ⟨_, (exec_bpack s).trans (execBpack_of_takeBytes hd hp), ?frame, htook.TBITS, hoptr, fun a => ?out⟩
  case frame =>
    rw [← hacc, ← haccn, ← hpadc]
    rfl
  case out =>
    have hO : (((s.setWork (p.registers s.work)).setOUT p.flush.out).setPHASE .ftser).work.OPTR = p.flush.OPTR := rfl
    rw [hO, hoptr]
    exact hout a

/-! ## FTSER -/

/-- R101, R121: FTSER whose container has room in `OUT` completes ENCODE with it. -/
theorem execFtser_of_le {s : State} (h : s.work.OPTR.toNat ≤ s.cfg.outCap) :
    execFtser s = .next (completed s.work.OPTR
      (s.setOUT (memWrite (writeHeader s.OUT s.work.NSYM s.work.FREQ) 0 1 s.work.PADC.toNat))) :=
  settle_eq_next.2 (.inl (complete_eq_ok.2 ⟨h, rfl⟩))

/-- The ascending list of a table's present symbols is `present`. -/
theorem present_eq {f : FreqTable} {es : List (Byte × Count)} (hp : es.Pairwise (fun a b => a.1.toNat < b.1.toNat))
    (hm : ∀ b c, (b, c) ∈ es ↔ f.get b = some c) : f.present = es :=
  eq_of_pairwise_of_mem (present_pairwise f) hp fun ⟨b, c⟩ => (mem_present f b c).trans (hm b c).symm

/-- The container FTSER leaves, byte by byte (R101, R121). -/
theorem read_container {m : Memory} {nsym : BitVec 9} {f : FreqTable} {padc : BitVec 3} (h : nsym.toNat = f.present.length)
    (a : Nat) :
    (memWrite (writeHeader m nsym f) 0 1 padc.toNat).read a =
      if a = 0 then some (padc.setWidth 8)
      else if a < 1 + hdrBytes f.present.length then (headerBytes (f.present.map fun e => (e.1, e.2.toNat)))[a - 1]?
      else m.read a := by
  rw [read_memWrite]
  by_cases h0 : a = 0
  · subst h0
    simp [beBytes]
  · rw [if_neg (by omega), if_neg h0, read_writeHeader h]
    by_cases h1 : a < 1 + hdrBytes f.present.length
    · rw [if_pos ⟨by omega, h1⟩, if_pos h1]
    · rw [if_neg (by omega), if_neg h1]

/-- Settles O38: the list is the table's, so the header is `writeHeader`'s, and the completion keeps what lies below
`OPTR`. -/
theorem ftserWritesTheHeaderAndCompletes : Obligations.FtserWritesTheHeaderAndCompletes := by
  intro s es hp hm hn hlo hhi
  obtain rfl := present_eq hp hm
  refine ⟨_, (exec_ftser s).trans (execFtser_of_le hhi), rfl, fun a => ?_⟩
  rw [completed_OUT, setOUT_OUT, read_keepBelow, read_container hn]
  by_cases h : a < s.work.OPTR.toNat
  · rw [if_pos h, if_pos h]
  · rw [if_neg h, if_neg (by omega), if_neg (by omega), if_neg h]

end Sys2Proof.Machine
end

section
/-! The phases of DECODE one by one (R104 to R108, R113, R115 to R118), and where the core meets a byte of `IN` that the host
has not written (U15). -/

namespace Sys2Proof.Machine

/-! ## FTDES -/

theorem exec_ftdes (s : State) : exec .ftdes s = execFtdes s := rfl

theorem execFtdes_of_readHeader_error {s : State} {h : Halt} (hr : readHeader s = .error h) :
    execFtdes s = settle s (.error h) := by
  rw [execFtdes, hr]
  rfl

/-- R104, R126: with the header read, FTDES goes on with DECODE's checks. -/
theorem execFtdes_of_readHeader_ok {s : State} {w : Work} (hr : readHeader s = .ok w) :
    execFtdes s = settle s ((checkPayload w).map fun w' => (s.setWork w').setPHASE .mkleaf) := by
  rw [execFtdes, hr]
  simp only [bind, Except.bind]
  cases checkPayload w <;> rfl

/-- The header of a container whose entries have distinct symbols, and which fits, as FTDES reads it. -/
theorem readHeader_of_runsOn {s : State} {k : List Byte} {n : Nat} (hk : s.runsOn k) (hn : n = beNat ((k.drop 1).take 2)) :
    readHeader s =
      if k.length < 3 ∨ k.length - 1 < hdrBytes n then .error (.raise .truncatedHeader)
      else if n = 0 ∨ ¬ ((headerEntries k n).map Prod.fst).Nodup then .error (.raise .invalidEntryCount)
      else .ok { s.work with
        N16 := BitVec.ofNat 16 n, HLEN := BitVec.ofNat 19 (hdrBytes n), FREQ := tableOf FreqTable.clear (headerEntries k n) } :=
  readHeader_spec hk.2 hn fun i _ hi => hk.1 i (by omega)

/-- The working registers FTDES's header leaves (R104). -/
def headerRead (w : Work) (es : List (Byte × Nat)) : Work :=
  { w with
    N16  := BitVec.ofNat 16 es.length
    HLEN := BitVec.ofNat 19 (hdrBytes es.length)
    FREQ := tableOf FreqTable.clear es }

theorem toNat_hdrBytes {n : Nat} (h : n ≤ 256) : (BitVec.ofNat 19 (hdrBytes n)).toNat = hdrBytes n := by
  rw [BitVec.toNat_ofNat, Nat.mod_eq_of_lt (by unfold hdrBytes; omega)]

/-- R104: FTDES reads back a header of distinct symbols, whatever follows it. -/
theorem readHeader_of_headerBytes {s : State} {es : List (Byte × Nat)} (hne : es ≠ []) (hnodup : (es.map Prod.fst).Nodup)
    (hcnt : ∀ e ∈ es, e.2 < 2 ^ 32) (hin : ∀ i, i < hdrBytes es.length → s.IN.read (1 + i) = (headerBytes es)[i]?)
    (hlen : 1 + hdrBytes es.length ≤ s.work.LEN.toNat) : readHeader s = .ok (headerRead s.work es) := by
  obtain ⟨plen, hplen⟩ := Nat.exists_eq_add_of_le hlen
  have hle := length_le_of_nodup hnodup
  generalize hk : (0 : Byte) :: (headerBytes es ++ List.replicate plen 0) = k
  obtain ⟨hn, hes⟩ := headerEntries_headerBytes hk.symm (by omega) hcnt
  have hkl : k.length = s.work.LEN.toNat := by
    rw [← hk, hplen, List.length_cons, List.length_append, headerBytes_length, List.length_replicate]
    omega
  have hagree : s.IN.agrees k 1 (min (1 + hdrBytes es.length) k.length) := by
    intro i h1 h2
    obtain ⟨j, rfl⟩ := Nat.exists_eq_add_of_le h1
    rw [hin j (by omega), ← hk, Nat.add_comm 1 j, List.getElem?_cons_succ,
      List.getElem?_append_left (by rw [headerBytes_length]; omega)]
  have hpos : 0 < es.length := List.length_pos_iff.2 hne
  have hh : hdrBytes es.length = 2 + 5 * es.length := rfl
  rw [readHeader_spec hkl.symm hn.symm hagree, hes, if_neg (by omega), if_neg (by simpa [hne] using hnodup)]
  rfl

/-- R126: at least one payload byte, and a padding count of at most 7. -/
theorem checkPayload_of_le {w : Work} {plen : Nat} (hl : w.LEN.toNat = 1 + w.HLEN.toNat + plen) (hp : 1 ≤ plen)
    (hpad : w.PADB.toNat ≤ 7) : checkPayload w = .ok { w with PLEN := BitVec.ofNat 32 plen } := by
  have : w.LEN.toNat - 1 - w.HLEN.toNat = plen := by omega
  rw [checkPayload, this, if_neg (by omega), if_neg (by omega)]

/-- R104, R126: FTDES of a header it accepts, with a payload and a padding count that DECODE accepts. -/
theorem execFtdes_of_readHeader {s : State} {es : List (Byte × Nat)} {plen : Nat} (hle : es.length ≤ 256)
    (hr : readHeader s = .ok (headerRead s.work es)) (hl : s.work.LEN.toNat = 1 + hdrBytes es.length + plen)
    (hp : 1 ≤ plen) (hpad : s.work.PADB.toNat ≤ 7) :
    execFtdes s =
      .next ((s.setWork { headerRead s.work es with PLEN := BitVec.ofNat 32 plen }).setPHASE .mkleaf) := by
  have hcheck := checkPayload_of_le (w := headerRead s.work es) (plen := plen)
    (by rw [headerRead, toNat_hdrBytes hle]; exact hl) hp hpad
  rw [execFtdes_of_readHeader_ok hr, hcheck]
  rfl

/-- Settles O39: the header is read back, and the table of its entries looks up as they do. -/
theorem ftdesReadsTheTable : Obligations.FtdesReadsTheTable := by
  intro s es plen hne hnodup hcnt hplen hin hlen hpad
  have hr := readHeader_of_headerBytes hne hnodup hcnt hin (by omega)
  refine ⟨tableOf FreqTable.clear es, fun b => ?_,
    (exec_ftdes s).trans (execFtdes_of_readHeader (length_le_of_nodup hnodup) hr hlen hplen hpad)⟩
  rw [get_tableOf _ _ hnodup, FreqTable.get_clear, Option.or_none]

/-- Settles O40: `readHeader_spec` decides the first two kinds, and DECODE's checks the others. -/
theorem ftdesRaisesTheFirstError : Obligations.FtdesRaisesTheFirstError := by
  intro s k hk n
  have hr := readHeader_of_runsOn hk (n := n) rfl
  have raised : ∀ {e}, readHeader s = .error (.raise e) → exec .ftdes s = .next (raiseError e s) :=
    fun he => execFtdes_of_readHeader_error he
  refine ⟨fun hshort => raised (by rw [hr, if_pos (.inl hshort)]), fun h3 => ⟨fun hfit => raised (by rw [hr, if_pos (.inr hfit)]),
    fun hfit => ?_⟩⟩
  rw [if_neg (by omega)] at hr
  refine ⟨fun hbad => raised (by rw [hr, if_pos hbad]), fun hn0 hnodup => ?_⟩
  rw [if_neg (by simp [hn0, hnodup])] at hr
  have hle : n ≤ 256 := by simpa using length_le_of_nodup hnodup
  have hplen : s.work.LEN.toNat - 1 - (BitVec.ofNat 19 (hdrBytes n)).toNat = k.length - 1 - hdrBytes n := by
    rw [toNat_hdrBytes hle, hk.2]
  have checked : exec .ftdes s = settle s ((checkPayload _).map fun w' => (s.setWork w').setPHASE .mkleaf) :=
    (exec_ftdes s).trans (execFtdes_of_readHeader_ok hr)
  refine ⟨fun hempty => ?empty, fun hpay hpad => ?padding⟩
  case empty =>
    rw [checked, checkPayload]
    simp only [hplen]
    rw [if_pos (by omega)]
    rfl
  case padding =>
    rw [checked, checkPayload]
    simp only [hplen]
    rw [if_neg (by omega), if_pos hpad]
    rfl

/-- What a header that FTDES accepts has: N from 1 on, and as many present symbols (R104). -/
theorem readHeader_ok_N16 {s : State} {w : Work} (h : readHeader s = .ok w) :
    ∃ n, n ≠ 0 ∧ w.N16 = BitVec.ofNat 16 n ∧ (allSymbols.countP fun b => (w.FREQ.get b).isSome) = n := by
  simp only [readHeader, bind, Except.bind, pure, Except.pure] at h
  split at h
  · cases h
  split at h
  · cases h
  next n _ =>
    split at h
    · cases h
    split at h
    · cases h
    next hn =>
      split at h
      · cases h
      next f hf =>
        cases h
        refine ⟨n, hn, rfl, ?_⟩
        rw [readEntries_countP hf, countP_clear, Nat.zero_add]

theorem checkPayload_ok_table {w w' : Work} (h : checkPayload w = .ok w') : w'.N16 = w.N16 ∧ w'.FREQ = w.FREQ := by
  simp only [checkPayload] at h
  split at h
  · cases h
  split at h
  · cases h
  · cases h
    exact ⟨rfl, rfl⟩

/-- An FTDES that hands over to MKLEAF has read a header and passed DECODE's checks. -/
theorem execFtdes_mkleaf {s t : State} (h : execFtdes s = .next t) (hp : t.PHASE = .mkleaf) :
    ∃ w, readHeader s = .ok w ∧ checkPayload w = .ok t.work := by
  rcases settle_eq_next.1 h with h | ⟨e, -, rfl⟩
  · cases hr : readHeader s <;> simp [hr, bind, Except.bind, pure, Except.pure] at h
    next w =>
    cases hc : checkPayload w <;> simp [hc] at h
    subst h
    exact ⟨w, rfl, hc⟩
  · cases hp

/-- Settles O41: distinct symbols number at most 256, so more entries than that repeat one. -/
theorem moreThan256EntriesAreInvalid : Obligations.MoreThan256EntriesAreInvalid := by
  refine ⟨fun s k hk h3 hmany hfit => ?many, fun s t h hp => ?present⟩
  case many =>
    obtain ⟨-, hfits⟩ := ftdesRaisesTheFirstError s k hk
    refine ((hfits h3).2 hfit).1 (.inr fun hnodup => ?_)
    have := length_le_of_nodup hnodup
    rw [headerEntries_length] at this
    omega
  case present =>
    obtain ⟨w, hr, hc⟩ := execFtdes_mkleaf h hp
    obtain ⟨hN, hF⟩ := checkPayload_ok_table hc
    obtain ⟨n, hn0, hn, hcount⟩ := readHeader_ok_N16 hr
    have hle : n ≤ 256 := by
      rw [← hcount, ← present_length_eq]
      exact present_length _
    have hN16 : t.work.N16.toNat = n := by rw [hN, hn, BitVec.toNat_ofNat, Nat.mod_eq_of_lt (by omega)]
    rw [hN16, hF]
    exact ⟨by omega, hle, hcount⟩

/-- FTSER's next state has the container in `OUT` (R101). -/
theorem execFtser_ok {s t : State} (h : execFtser s = .next t) :
    t = completed s.work.OPTR (s.setOUT (memWrite (writeHeader s.OUT s.work.NSYM s.work.FREQ) 0 1 s.work.PADC.toNat)) := by
  rcases settle_eq_next.1 h with h | ⟨e, h, -⟩
  · exact (complete_eq_ok.1 h).2
  · exact absurd h (complete_ne_raise _ _ e)

/-- A table's list of present symbols looks up as the table does. -/
theorem lookup_present (f : FreqTable) (b : Byte) :
    ((f.present.map fun e => (e.1, e.2.toNat)).lookup b).map (BitVec.ofNat 32) = f.get b := by
  have hnodup : (f.present.map Prod.fst).Nodup := by
    rw [List.Nodup, List.pairwise_map]
    exact (present_pairwise f).imp fun hab h => by rw [h] at hab; omega
  rw [lookup_map_snd, Option.map_map]
  cases hb : f.get b with
  | some c =>
    rw [lookup_of_mem hnodup ((mem_present f b c).2 hb), Option.map_some]
    simp
  | none =>
    cases hl : f.present.lookup b with
    | none => rfl
    | some c => rw [(mem_present f b c).1 (mem_of_lookup hl)] at hb; cases hb

/-- Settles O42: FTSER's bytes are `headerBytes` of the table's list, and reading that header gives the table back. -/
theorem theTableSurvivesTheRoundTrip : Obligations.TheTableSurvivesTheRoundTrip := by
  intro s t s' n hn h1 hnsym hoptr hexec hin hlen
  rw [← present_length_eq] at hn
  subst hn
  obtain rfl := execFtser_ok hexec
  have hnodup : ((s.work.FREQ.present.map fun e => (e.1, e.2.toNat)).map Prod.fst).Nodup := by
    rw [List.Nodup, List.pairwise_map, List.pairwise_map]
    exact (present_pairwise s.work.FREQ).imp fun hab h => by simp only at h; rw [h] at hab; omega
  have hel : (s.work.FREQ.present.map fun e => (e.1, e.2.toNat)).length = s.work.FREQ.present.length := List.length_map _
  have hle := present_length s.work.FREQ
  have hr : readHeader s' = .ok (headerRead s'.work (s.work.FREQ.present.map fun e => (e.1, e.2.toNat))) := by
    refine readHeader_of_headerBytes (by rw [← List.length_pos_iff, hel]; exact h1) hnodup ?_ ?_ (by rw [hel]; exact hlen)
    · intro e he
      obtain ⟨x, -, rfl⟩ := List.mem_map.1 he
      exact x.2.isLt
    · intro i hi
      rw [hel] at hi
      rw [hin (1 + i) (by omega) (by omega), completed_OUT, setOUT_OUT, read_keepBelow, if_pos (by omega),
        read_container hnsym, if_neg (by omega), if_pos (by omega), Nat.add_sub_cancel_left]
  refine ⟨_, hr, ?_, ?_, fun b => ?_⟩
  · rw [headerRead, hel, BitVec.toNat_ofNat, Nat.mod_eq_of_lt (by omega)]
  · rw [headerRead, hel, toNat_hdrBytes hle]
  · rw [headerRead, get_tableOf _ _ hnodup, FreqTable.get_clear, Option.or_none, lookup_present]

/-! ## BUNPK -/

/-- Bit `j` of a byte sequence is bit `7 - (j mod 8)` of byte `j div 8` (R24, R67). -/
theorem getElem?_flatMap_byteBits (l : List Byte) :
    ∀ j, (l.flatMap byteBits)[j]? = (l[j / 8]?).map fun b => b.getLsbD (7 - j % 8) := by
  induction l with
  | nil => intro j; rfl
  | cons b l ih =>
    intro j
    rw [List.flatMap_cons]
    by_cases hj : j < 8
    · rw [List.getElem?_append_left (by rw [byteBits_length]; exact hj), byteBits_getElem? b j hj, Nat.div_eq_of_lt hj,
        Nat.mod_eq_of_lt hj]
      rfl
    · obtain ⟨i, rfl⟩ := Nat.exists_eq_add_of_le' (Nat.not_lt.1 hj)
      rw [List.getElem?_append_right (by rw [byteBits_length]; omega), byteBits_length, Nat.add_sub_cancel, ih,
        Nat.add_div_right i (by decide), Nat.add_mod_right, List.getElem?_cons_succ]

/-- R113: the bits of a payload that stands in `IN` are the ones the walker reads. -/
theorem payloadBit_of_payload {s : State} {payload : List Byte} {pad j : Nat} {b : Bool}
    (hin : ∀ i, i < payload.length → s.IN.read (1 + s.work.HLEN.toNat + i) = payload[i]?)
    (hj : (payloadBits payload pad)[j]? = some b) : payloadBit s j = .ok b := by
  rw [payloadBits, List.getElem?_take] at hj
  split at hj
  next =>
    rw [getElem?_flatMap_byteBits] at hj
    obtain ⟨x, hx, rfl⟩ := Option.map_eq_some_iff.1 hj
    have hread : memRead1 s (payloadAddr s.work.HLEN + j / 8) = .ok x := by
      rw [memRead1_eq_ok, payloadAddr, hin _ (List.getElem?_eq_some_iff.1 hx).1, hx]
    rw [payloadBit, hread]
    rfl
  next => cases hj

/-- Settles O43: the phase is its own next state; 8 * PLEN has 35 bits; and each payload bit is the bit of its byte. -/
theorem bunpkTrimsThePadding : Obligations.BunpkTrimsThePadding := by
  intro s
  have hexec : exec .bunpk s = .next
      ((s.setWork { s.work with TBITS := BitVec.ofNat 40 (8 * s.work.PLEN.toNat - s.work.PADB.toNat) }).setPHASE .twalk) := rfl
  refine ⟨hexec, fun hplen hpad t ht => ?bits, fun payload pad _ hin j b hj => payloadBit_of_payload hin hj⟩
  case bits =>
    rw [hexec] at ht
    cases ht
    have := s.work.PLEN.isLt
    rw [setPHASE_work, setWork_work, BitVec.toNat_ofNat, Nat.mod_eq_of_lt (by omega)]
    omega

/-! ## TWALK -/

/-- TWALK on bits that its tree reads as `d`, with the root counting them, succeeds with `d` (R117). -/
theorem exec_twalk_of_read {s : State} {t : HTree} {bits : List Bool} {d : List Byte} (hT : s.work.TREE = true)
    (ht : represents s.work.NODE s.work.ROOT t) (hl : s.work.TBITS.toNat = bits.length)
    (hb : ∀ j x, bits[j]? = some x → payloadBit s j = .ok x) (hr : t.read bits = some d) (hc : d.length = t.count)
    (hcap : d.length ≤ s.cfg.outCap) : ∃ u, exec .twalk s = .next u ∧ u.succeededWith d := by
  obtain ⟨hok, -⟩ := twalkEmitsTheSymbolsOrRaisesCorruptTree s t bits hT ht hl hb
  obtain ⟨u, hu, -, hs⟩ := hok d (walkResult_eq_ok.2 ⟨hr, hc⟩) hcap
  exact ⟨u, hu, hs⟩

theorem HTree.codeOf_leaf (b x : Byte) (n : Nat) : (HTree.leaf b n).codeOf x = if x = b then some [false] else none := by
  rw [HTree.codeOf, HTree.codes, List.lookup_cons]
  by_cases h : x = b
  · rw [if_pos h, h, beq_self_eq_true]
  · rw [if_neg h, beq_false_of_ne h]
    rfl

theorem true_not_mem_codeBits_leaf (b : Byte) (n : Nat) (d : List Byte) : true ∉ codeBits (.leaf b n) d := by
  intro h
  obtain ⟨x, -, hx⟩ := List.mem_flatMap.1 h
  rw [HTree.codeOf_leaf] at hx
  split at hx <;> simp at hx

/-- Settles O45: zero bits are the codes of the one symbol, and no codes under a one-leaf tree have a bit 1. -/
theorem oneLeafTreesReadZeroBitsOnly : Obligations.OneLeafTreesReadZeroBitsOnly := by
  intro s b n bits hT ht hl hb
  refine ⟨fun hbits hcap => ?zeros, fun hone => ?one⟩
  case zeros =>
    have hcode : ∀ x ∈ List.replicate n b, (HTree.leaf b n).codeOf x ≠ none := by
      intro x hx
      rw [List.eq_of_mem_replicate hx, HTree.codeOf_leaf, if_pos rfl]
      simp
    have hread := HTree.read_codeBits hcode
    rw [HTree.codeBits_leaf hcode, List.length_replicate, ← hbits] at hread
    exact exec_twalk_of_read hT ht hl hb hread (List.length_replicate ..) (by rwa [List.length_replicate])
  case one =>
    obtain ⟨-, hbad⟩ := twalkEmitsTheSymbolsOrRaisesCorruptTree s _ bits hT ht hl hb
    cases hw : walkResult (.leaf b n) bits with
    | error e => exact (hbad e hw).2
    | ok d =>
      rw [← HTree.codeBits_of_read (by simp [HTree.paths]) (walkResult_eq_ok.1 hw).1] at hone
      exact absurd hone (true_not_mem_codeBits_leaf b n d)

/-- Settles O46: reading the codes of `d` gives `d`. -/
theorem walkingUndoesPacking : Obligations.WalkingUndoesPacking := by
  intro s t d bits hT ht hcodes hbits hl hb hcount hcap
  exact exec_twalk_of_read hT ht hl hb (by rw [hbits, HTree.read_codeBits hcodes]) hcount.symm hcap

/-! ## Reads of a byte without a value -/

/-- FTDES faults where the read of its header does (U15). -/
theorem exec_ftdes_of_fault {s : State} {f : Fault} (h : readHeader s = .error (.fault f)) : exec .ftdes s = .fault f :=
  execFtdes_of_readHeader_error h

/-- N is read from a header of two bytes or more (R104). -/
theorem readHeader_of_three_le {s : State} (h : 3 ≤ s.work.LEN.toNat) :
    readHeader s = (memRead s 1 2).bind fun n =>
      if s.work.LEN.toNat - 1 < hdrBytes n then .error (.raise .truncatedHeader)
      else if n = 0 then .error (.raise .invalidEntryCount)
      else (readEntries s n 0 FreqTable.clear).map fun f =>
        { s.work with N16 := BitVec.ofNat 16 n, HLEN := BitVec.ofNat 19 (hdrBytes n), FREQ := f } := by
  unfold readHeader
  simp only
  rw [if_neg (by omega)]
  cases memRead s 1 2 with
  | error e => rfl
  | ok n =>
    simp only [bind, Except.bind, pure, Except.pure]
    split
    · rfl
    split
    · rfl
    · cases readEntries s n 0 FreqTable.clear <;> rfl

theorem memRead_two {s : State} {a : Nat} {hi lo : Byte} (hhi : s.IN.read a = some hi) (hlo : s.IN.read (a + 1) = some lo) :
    memRead s a 2 = .ok (256 * hi.toNat + lo.toNat) := by
  refine memRead_eq_ok.2 ⟨[hi, lo], memReadBytes_eq_ok.2 ⟨rfl, fun i hi2 => ?_⟩, ?_⟩
  · interval_cases i
    · exact hhi
    · exact hlo
  · simp [beNat]
    omega

/-- The first unwritten byte of N stops the reader of the header (R104). -/
theorem memRead_entryCount_fault {s : State} {a : Nat} (ha : a = 1 ∨ a = 2 ∧ s.IN.read 1 ≠ none) (hr : s.IN.read a = none) :
    memRead s 1 2 = .error (.fault (.unwrittenInput a)) := by
  rw [memRead, memReadBytes_fault hr 2 1 (by omega) (by omega)]
  · rfl
  · intro y h1 h2
    rcases ha with rfl | ⟨rfl, h⟩
    · omega
    · rwa [show y = 1 by omega]

/-- Settles O25: each reader of `IN` reads in ascending order what it needs, up to the byte that has no value. -/
theorem coreReadsOfUnwrittenInputFault : Obligations.CoreReadsOfUnwrittenInputFault := by
  refine ⟨?decode, ?input, ?entryCount, ?entries, ?walk⟩
  case decode =>
    intro s hb h3 hc hr
    have hfault : memRead1 (accept .decode s) 0 = .error (.fault (.unwrittenInput 0)) := by
      simp only [memRead1, accept_IN, hr]
    rw [exec_decode, startCommand_of_idle hb hc, beginDecode_of_three_le (by exact h3), hfault]
    rfl
  case input =>
    intro s a ha hr hbelow
    have hfault : inputBytes s = .error (.fault (.unwrittenInput a)) :=
      memReadBytes_fault hr _ 0 (Nat.zero_le a) (by omega) fun y _ hy => hbelow y hy
    have hne : s.work.LEN ≠ 0 := by
      intro h0
      simp [h0] at ha
    refine ⟨?fcount, ?bpack⟩
    case fcount =>
      rw [exec_fcount, execFcount, if_neg hne, hfault]
      rfl
    case bpack =>
      rw [exec_bpack, execBpack, hfault]
      rfl
  case entryCount =>
    intro s a h3 ha hr
    refine exec_ftdes_of_fault ?_
    rw [readHeader_of_three_le h3, memRead_entryCount_fault ha hr]
    rfl
  case entries =>
    intro s a n hi lo hhi hlo hn hlen h3 ha hr hbelow hdistinct
    have hh : hdrBytes n = 2 + 5 * n := rfl
    have hread : memRead s 1 2 = .ok n := hn ▸ memRead_two hhi hlo
    have hfault : readEntries s n 0 FreqTable.clear = .error (.fault (.unwrittenInput a)) :=
      readEntries_fault hr n 0 _ h3 (by simp only [entryAddr]; omega) (fun x h1 h2 => hbelow x h1 h2)
        (fun _ _ _ b _ => FreqTable.get_clear b) fun i j _ => hdistinct i j
    refine exec_ftdes_of_fault ?_
    rw [readHeader_of_three_le (by omega), hread, Except.bind, if_neg (by omega), if_neg (by omega), hfault]
    rfl
  case walk =>
    intro s t d bits hT ht hd hcount hprefix hlt hbits hr
    rw [exec_twalk, execTwalk, walkPayload_fault hT ht hd hcount hprefix hlt hbits hr]
    rfl

end Sys2Proof.Machine
end

section
/-! Runs of a command (R121, R126): how they go on, what they keep outside the core, and the two phases that both commands
share. -/

namespace Sys2Proof.Machine

/-! ## Runs -/

/-- A run that has come to a state goes on from there. -/
theorem run_add {M : Host.Core} {k j : Nat} {s u : M.State} (h : M.run k s = .next u) : M.run (k + j) s = M.run j u := by
  induction k generalizing s with
  | zero =>
    cases h
    rw [Nat.zero_add]
  | succ k ih =>
    rw [Nat.add_right_comm]
    simp only [Host.Core.run] at h ⊢
    cases hs : M.step s with
    | next t =>
      rw [hs] at h
      exact ih h
    | fault r => rw [hs] at h; cases h
    | refused r => rw [hs] at h; cases h

/-- A run of one step on a running machine whose script is empty is the operation that `PHASE` names. -/
theorem run_last {s : State} {i : Instr} (hs : s.script = []) (hd : decodePhase s.PHASE.code = .ok i) :
    Host.Core.run Sys2Proof.core 1 s = exec i s := by
  have hcore : Sys2Proof.core.step s = exec i s := step_phase hs hd
  simp only [Host.Core.run, hcore]
  cases exec i s <;> rfl

/-- One more step of a command is the operation that `PHASE` names. -/
theorem runCommand_succ {n : Nat} {v : BitVec 40} {s u : State} {i : Instr} (h : runCommand n v s = .next u)
    (hs : u.script = []) (hd : decodePhase u.PHASE.code = .ok i) : runCommand (n + 1) v s = exec i u :=
  (run_add h).trans (run_last hs hd)

theorem runCommand_one {v : BitVec 40} {s t : State} {i : Instr} (hd : decodeCmdWrite v = .ok i)
    (h : exec i (s.setScript []) = .next t) : runCommand 1 v s = .next t := runCommand_step (k := 0) hd h

/-- A command that has ended waits for the rest of its steps. -/
theorem runCommand_of_idle {n j : Nat} {v : BitVec 40} {s t : State} (h : runCommand n v s = .next t) (hs : t.script = [])
    (hp : t.PHASE = .idle) : runCommand (n + j) v s = .next t := (run_add h).trans (run_idle hs hp j)

/-- R26: turns of the core change nothing outside it. -/
theorem run_sameOutside {k : Nat} {s t : State} (hs : s.script = []) (h : Host.Core.run Sys2Proof.core k s = .next t) :
    s.sameOutside t := by
  induction k generalizing s with
  | zero =>
    cases h
    exact State.sameOutside.refl _
  | succ k ih =>
    cases hstep : step s with
    | next u =>
      rw [run_step hstep] at h
      have hsu : s.sameOutside u := by
        rw [step_of_script_nil hs] at hstep
        by_cases hp : s.PHASE = .idle
        · rw [coreTurn_of_idle hp] at hstep
          cases hstep
          exact State.sameOutside.refl s
        · exact (coreTurn_next hp hstep).sameOutside
      have ⟨_, _, _, hscript, _, _⟩ := hsu
      exact hsu.trans (ih (hscript.trans hs) h)
    | fault r =>
      have hcore : Sys2Proof.core.step s = .fault r := hstep
      simp only [Host.Core.run, hcore, reduceCtorEq] at h
    | refused r =>
      have hcore : Sys2Proof.core.step s = .refused r := hstep
      simp only [Host.Core.run, hcore, reduceCtorEq] at h

/-- A command whose acceptance answers a state goes on from that state, with the script run dry. -/
theorem runCommand_sameOutside {k : Nat} {v : BitVec 40} {i : Instr} {s u t : State} (hd : decodeCmdWrite v = .ok i)
    (h1 : exec i (s.setScript []) = .next u) (h : runCommand (k + 1) v s = .next t) :
    t.IN = s.IN ∧ t.IN_LEN = s.IN_LEN ∧ t.cfg = s.cfg ∧ t.replies = s.replies ∧ t.script = [] := by
  rw [runCommand_step hd h1] at h
  have hsu : (s.setScript []).sameOutside u := noOperationWritesTheInput _ _ _ h1
  have ⟨_, _, _, hu, _, _⟩ := hsu
  obtain ⟨hcfg, hin, hlen, hscript, hreplies, -⟩ := hsu.trans (run_sameOutside hu h)
  exact ⟨hin, hlen, hcfg, hreplies, hscript⟩

theorem length_lt_of_loaded {s : State} {d : List Byte} (h : s.loaded d) : d.length < 2 ^ 32 := by
  obtain ⟨-, hlen, -⟩ := h
  exact hlen ▸ s.IN_LEN.isLt

/-! ## MKLEAF and TBUILD -/

/-- What MKLEAF and TBUILD leave of `s`, with the node table and the root given (R82, R86). -/
def treeBuilt (s : State) (nodes : List Node) (root : NodeIdx) : State :=
  (s.setWork { makeLeaves s.MODE s.work with NODE := nodes, QUEUE := [root], ROOT := root, TREE := true }).setPHASE
    (afterTbuild s.MODE)

/-- R82, R86: MKLEAF and TBUILD of a table with a symbol build the tree of its list. -/
theorem run_mkleaf_tbuild {s : State} (hs : s.script = []) (hp : s.PHASE = .mkleaf) (hne : s.work.FREQ.present ≠ []) :
    ∃ tree nodes root, HTree.build (s.work.FREQ.present.map fun e => (e.1, e.2.toNat)) = some tree ∧
      represents nodes root tree ∧ Host.Core.run Sys2Proof.core 2 s = .next (treeBuilt s nodes root) := by
  have hmkleaf : exec .mkleaf s = .next ((s.setWork (makeLeaves s.MODE s.work)).setPHASE .tbuild) := rfl
  obtain ⟨tree, nodes, root, hbuild, hrep, -, -, -, htbuild⟩ :=
    tbuildBuildsTheTree ((s.setWork (makeLeaves s.MODE s.work)).setPHASE .tbuild) s.work.FREQ.present hne (present_length _)
      rfl (by simp [makeLeaves])
  refine ⟨tree, nodes, root, hbuild, hrep, ?_⟩
  rw [run_phase (i := .mkleaf) hs (by rw [hp]; rfl) hmkleaf, run_phase (i := .tbuild) (by exact hs) rfl htbuild, treeBuilt,
    afterTbuild_eq]
  rfl

end Sys2Proof.Machine
end

section
/-! ENCODE as a whole (R97, R99, R121, R124, R134): the state after its fifth step, which the statements about codes are
about, then after its sixth, and its end. -/

namespace Sys2Proof.Machine

/-! ## The first five steps -/

/-- What the tree and the tables are when ENCODE of `d` has run CGEN. -/
structure State.codesReady (t : State) (d : List Byte) (tree : HTree) : Prop where
  PHASE      : t.PHASE = .bpack
  build      : HTree.build (frequencies d) = some tree
  runsOn     : t.runsOn d
  represents : represents t.work.NODE t.work.ROOT tree
  FREQ       : t.work.FREQ = countBytes d
  NSYM       : t.work.NSYM.toNat = (frequencies d).length
  HLEN       : t.work.HLEN.toNat = hdrBytes (frequencies d).length
  bits       : ∀ b, (t.work.CODE.get b).map Code.bits = tree.codeOf b
  PAT        : ∀ b k, t.work.CODE.get b = some k → k.PAT.toNat < 2 ^ k.LEN.toNat

theorem frequencies_ne_nil {d : List Byte} (hd : d ≠ []) : frequencies d ≠ [] := by
  intro h
  have hsum := sum_frequencies d
  rw [h] at hsum
  exact hd (List.length_eq_zero_iff.1 hsum.symm)

theorem frequencies_length_le (d : List Byte) : (frequencies d).length ≤ 256 := length_le_of_nodup (frequencies_nodup d)

theorem depth_le_of_build {d : List Byte} {tree : HTree} (hd : d.length < 2 ^ 32)
    (h : HTree.build (frequencies d) = some tree) : tree.depth ≤ 45 := by
  obtain ⟨b, p, hp, hlen⟩ := tree.exists_deepest
  exact hlen ▸ path_length_le hd h hp

/-- R80 to R99: FCOUNT, MKLEAF, TBUILD and CGEN in an ENCODE. -/
theorem run_fcount_to_cgen {s : State} {d : List Byte} (hs : s.script = []) (hp : s.PHASE = .fcount) (hm : s.MODE = .encode)
    (hruns : s.runsOn d) (hd : d ≠ []) :
    ∃ t tree, Host.Core.run Sys2Proof.core 4 s = .next t ∧ t.codesReady d tree := by
  have hlt := length_lt_of_runsOn hruns
  have hpresent := present_countBytes hlt
  have hlen : (countBytes d).present.length = (frequencies d).length := by rw [← hpresent, List.length_map]
  have hle := frequencies_length_le d
  obtain ⟨u, hu⟩ : ∃ u, u = (s.setWork { s.work with FREQ := countBytes d }).setPHASE .mkleaf := ⟨_, rfl⟩
  have hfcount : exec .fcount s = .next u := hu ▸ (exec_fcount s).trans (execFcount_of_runsOn hd hruns)
  have hfreq : u.work.FREQ = countBytes d := by rw [hu]; rfl
  have hmode : u.MODE = .encode := by rw [hu]; exact hm
  obtain ⟨tree, nodes, root, hbuild, hrep, hrun⟩ := run_mkleaf_tbuild (s := u) (by rw [hu]; exact hs) (by rw [hu]; rfl) (by
    rw [hfreq, ← List.length_pos_iff, hlen, List.length_pos_iff]
    exact frequencies_ne_nil hd)
  rw [hfreq, hpresent] at hbuild
  obtain ⟨c, hcgen, hbits, hpat⟩ := cgenGivesEachLeafItsPath (treeBuilt u nodes root) tree rfl hrep
    ((depth_le_of_build hlt hbuild).trans (by decide)) (build_nodup hbuild (frequencies_nodup d))
  have hleaves : (u.work.FREQ.present.map leafOf).length = (frequencies d).length := by rw [List.length_map, hfreq, hlen]
  refine ⟨((treeBuilt u nodes root).setWork { (treeBuilt u nodes root).work with CODE := c }).setPHASE .bpack, tree, ?run,
    ⟨rfl, hbuild, ?runsOn, hrep, hfreq, ?nsym, ?hlen, hbits, hpat⟩⟩
  case run =>
    rw [run_phase (k := 3) (i := .fcount) hs (by rw [hp]; rfl) hfcount, run_add (k := 2) (j := 1) hrun]
    exact (run_last (by rw [treeBuilt, hu]; exact hs) (by rw [treeBuilt, hmode]; rfl)).trans hcgen
  case runsOn =>
    rw [hu]
    exact hruns
  case nsym =>
    show (BitVec.ofNat 9 (u.work.FREQ.present.map leafOf).length).toNat = _
    rw [hleaves, BitVec.toNat_ofNat, Nat.mod_eq_of_lt (by omega)]
  case hlen =>
    show (if u.MODE = .encode then BitVec.ofNat 19 (hdrBytes (u.work.FREQ.present.map leafOf).length) else _).toNat = _
    rw [if_pos hmode, hleaves, toNat_hdrBytes hle]

/-- R121: a machine with a non-empty input accepts ENCODE. -/
theorem exec_encode_loaded {s : State} {d : List Byte} (hidle : s.idle) (hload : s.loaded d) (hd : d ≠ []) :
    ∃ u, exec .encode (s.setScript []) = .next u ∧ u.script = [] ∧ u.PHASE = .fcount ∧ u.MODE = .encode ∧ u.runsOn d := by
  obtain ⟨hholds, hlen, hcap⟩ := hload
  have hne : s.IN_LEN ≠ 0 := by
    intro h
    rw [h] at hlen
    exact hd (List.length_eq_zero_iff.1 hlen.symm)
  exact ⟨_, encodeIsAccepted (s.setScript []) hidle.1 hne (by rw [setScript_IN_LEN, hlen]; exact hcap), rfl, rfl, rfl, hholds, hlen⟩

/-- R121, R122: the first five steps of an ENCODE. -/
theorem encode_codesReady {s : State} {d : List Byte} (hidle : s.idle) (hload : s.loaded d) (hd : d ≠ []) :
    ∃ t tree, runCommand 5 0x01 s = .next t ∧ t.script = [] ∧ t.cfg = s.cfg ∧ t.codesReady d tree := by
  obtain ⟨u, hexec, hs, hp, hm, hruns⟩ := exec_encode_loaded hidle hload hd
  obtain ⟨t, tree, hrun, ht⟩ := run_fcount_to_cgen hs hp hm hruns hd
  have hcmd : runCommand 5 0x01 s = .next t := (runCommand_step rfl hexec).trans hrun
  obtain ⟨-, -, hcfg, -, hscript⟩ := runCommand_sameOutside rfl hexec hcmd
  exact ⟨t, tree, hcmd, hscript, hcfg, ht⟩

/-! ## The codes after the fifth step -/

/-- Every code in `CODE` is the tree's, and its length the number of its bits. -/
theorem State.codesReady.codeOf {t : State} {d : List Byte} {tree : HTree} (h : t.codesReady d tree) {b : Byte} {k : Code}
    (hk : t.work.CODE.get b = some k) : tree.codeOf b = some k.bits := by
  rw [← h.bits b, hk]
  rfl

/-- Settles O35: the bounds of the tree's codes, and `CODE` holds the tree's codes. -/
theorem codesAreOneToFortyFiveBitsLong : Obligations.CodesAreOneToFortyFiveBitsLong := by
  refine ⟨fun d t hd ht b bits hb => ?tree, fun s d hidle hload hd => ?run⟩
  case tree =>
    obtain ⟨h1, h45, hn, -⟩ := code_length_bounds hd ht (mem_of_lookup hb)
    exact ⟨h1, h45, hn⟩
  case run =>
    obtain ⟨t, tree, hrun, -, -, ht⟩ := encode_codesReady hidle hload hd
    refine ⟨t, hrun, ht.PHASE, fun b k hk => ?_⟩
    rw [ht.NSYM, ← Code.bits_length]
    exact code_length_bounds (length_lt_of_loaded hload) ht.build (mem_of_lookup (ht.codeOf hk))

/-- Settles O36: codes and counts of the tree run against each other, and `CODE` holds the tree's codes. -/
theorem moreFrequentSymbolsHaveNoLongerCodes : Obligations.MoreFrequentSymbolsHaveNoLongerCodes := by
  refine ⟨fun d t ht x y cx cy hx hy => code_length_le_of_count_lt ht hx hy, fun s d hidle hload hd => ?run⟩
  case run =>
    obtain ⟨t, tree, hrun, -, -, ht⟩ := encode_codesReady hidle hload hd
    refine ⟨t, hrun, ht.PHASE, fun x y kx ky hx hy hlt => ?_⟩
    have := code_length_le_of_count_lt ht.build (ht.codeOf hx) (ht.codeOf hy) hlt
    rwa [Code.bits_length, Code.bits_length] at this

/-- R99: the symbols with a code in the tree of an input are those that occur in it. -/
theorem codeOf_isSome_of_build {d : List Byte} {tree : HTree} (h : HTree.build (frequencies d) = some tree) (b : Byte) :
    (tree.codeOf b).isSome = ((countBytes d).get b).isSome := by
  have hmem : b ∈ (frequencies d).map Prod.fst ↔ d.count b ≠ 0 := by
    constructor
    · intro hb
      obtain ⟨e, he, rfl⟩ := List.mem_map.1 hb
      exact (mem_frequencies.1 he).1
    · exact fun hne => List.mem_map.2 ⟨(b, d.count b), mem_frequencies.2 ⟨hne, rfl⟩, rfl⟩
  rw [Bool.eq_iff_iff, HTree.codeOf_isSome, HTree.paths_fst, ((build_leafPairs h).1.map Prod.fst).mem_iff, hmem, get_countBytes]
  split <;> simp_all

/-- R99: the codes of a tree fill it: in units of 2^(-64), they take all, or half on a one-leaf tree. -/
theorem HTree.sum_codes {t : HTree} (hd : t.depth ≤ 64) :
    (t.codes.map fun e => 2 ^ (64 - e.2.length)).sum = if t.leaves = 1 then 2 ^ 63 else 2 ^ 64 := by
  by_cases h : t.leaves = 1
  · rw [if_pos h]
    cases t with
    | leaf s c => simp [HTree.codes]
    | node c l r =>
      have := l.leaves_pos
      have := r.leaves_pos
      simp only [HTree.leaves] at h
      omega
  · rw [if_neg h, HTree.codes_eq_paths h, t.sum_paths 64 hd]

/-- Settles O47: `CODE` holds the tree's codes, which are its paths, and the tree is full. -/
theorem codesBelongToThePresentSymbols : Obligations.CodesBelongToThePresentSymbols := by
  intro s d hidle hload hd
  obtain ⟨t, tree, hrun, -, -, ht⟩ := encode_codesReady hidle hload hd
  have hleaves := leaves_of_build ht.build
  have hle := frequencies_length_le d
  refine ⟨t, tree, hrun, ht.PHASE, ht.represents, fun b => ?present, fun h2 b k hk => ?depth, ?kraft⟩
  case present => rw [ht.FREQ, ← codeOf_isSome_of_build ht.build, ← ht.bits, Option.isSome_map]
  case depth =>
    rw [ht.NSYM] at h2
    refine ⟨k.bits, ?_, Code.bits_length k⟩
    rw [← HTree.codes_eq_paths (by omega)]
    exact mem_of_lookup (ht.codeOf hk)
  case kraft =>
    have hlen : ∀ b, ((t.work.CODE.get b).map fun k => 2 ^ (64 - k.LEN.toNat)).getD 0 =
        ((tree.codes.lookup b).map fun p => 2 ^ (64 - p.length)).getD 0 := by
      intro b
      rw [← HTree.codeOf, ← ht.bits, Option.map_map]
      simp only [Function.comp_def, Code.bits_length]
    have hone : t.work.NSYM = 1 ↔ tree.leaves = 1 := by
      rw [hleaves, ← ht.NSYM, ← BitVec.toNat_inj]
      rfl
    have hdepth := (depth_le_of_build (length_lt_of_loaded hload) ht.build).trans (show 45 ≤ 64 by decide)
    simp only [hlen, hone]
    rw [sum_lookup _ (by rw [HTree.codes_fst]; exact build_nodup ht.build (frequencies_nodup d)) (fun p => 2 ^ (64 - p.length)),
      HTree.sum_codes hdepth]

end Sys2Proof.Machine
end

section
/-! The end of ENCODE (R121, R124). -/

namespace Sys2Proof.Machine

/-- What stands in the registers and in `OUT` when ENCODE of `d` has run BPACK. -/
structure State.packed (t : State) (d : List Byte) (tree : HTree) : Prop where
  PHASE   : t.PHASE = .ftser
  FREQ    : t.work.FREQ = countBytes d
  NSYM    : t.work.NSYM.toNat = (frequencies d).length
  PADC    : t.work.PADC = BitVec.ofNat 3 (padOf (codeBits tree d).length)
  OPTR    : t.work.OPTR.toNat = (containerOf tree d).length
  payload : ∀ a, 1 + hdrBytes (frequencies d).length ≤ a → a < (containerOf tree d).length →
    t.OUT.read a = (packBits (codeBits tree d))[a - (1 + hdrBytes (frequencies d).length)]?

/-- R110: BPACK in an ENCODE packs the code bits of the input. -/
theorem exec_bpack_codesReady {s : State} {d : List Byte} {tree : HTree} (h : s.codesReady d tree) :
    ∃ t, exec .bpack s = .next t ∧ t.packed d tree := by
  have hlt := length_lt_of_runsOn h.runsOn
  have hcodes : ∀ b ∈ d, ∃ c, s.work.CODE.get b = some c ∧ c.LEN.toNat ≤ 57 ∧ c.PAT.toNat < 2 ^ c.LEN.toNat := by
    intro b hb
    have hcode := codeOf_ne_none h.build b hb
    rw [← h.bits b, Ne, Option.map_eq_none_iff] at hcode
    obtain ⟨k, hk⟩ := Option.ne_none_iff_exists'.1 hcode
    obtain ⟨-, h45, -⟩ := code_length_bounds hlt h.build (mem_of_lookup (h.codeOf hk))
    rw [Code.bits_length] at h45
    exact ⟨k, hk, by omega, h.PAT b k hk⟩
  have hbits : codeBits tree d = d.flatMap fun b => ((s.work.CODE.get b).map Code.bits).getD [] := by
    simp only [h.bits]
    rfl
  obtain ⟨t, hexec, hframe, -, hoptr, hout⟩ := bpackPacksTheCodesBitSerially s d (codeBits tree d) h.runsOn hcodes hbits
  have hlen : t.work.OPTR.toNat = (containerOf tree d).length := by rw [hoptr, h.HLEN, containerOf_length]
  refine ⟨t, hexec, ⟨?_, ?_, ?_, ?_, hlen, fun a h1 h2 => ?_⟩⟩
  · rw [hframe]
  · rw [hframe]
    exact h.FREQ
  · rw [hframe]
    exact h.NSYM
  · rw [hframe]
  · rw [hout, hlen, h.HLEN, if_pos ⟨h1, h2⟩]

/-- A container by its addresses: padding count, header, payload (R63, R124). -/
theorem getElem?_containerOf (tree : HTree) (d : List Byte) (a : Nat) :
    (containerOf tree d)[a]? =
      if a = 0 then some (BitVec.ofNat 8 (padOf (codeBits tree d).length))
      else if a < 1 + hdrBytes (frequencies d).length then (headerBytes (frequencies d))[a - 1]?
      else (packBits (codeBits tree d))[a - (1 + hdrBytes (frequencies d).length)]? := by
  cases a with
  | zero => rfl
  | succ a =>
    rw [if_neg (Nat.succ_ne_zero a), containerOf, List.getElem?_cons_succ, List.getElem?_append, headerBytes_length,
      Nat.add_sub_cancel]
    by_cases h : a < hdrBytes (frequencies d).length
    · rw [if_pos h, if_pos (by omega)]
    · rw [if_neg h, if_neg (by omega)]
      congr 1
      omega

/-- R101, R121: FTSER in an ENCODE completes with the container, where it fits `OUT`. -/
theorem exec_ftser_packed {s : State} {d : List Byte} {tree : HTree} (hd : d.length < 2 ^ 32) (h : s.packed d tree)
    (hcap : (containerOf tree d).length ≤ s.cfg.outCap) :
    ∃ t, exec .ftser s = .next t ∧ t.succeededWith (containerOf tree d) := by
  have hpresent := present_countBytes hd
  have hplen : (countBytes d).present.length = (frequencies d).length := by rw [← hpresent, List.length_map]
  have hle := containerOf_length tree d
  obtain ⟨t, hexec, hframe, hout⟩ := ftserWritesTheHeaderAndCompletes s (countBytes d).present (present_pairwise _)
    (fun b c => by rw [h.FREQ]; exact mem_present _ b c) (h.NSYM.trans hplen.symm) (by rw [h.OPTR, hplen]; omega)
    (by rw [h.OPTR]; exact hcap)
  have hpad : s.work.PADC.setWidth 8 = BitVec.ofNat 8 (padOf (codeBits tree d).length) := by
    have : padOf (codeBits tree d).length < 8 := by unfold padOf; omega
    apply BitVec.eq_of_toNat_eq
    rw [h.PADC]
    simp
    omega
  have hread : ∀ a, t.OUT.read a = if a < (containerOf tree d).length then (containerOf tree d)[a]? else none := by
    intro a
    rw [hout, hplen, hpresent, getElem?_containerOf, h.OPTR, hpad]
    by_cases h0 : a = 0
    · rw [if_pos h0, if_pos (by omega), if_pos h0]
    · by_cases h1 : a < 1 + hdrBytes (frequencies d).length
      · rw [if_neg h0, if_pos h1, if_pos (by omega), if_neg h0, if_pos h1]
      · rw [if_neg h0, if_neg h1]
        split
        next h2 => exact h.payload a (by omega) h2
        next => rfl
  have hstatus : t.STATUS = 2 := by rw [hframe]
  refine ⟨t, hexec, ?idle, ?_, ?_, ?_, fun a ha => by rw [hread, if_pos ha], fun a ha => by rw [hread, if_neg (by omega)]⟩
  case idle => exact ⟨by rw [BUSY_def, hstatus]; decide, by rw [hframe]⟩
  · exact hstatus.trans statusDone_eq.symm
  · rw [hframe]
  · rw [hframe]
    exact h.OPTR

/-- R121, R122: the first six steps of an ENCODE. -/
theorem encode_packed {s : State} {d : List Byte} (hidle : s.idle) (hload : s.loaded d) (hd : d ≠ []) :
    ∃ t tree, runCommand 6 0x01 s = .next t ∧ t.script = [] ∧ t.cfg = s.cfg ∧ HTree.build (frequencies d) = some tree ∧
      t.packed d tree := by
  obtain ⟨u, tree, hrun, hs, hcfg, hu⟩ := encode_codesReady hidle hload hd
  obtain ⟨t, hexec, ht⟩ := exec_bpack_codesReady hu
  obtain ⟨hcfg', -, -, hs', -⟩ := noOperationWritesTheInput _ _ _ hexec
  refine ⟨t, tree, ?_, hs'.trans hs, hcfg'.trans hcfg, hu.build, ht⟩
  rw [runCommand_succ hrun hs (by rw [hu.PHASE]; rfl), hexec]

/-- The seventh step of an ENCODE is FTSER, on the payload packed. -/
theorem encode_last_step {s : State} {d : List Byte} (hidle : s.idle) (hload : s.loaded d) (hd : d ≠ []) :
    ∃ t tree, runCommand 7 0x01 s = exec .ftser t ∧ t.cfg = s.cfg ∧ HTree.build (frequencies d) = some tree ∧ t.packed d tree := by
  obtain ⟨t, tree, hrun, hs, hcfg, hbuild, ht⟩ := encode_packed hidle hload hd
  exact ⟨t, tree, runCommand_succ hrun hs (by rw [ht.PHASE]; rfl), hcfg, hbuild, ht⟩

theorem encodeResult_of_build {d : List Byte} {tree : HTree} (h : HTree.build (frequencies d) = some tree) :
    encodeResult d = .ok (containerOf tree d) := by
  rw [encodeResult, h]

theorem frequencies_nil : frequencies [] = [] := by
  simp [frequencies]

theorem encodeResult_nil : encodeResult [] = .error .emptyInput := by
  rw [encodeResult, frequencies_nil]
  rfl

/-- What ENCODE computes is a container exactly when the input has a byte. -/
theorem encodeResult_eq_ok {d k : List Byte} (h : encodeResult d = .ok k) :
    d ≠ [] ∧ ∃ tree, HTree.build (frequencies d) = some tree ∧ k = containerOf tree d := by
  unfold encodeResult at h
  split at h
  · cases h
  next tree hb =>
    cases h
    exact ⟨ne_nil_of_build hb, tree, hb, rfl⟩

/-- Settles O48: the empty input ends in `EmptyInput` at acceptance and waits; any other has FTSER for its last step. -/
theorem encodeComputesTheContainer : Obligations.EncodeComputesTheContainer := by
  intro s d hidle hload hcap
  by_cases hd : d = []
  · subst hd
    have hlen : s.IN_LEN = 0 := BitVec.eq_of_toNat_eq hload.2.1
    have hexec : exec .encode (s.setScript []) = .next (raiseError .emptyInput (accept .encode (s.setScript []))) :=
      exec_encode_of_IN_LEN_eq_zero hidle.1 hlen
    have hrun := runCommand_of_idle (j := 6) (runCommand_one (v := 0x01) rfl hexec) rfl rfl
    obtain ⟨hin, hinlen, hcfg, hreplies, hscript⟩ := runCommand_sameOutside rfl hexec hrun
    refine ⟨_, hrun, ?_, hin, hinlen, hcfg, hreplies, hscript, fun tree ht => absurd rfl (ne_nil_of_build ht)⟩
    rw [encodeResult_nil]
    exact failedWith_raiseError _ _
  · obtain ⟨u, tree, hlast, hcfgu, hbuild, hu⟩ := encode_last_step hidle hload hd
    have hres := encodeResult_of_build hbuild
    obtain ⟨t, hexec, ht⟩ := exec_ftser_packed (length_lt_of_loaded hload) hu (by rw [hcfgu]; exact hcap _ hres)
    have hrun := hlast.trans hexec
    obtain ⟨_, hacc, -⟩ := exec_encode_loaded hidle hload hd
    obtain ⟨hin, hinlen, hcfg, hreplies, hscript⟩ := runCommand_sameOutside rfl hacc hrun
    refine ⟨t, hrun, by rw [hres]; exact ht, hin, hinlen, hcfg, hreplies, hscript, fun tree' ht' => ?_⟩
    obtain rfl : tree = tree' := Option.some.inj (hbuild.symm.trans ht')
    obtain ⟨-, -, -, hlen, -⟩ := ht
    rw [hlen, containerOf_length, hdrBytes]
    omega

/-- R43: an ENCODE that ends has a container that fits `OUT`. -/
theorem length_le_of_encode_next {s t : State} {d k : List Byte} (hidle : s.idle) (hload : s.loaded d)
    (hrun : runCommand 7 0x01 s = .next t) (hk : encodeResult d = .ok k) : k.length ≤ s.cfg.outCap := by
  obtain ⟨hd, tree, hbuild, rfl⟩ := encodeResult_eq_ok hk
  obtain ⟨u, tree', hlast, hcfg, hbuild', hu⟩ := encode_last_step hidle hload hd
  obtain rfl : tree = tree' := Option.some.inj (hbuild.symm.trans hbuild')
  by_contra hlong
  obtain ⟨-, hrefuse, -⟩ := capacitiesBoundTheCommands
  rw [hlast, hrefuse u (by rw [hu.OPTR, hcfg]; omega)] at hrun
  cases hrun

end Sys2Proof.Machine
end

section
/-! DECODE as a whole (R126, R144): the containers that fail before the walk, one error after another, and those that come
to TWALK. -/

namespace Sys2Proof.Machine

/-- The number of entries that a container's header names (R66). -/
def entryCount (k : List Byte) : Nat := beNat ((k.drop 1).take 2)

/-- A container that passes every check before the walk (R126, R144). -/
structure walkable (k : List Byte) : Prop where
  length  : 3 ≤ k.length
  header  : hdrBytes (entryCount k) ≤ k.length - 1
  entries : entryCount k ≠ 0
  nodup   : ((headerEntries k (entryCount k)).map Prod.fst).Nodup
  payload : k.length ≠ 1 + hdrBytes (entryCount k)
  padding : (k.getD 0 0).toNat ≤ 7

theorem walkable.entryCount_le {k : List Byte} (h : walkable k) : entryCount k ≤ 256 := by
  simpa using length_le_of_nodup h.nodup

/-- The code bits of a container (R113). -/
def containerBits (k : List Byte) : List Bool :=
  payloadBits (k.drop (1 + hdrBytes (entryCount k))) (k.getD 0 0).toNat

/-- The leaf list of a container (R82, R105). -/
def containerLeaves (k : List Byte) : List (Byte × Nat) := leafList (headerEntries k (entryCount k))

theorem walkable.leaves_ne_nil {k : List Byte} (h : walkable k) : containerLeaves k ≠ [] := by
  rw [← List.length_pos_iff, containerLeaves, (leafList_perm _ h.nodup).length_eq, headerEntries_length]
  exact Nat.pos_of_ne_zero h.entries

/-- What DECODE computes of a container that comes to the walk. -/
theorem decodeResult_of_walkable {k : List Byte} (h : walkable k) {tree : HTree}
    (hb : HTree.build (containerLeaves k) = some tree) : decodeResult k = walkResult tree (containerBits k) := by
  obtain ⟨hlen, hheader, hentries, hnodup, hpayload, hpadding⟩ := h
  rw [containerLeaves] at hb
  rw [containerBits]
  unfold entryCount at *
  have hdrop : k.drop (1 + hdrBytes (beNat ((k.drop 1).take 2))) ≠ [] := by
    rw [Ne, List.drop_eq_nil_iff]
    omega
  simp only [decodeResult, hb]
  rw [if_neg (by omega), if_neg (by omega), if_neg (not_or.2 ⟨hentries, not_not_intro hnodup⟩), if_neg hdrop, if_neg (by omega)]

/-- FTDES raises what DECODE computes of a container that does not come to the walk (R126, R144). -/
theorem exec_ftdes_not_walkable {s : State} {k : List Byte} (hk : s.runsOn k) (h3 : 3 ≤ k.length)
    (hpad : s.work.PADB.toNat = (k.getD 0 0).toNat) (hw : ¬ walkable k) :
    ∃ e, decodeResult k = .error e ∧ exec .ftdes s = .next (raiseError e s) := by
  obtain ⟨-, hlong⟩ := ftdesRaisesTheFirstError s k hk
  obtain ⟨htruncated, hfits⟩ := hlong h3
  have hshort : ¬ k.length < 3 := by omega
  by_cases h1 : k.length - 1 < hdrBytes (beNat ((k.drop 1).take 2))
  · exact ⟨_, by simp only [decodeResult]; rw [if_neg hshort, if_pos h1], htruncated h1⟩
  obtain ⟨hinvalid, hvalid⟩ := hfits (Nat.not_lt.1 h1)
  by_cases h2 : beNat ((k.drop 1).take 2) = 0 ∨ ¬ ((headerEntries k (beNat ((k.drop 1).take 2))).map Prod.fst).Nodup
  · exact ⟨_, by simp only [decodeResult]; rw [if_neg hshort, if_neg h1, if_pos h2], hinvalid h2⟩
  obtain ⟨hn, hnodup⟩ := not_or.1 h2
  obtain ⟨hempty, hpadding⟩ := hvalid hn (not_not.1 hnodup)
  by_cases h4 : k.length = 1 + hdrBytes (beNat ((k.drop 1).take 2))
  · have hdrop : k.drop (1 + hdrBytes (beNat ((k.drop 1).take 2))) = [] := List.drop_eq_nil_iff.2 h4.le
    exact ⟨_, by simp only [decodeResult]; rw [if_neg hshort, if_neg h1, if_neg h2, if_pos hdrop], hempty h4⟩
  have hdrop : k.drop (1 + hdrBytes (beNat ((k.drop 1).take 2))) ≠ [] := by
    rw [Ne, List.drop_eq_nil_iff]
    omega
  by_cases h5 : 7 < (k.getD 0 0).toNat
  · exact ⟨_, by simp only [decodeResult]; rw [if_neg hshort, if_neg h1, if_neg h2, if_neg hdrop, if_pos h5],
      hpadding h4 (by rw [hpad]; exact h5)⟩
  · exact absurd ⟨h3, Nat.not_lt.1 h1, hn, not_not.1 hnodup, h4, Nat.not_lt.1 h5⟩ hw

/-- R126: a machine with a container of at least 3 bytes accepts DECODE and has its padding byte. -/
theorem exec_decode_loaded {s : State} {k : List Byte} (hidle : s.idle) (hload : s.loaded k) (h3 : 3 ≤ k.length) :
    ∃ u, exec .decode (s.setScript []) = .next u ∧ u.script = [] ∧ u.PHASE = .ftdes ∧ u.MODE = .decode ∧ u.runsOn k ∧
      u.work.PADB = k.getD 0 0 := by
  obtain ⟨hholds, hlen, hcap⟩ := hload
  have hbyte : s.IN.read 0 = some (k.getD 0 0) := by
    rw [hholds 0 (by omega), List.getD_eq_getElem?_getD, List.getElem?_eq_getElem (by omega), Option.getD_some]
  exact ⟨_, decodeIsAccepted (s.setScript []) _ hidle.1 (by rw [setScript_IN_LEN]; omega) (by rw [setScript_IN_LEN, hlen]; exact hcap)
    hbyte, rfl, rfl, rfl, ⟨hholds, hlen⟩, rfl⟩

/-- A container that does not come to the walk fails at acceptance or in FTDES, and the machine waits for the rest. -/
theorem decode_not_walkable {s : State} {k : List Byte} (hidle : s.idle) (hload : s.loaded k) (hk : ¬ walkable k) :
    ∃ e t u, decodeResult k = .error e ∧ exec .decode (s.setScript []) = .next u ∧ runCommand 6 0x02 s = .next t ∧
      t.failedWith e := by
  by_cases h3 : 3 ≤ k.length
  · obtain ⟨u, hexec, hs, hp, -, hruns, hpad⟩ := exec_decode_loaded hidle hload h3
    obtain ⟨e, hres, hftdes⟩ := exec_ftdes_not_walkable hruns h3 (by rw [hpad]) hk
    have hrun : runCommand 2 0x02 s = .next (raiseError e u) := by
      rw [runCommand_succ (runCommand_one rfl hexec) hs (by rw [hp]; rfl), hftdes]
    exact ⟨e, _, u, hres, hexec, runCommand_of_idle (j := 4) hrun hs rfl, failedWith_raiseError e u⟩
  · obtain ⟨-, hlen, hcap⟩ := hload
    obtain ⟨u, hexec, hfail, -, -, -, hs, -⟩ := decodeOfFewerThanThreeBytesIsTooShort (s.setScript []) hidle.1
      (by rw [setScript_IN_LEN]; omega) (by rw [setScript_IN_LEN, hlen]; exact hcap)
    refine ⟨_, u, u, ?_, hexec, runCommand_of_idle (j := 5) (runCommand_one rfl hexec) hs hfail.1.2, hfail⟩
    simp only [decodeResult]
    rw [if_pos (by omega)]

/-- The state in which DECODE of a container that comes to the walk begins TWALK. -/
structure State.walkReady (t : State) (k : List Byte) (tree : HTree) : Prop where
  PHASE      : t.PHASE = .twalk
  build      : HTree.build (containerLeaves k) = some tree
  TREE       : t.work.TREE = true
  represents : represents t.work.NODE t.work.ROOT tree
  TBITS      : t.work.TBITS.toNat = (containerBits k).length
  bits       : ∀ j b, (containerBits k)[j]? = some b → payloadBit t j = .ok b

/-- R104 to R106, R126: FTDES accepts a container that comes to the walk. -/
theorem exec_ftdes_walkable {s : State} {k : List Byte} (hk : s.runsOn k) (hpad : s.work.PADB = k.getD 0 0) (hw : walkable k) :
    exec .ftdes s = .next ((s.setWork { headerRead s.work (headerEntries k (entryCount k)) with
      PLEN := BitVec.ofNat 32 (k.length - (1 + hdrBytes (entryCount k))) }).setPHASE .mkleaf) := by
  have hr := readHeader_of_runsOn hk (n := entryCount k) rfl
  have hlen := hw.length
  have hheader := hw.header
  have hpayload := hw.payload
  rw [if_neg (by omega), if_neg (not_or.2 ⟨hw.entries, not_not_intro hw.nodup⟩)] at hr
  refine execFtdes_of_readHeader (by rw [headerEntries_length]; exact hw.entryCount_le) ?_ ?_ (by omega)
    (by rw [hpad]; exact hw.padding)
  · rw [hr, headerRead, headerEntries_length]
  · rw [headerEntries_length, hk.2]
    omega

/-- The list MKLEAF makes of the table FTDES leaves is the container's leaf list (R82, R105). -/
theorem present_tableOf {es : List (Byte × Nat)} (hn : (es.map Prod.fst).Nodup) (hc : ∀ e ∈ es, e.2 < 2 ^ 32) :
    ((tableOf FreqTable.clear es).present.map fun e => (e.1, e.2.toNat)) = leafList es :=
  (leafList_eq hc (fun b => by rw [get_tableOf _ _ hn, FreqTable.get_clear, Option.or_none]) (present_pairwise _)
    (mem_present _)).symm

theorem containerBits_length (k : List Byte) :
    (containerBits k).length = 8 * (k.length - (1 + hdrBytes (entryCount k))) - (k.getD 0 0).toNat := by
  rw [containerBits, payloadBits, List.length_take, flatMap_byteBits_length, List.length_drop]
  omega

/-- R104 to R113: FTDES, MKLEAF, TBUILD and BUNPK in a DECODE. -/
theorem run_ftdes_to_bunpk {s : State} {k : List Byte} (hs : s.script = []) (hp : s.PHASE = .ftdes) (hm : s.MODE = .decode)
    (hk : s.runsOn k) (hpad : s.work.PADB = k.getD 0 0) (hw : walkable k) :
    ∃ t tree, Host.Core.run Sys2Proof.core 4 s = .next t ∧ t.walkReady k tree := by
  have hleaves := present_tableOf hw.nodup (headerEntries_lt k (entryCount k))
  have hlt := length_lt_of_runsOn hk
  have hpos : 1 ≤ k.length - (1 + hdrBytes (entryCount k)) := by
    have := hw.length
    have := hw.header
    have := hw.payload
    omega
  obtain ⟨u, hu⟩ : ∃ u, u = (s.setWork { headerRead s.work (headerEntries k (entryCount k)) with
      PLEN := BitVec.ofNat 32 (k.length - (1 + hdrBytes (entryCount k))) }).setPHASE .mkleaf := ⟨_, rfl⟩
  have hftdes : exec .ftdes s = .next u := hu ▸ exec_ftdes_walkable hk hpad hw
  have hfreq : u.work.FREQ = tableOf FreqTable.clear (headerEntries k (entryCount k)) := by rw [hu]; rfl
  have hmode : u.MODE = .decode := by rw [hu]; exact hm
  obtain ⟨tree, nodes, root, hbuild, hrep, hrun⟩ := run_mkleaf_tbuild (s := u) (by rw [hu]; exact hs) (by rw [hu]; rfl) (by
    intro hnil
    rw [← hfreq, hnil] at hleaves
    exact hw.leaves_ne_nil hleaves.symm)
  rw [hfreq, hleaves] at hbuild
  have hplen : (treeBuilt u nodes root).work.PLEN.toNat = k.length - (1 + hdrBytes (entryCount k)) := by
    rw [treeBuilt, hu]
    exact Nat.mod_eq_of_lt (by omega)
  have hpadb : (treeBuilt u nodes root).work.PADB = k.getD 0 0 := by
    rw [treeBuilt, hu]
    exact hpad
  have hhlen : (treeBuilt u nodes root).work.HLEN.toNat = hdrBytes (entryCount k) := by
    show (if u.MODE = .encode then _ else u.work.HLEN).toNat = _
    rw [if_neg (by rw [hmode]; decide), hu]
    show (BitVec.ofNat 19 (hdrBytes (headerEntries k (entryCount k)).length)).toNat = _
    rw [headerEntries_length, toNat_hdrBytes hw.entryCount_le]
  obtain ⟨hbunpk, htbits, hbits⟩ := bunpkTrimsThePadding (treeBuilt u nodes root)
  have hsum := htbits (by rw [hplen]; exact hpos) (by rw [hpadb]; exact hw.padding) _ hbunpk
  have hlast := (run_last (s := treeBuilt u nodes root) (by rw [treeBuilt, hu]; exact hs) (by rw [treeBuilt, hmode]; rfl)).trans hbunpk
  have hall := (run_phase (k := 3) (i := .ftdes) hs (by rw [hp]; rfl) hftdes).trans ((run_add (k := 2) (j := 1) hrun).trans hlast)
  refine ⟨_, tree, hall, ⟨rfl, hbuild, rfl, hrep, ?tbits, fun j b hj => ?bits⟩⟩
  case tbits =>
    rw [containerBits_length, ← hplen, ← hpadb]
    exact Nat.eq_sub_of_add_eq hsum
  case bits =>
    refine hbits (k.drop (1 + hdrBytes (entryCount k))) _ hw.padding (fun i hi => ?_) j b hj
    rw [List.length_drop] at hi
    have hin : (treeBuilt u nodes root).IN = s.IN := by rw [treeBuilt, hu]; rfl
    rw [hin, hhlen, List.getElem?_drop]
    exact hk.1 _ (by omega)

/-- R126: the sixth step of a DECODE that comes to the walk is TWALK. -/
theorem decode_last_step {s : State} {k : List Byte} (hidle : s.idle) (hload : s.loaded k) (hw : walkable k) :
    ∃ t tree, runCommand 6 0x02 s = exec .twalk t ∧ t.cfg = s.cfg ∧ t.walkReady k tree := by
  obtain ⟨u, hexec, hs, hp, hm, hruns, hpad⟩ := exec_decode_loaded hidle hload hw.length
  obtain ⟨t, tree, hrun, ht⟩ := run_ftdes_to_bunpk hs hp hm hruns hpad hw
  have hcmd : runCommand 5 0x02 s = .next t := (runCommand_step rfl hexec).trans hrun
  obtain ⟨-, -, hcfg, -, hscript⟩ := runCommand_sameOutside rfl hexec hcmd
  exact ⟨t, tree, runCommand_succ hcmd hscript (by rw [ht.PHASE]; rfl), hcfg, ht⟩

/-- R115 to R117: what TWALK makes of the container's bits. -/
theorem exec_twalk_walkReady {s : State} {k : List Byte} {tree : HTree} (hw : walkable k) (h : s.walkReady k tree)
    (hcap : ∀ d, decodeResult k = .ok d → d.length ≤ s.cfg.outCap) :
    ∃ t, exec .twalk s = .next t ∧ t.endedWith (decodeResult k) := by
  obtain ⟨hok, hbad⟩ := twalkEmitsTheSymbolsOrRaisesCorruptTree s tree (containerBits k) h.TREE h.represents h.TBITS h.bits
  have hres := decodeResult_of_walkable hw h.build
  rw [hres] at hcap ⊢
  cases hr : walkResult tree (containerBits k) with
  | ok d =>
    obtain ⟨t, hexec, -, ht⟩ := hok d hr (hcap d hr)
    exact ⟨t, hexec, ht⟩
  | error e =>
    obtain ⟨rfl, hexec⟩ := hbad e hr
    exact ⟨_, hexec, failedWith_raiseError _ s⟩

/-- Settles O49: a container fails before the walk, or TWALK is the last step. -/
theorem decodeComputesTheData : Obligations.DecodeComputesTheData := by
  intro s k hidle hload hcap
  by_cases hw : walkable k
  · obtain ⟨u, tree, hlast, hcfgu, hu⟩ := decode_last_step hidle hload hw
    obtain ⟨t, hexec, ht⟩ := exec_twalk_walkReady hw hu (by rw [hcfgu]; exact hcap)
    have hrun := hlast.trans hexec
    obtain ⟨_, hacc, -⟩ := exec_decode_loaded hidle hload hw.length
    exact ⟨t, hrun, ht, runCommand_sameOutside rfl hacc hrun⟩
  · obtain ⟨e, t, u, hres, hacc, hrun, ht⟩ := decode_not_walkable hidle hload hw
    exact ⟨t, hrun, by rw [hres]; exact ht, runCommand_sameOutside rfl hacc hrun⟩

/-- What DECODE computes is data only of a container that comes to the walk. -/
theorem walkable_of_decodeResult {s : State} {k d : List Byte} (hidle : s.idle) (hload : s.loaded k)
    (h : decodeResult k = .ok d) : walkable k := by
  by_contra hw
  obtain ⟨e, -, -, hres, -⟩ := decode_not_walkable hidle hload hw
  rw [hres] at h
  cases h

/-- R43: a DECODE that ends with data has room for it in `OUT`. -/
theorem length_le_of_decode_next {s t : State} {k d : List Byte} (hidle : s.idle) (hload : s.loaded k)
    (hrun : runCommand 6 0x02 s = .next t) (hd : decodeResult k = .ok d) : d.length ≤ s.cfg.outCap := by
  have hw := walkable_of_decodeResult hidle hload hd
  obtain ⟨u, tree, hlast, hcfg, hu⟩ := decode_last_step hidle hload hw
  rw [decodeResult_of_walkable hw hu.build] at hd
  obtain ⟨hok, -⟩ := walkPayload_spec hu.TREE hu.represents hu.TBITS hu.bits
  obtain ⟨w, hwalk, hemit, -⟩ := hok d hd
  by_contra hlong
  obtain ⟨-, -, hrefuse, -⟩ := capacitiesBoundTheCommands
  rw [hlast, hrefuse u w hwalk (by rw [hemit, hcfg]; omega)] at hrun
  cases hrun

end Sys2Proof.Machine
end

section
/-! PROOFS. The round trip of a container and what DECODE makes of other byte sequences (R125, R127 to R130). -/

namespace Sys2Proof.Machine

/-- R127: the whole code bits of an input are read as the input. -/
theorem walkResult_codeBits {d : List Byte} {tree : HTree} (hb : HTree.build (frequencies d) = some tree) :
    walkResult tree (codeBits tree d) = .ok d :=
  walkResult_eq_ok.2 ⟨HTree.read_codeBits (codeOf_ne_none hb), (count_of_build hb).symm⟩

/-- R129: code bits cut short are read as nothing. -/
theorem walkResult_take_codeBits {d : List Byte} {tree : HTree} (hb : HTree.build (frequencies d) = some tree) {n : Nat}
    (hn : n < (codeBits tree d).length) : walkResult tree ((codeBits tree d).take n) = .error .corruptTree := by
  cases hr : walkResult tree ((codeBits tree d).take n) with
  | error e => rw [walkResult_error hr]
  | ok e =>
    obtain ⟨hread, hcount⟩ := walkResult_eq_ok.1 hr
    have hwhole := HTree.read_codeBits (codeOf_ne_none hb)
    rw [← List.take_append_drop n (codeBits tree d)] at hwhole
    have hshort := HTree.read_cut hwhole (by rw [← List.length_pos_iff, List.length_drop]; omega) hread
    rw [hcount, count_of_build hb] at hshort
    exact absurd hshort (lt_irrefl _)

/-- R127: what DECODE computes of the container of an input is the input. -/
theorem decodeResult_containerOf {d : List Byte} {tree : HTree} (hd : d.length < 2 ^ 32)
    (hb : HTree.build (frequencies d) = some tree) : decodeResult (containerOf tree d) = .ok d := by
  have hpos := codeBits_length_pos hb
  have hcut := decodeResult_cut hb hd (m := ceil8 (codeBits tree d).length) (by unfold ceil8; omega) le_rfl
  rw [List.take_of_length_le (by rw [containerOf_length]),
    List.take_of_length_le (by unfold ceil8 padOf; omega)] at hcut
  rw [hcut, walkResult_codeBits hb]

/-- ENCODE with a known result. -/
theorem encode_succeeds {s : State} {d k : List Byte} (hidle : s.idle) (hload : s.loaded d) (hk : encodeResult d = .ok k)
    (hcap : k.length ≤ s.cfg.outCap) : ∃ t, runCommand 7 0x01 s = .next t ∧ t.succeededWith k := by
  obtain ⟨t, hrun, hend, -⟩ := encodeComputesTheContainer s d hidle hload (by
    rintro k' hk'
    cases hk.symm.trans hk'
    exact hcap)
  rw [hk] at hend
  exact ⟨t, hrun, hend⟩

/-- DECODE with known data. -/
theorem decode_succeeds {s : State} {k d : List Byte} (hidle : s.idle) (hload : s.loaded k) (hd : decodeResult k = .ok d)
    (hcap : d.length ≤ s.cfg.outCap) : ∃ t, runCommand 6 0x02 s = .next t ∧ t.succeededWith d := by
  obtain ⟨t, hrun, hend, -⟩ := decodeComputesTheData s k hidle hload (by
    rintro d' hd'
    cases hd.symm.trans hd'
    exact hcap)
  rw [hd] at hend
  exact ⟨t, hrun, hend⟩

/-- DECODE with a known error. -/
theorem decode_fails {s : State} {k : List Byte} {e : ErrKind} (hidle : s.idle) (hload : s.loaded k)
    (he : decodeResult k = .error e) : ∃ t, runCommand 6 0x02 s = .next t ∧ t.failedWith e := by
  obtain ⟨t, hrun, hend, -⟩ := decodeComputesTheData s k hidle hload (by
    rintro d' hd'
    cases he.symm.trans hd')
  rw [he] at hend
  exact ⟨t, hrun, hend⟩

/-- Settles O50: DECODE computes a function of the loaded container, and of this container that function gives the input. -/
theorem decodeOfEncodeIsTheInput : Obligations.DecodeOfEncodeIsTheInput := by
  intro s d k hidle hload hd hk hcap
  obtain ⟨-, tree, hbuild, rfl⟩ := encodeResult_eq_ok hk
  obtain ⟨t, hrun, hend⟩ := encode_succeeds hidle hload hk hcap
  refine ⟨t, hrun, hend, fun s' hidle' hlen hin hread hcap' => ?_⟩
  obtain ⟨-, -, -, houtlen, hout, -⟩ := hend
  have hload' : s'.loaded (containerOf tree d) :=
    ⟨fun i hi => by rw [hread i (by omega), hout i hi], hlen.trans houtlen, by omega⟩
  exact decode_succeeds hidle' hload' (decodeResult_containerOf (length_lt_of_loaded hload) hbuild) hcap'

/-- Settles O51: both functions evaluated on the three bytes and on their container. -/
theorem threeEqualBytesRoundTrip : Obligations.ThreeEqualBytesRoundTrip := by
  have henc : encodeResult [0x41, 0x41, 0x41] = .ok [0x05, 0x00, 0x01, 0x41, 0x00, 0x00, 0x00, 0x03, 0x00] := by decide +kernel
  have hdec : decodeResult [0x05, 0x00, 0x01, 0x41, 0x00, 0x00, 0x00, 0x03, 0x00] = .ok [0x41, 0x41, 0x41] := by decide +kernel
  exact ⟨fun s hidle hload hcap => encode_succeeds hidle hload henc hcap,
    fun s hidle hload hcap => decode_succeeds hidle hload hdec hcap⟩

/-- What the host sees of a completed command goes by its result (R2, R12, R123, R146). -/
theorem State.endedWith.agree {t u : State} {r : Except ErrKind (List Byte)} (ht : t.endedWith r) (hu : u.endedWith r) :
    u.STATUS = t.STATUS ∧ u.ERR = t.ERR ∧ u.OUT_LEN = t.OUT_LEN ∧ ∀ a, a < t.OUT_LEN.toNat → u.OUT.read a = t.OUT.read a := by
  cases r with
  | ok d =>
    obtain ⟨-, htstatus, hterr, htlen, htout, -⟩ := ht
    obtain ⟨-, hustatus, huerr, hulen, huout, -⟩ := hu
    exact ⟨hustatus.trans htstatus.symm, huerr.trans hterr.symm, BitVec.eq_of_toNat_eq (hulen.trans htlen.symm),
      fun a ha => (huout a (htlen ▸ ha)).trans (htout a (htlen ▸ ha)).symm⟩
  | error e =>
    obtain ⟨-, htstatus, hterr, htlen, htout⟩ := ht
    obtain ⟨-, hustatus, huerr, hulen, huout⟩ := hu
    exact ⟨hustatus.trans htstatus.symm, huerr.trans hterr.symm, hulen.trans htlen.symm, fun a _ => by rw [huout, htout]⟩

/-- Settles O52: both machines end with the command's function of the input. -/
theorem theResultDependsOnTheInputOnly : Obligations.TheResultDependsOnTheInputOnly := by
  intro s s' t d n v hcmd hidle hload hidle' hload' hcap hrun
  obtain ⟨rfl, rfl⟩ | ⟨rfl, rfl⟩ := hcmd
  case inl =>
    have hfits : ∀ k, encodeResult d = .ok k → k.length ≤ s.cfg.outCap := fun k => length_le_of_encode_next hidle hload hrun
    obtain ⟨u, hu, hend, -⟩ := encodeComputesTheContainer s d hidle hload hfits
    obtain ⟨u', hu', hend', -⟩ := encodeComputesTheContainer s' d hidle' hload' (hcap ▸ hfits)
    cases hrun.symm.trans hu
    exact ⟨u', hu', hend.agree hend'⟩
  case inr =>
    have hfits : ∀ e, decodeResult d = .ok e → e.length ≤ s.cfg.outCap := fun e => length_le_of_decode_next hidle hload hrun
    obtain ⟨u, hu, hend, -⟩ := decodeComputesTheData s d hidle hload hfits
    obtain ⟨u', hu', hend', -⟩ := decodeComputesTheData s' d hidle' hload' (hcap ▸ hfits)
    cases hrun.symm.trans hu
    exact ⟨u', hu', hend.agree hend'⟩

/-- The entry count of a container's beginning that has the bytes of it (R100). -/
theorem entryCount_take {k : List Byte} {c : Nat} (hc : 3 ≤ c) : entryCount (k.take c) = entryCount k := by
  rw [entryCount, entryCount, List.drop_take, List.take_take, Nat.min_eq_left (by omega)]

theorem entryCount_containerOf {d : List Byte} {tree : HTree} (hd : d.length < 2 ^ 32) :
    entryCount (containerOf tree d) = (frequencies d).length := by
  have hle := length_le_of_nodup (frequencies_nodup d)
  exact (headerEntries_headerBytes rfl (by omega) (frequencies_lt hd)).1

/-- R129: what DECODE computes of a container cut behind its header. -/
theorem decodeResult_take_header {d : List Byte} {tree : HTree} (hd : d.length < 2 ^ 32) (hne : d ≠ []) :
    decodeResult ((containerOf tree d).take (1 + hdrBytes (frequencies d).length)) = .error .emptyPayload := by
  have hle := length_le_of_nodup (frequencies_nodup d)
  have htake : (containerOf tree d).take (1 + hdrBytes (frequencies d).length) =
      BitVec.ofNat 8 (padOf (codeBits tree d).length) :: (headerBytes (frequencies d) ++ []) := by
    rw [containerOf, Nat.add_comm, List.take_succ_cons, ← headerBytes_length, List.take_left, List.append_nil]
  obtain ⟨hn, hes⟩ := headerEntries_headerBytes htake (by omega) (frequencies_lt hd)
  have hlen : ((containerOf tree d).take (1 + hdrBytes (frequencies d).length)).length = 1 + hdrBytes (frequencies d).length := by
    rw [htake, List.append_nil, List.length_cons, headerBytes_length, Nat.add_comm]
  have hpos : (frequencies d).length ≠ 0 := fun h => hne (List.length_eq_zero_iff.1 (by
    rw [← sum_frequencies, List.length_eq_zero_iff.1 h]
    rfl))
  have hhdr : hdrBytes (frequencies d).length = 2 + 5 * (frequencies d).length := rfl
  simp only [decodeResult]
  rw [hn, hes, if_neg (by omega), if_neg (by omega), if_neg (by simp [hpos, frequencies_nodup]),
    if_pos (List.drop_eq_nil_of_le hlen.le)]

/-- R129: what DECODE computes of a container cut anywhere. -/
theorem decodeResult_take_containerOf {d : List Byte} {tree : HTree} (hd : d.length < 2 ^ 32)
    (hb : HTree.build (frequencies d) = some tree) {c : Nat} (hc : c < (containerOf tree d).length) :
    decodeResult ((containerOf tree d).take c) = .error
      (if c < 3 then .tooShort
       else if c < 1 + hdrBytes (frequencies d).length then .truncatedHeader
       else if c = 1 + hdrBytes (frequencies d).length then .emptyPayload
       else .corruptTree) := by
  have hlen : ((containerOf tree d).take c).length = c := by rw [List.length_take]; omega
  split_ifs with h3 hheader hcut
  case pos =>
    simp only [decodeResult]
    rw [hlen, if_pos h3]
  case pos =>
    have hn : beNat ((((containerOf tree d).take c).drop 1).take 2) = (frequencies d).length :=
      (entryCount_take (Nat.not_lt.1 h3)).trans (entryCount_containerOf hd)
    simp only [decodeResult]
    rw [hlen, hn, if_neg h3, if_pos (by omega)]
  case pos =>
    rw [hcut, decodeResult_take_header hd (ne_nil_of_build hb)]
  case neg =>
    obtain ⟨m, rfl⟩ := Nat.exists_eq_add_of_le (Nat.not_lt.1 hheader)
    rw [containerOf_length] at hc
    rw [decodeResult_cut hb hd (by omega) (by omega), walkResult_take_codeBits hb]
    unfold ceil8 padOf at *
    omega

/-- Settles O53: DECODE computes what R129 says of a container's beginning. -/
theorem truncatedContainersAreRejected : Obligations.TruncatedContainersAreRejected := by
  intro s d k c hk hd hc hidle hload
  obtain ⟨-, tree, hbuild, rfl⟩ := encodeResult_eq_ok hk
  exact decode_fails hidle hload (decodeResult_take_containerOf hd hbuild hc)

theorem statusFailed_ne_statusDone : statusFailed ≠ statusDone := by decide

/-- A command that ended with `STATUS` done ended with data (R12). -/
theorem State.endedWith.ok_of_done {t : State} {r : Except ErrKind (List Byte)} (h : t.endedWith r) (hdone : t.STATUS = statusDone) :
    ∃ d, r = .ok d := by
  cases r with
  | ok d => exact ⟨d, rfl⟩
  | error e =>
    obtain ⟨-, hfailed, -⟩ := h
    exact absurd (hfailed.symm.trans hdone) statusFailed_ne_statusDone

/-- R130: what is read of a container adds up to its counts, and its codes are the container's bits. -/
theorem decodeResult_sound {k d : List Byte} {tree : HTree} (hw : walkable k) (hb : HTree.build (containerLeaves k) = some tree)
    (hd : decodeResult k = .ok d) :
    d.length = ((headerEntries k (entryCount k)).map Prod.snd).sum ∧ containerBits k = codeBits tree d := by
  rw [decodeResult_of_walkable hw hb] at hd
  obtain ⟨hread, hcount⟩ := walkResult_eq_ok.1 hd
  have hperm := leafList_perm _ hw.nodup
  have hnodup : ((containerLeaves k).map Prod.fst).Nodup := (hperm.map _).nodup_iff.2 hw.nodup
  obtain ⟨-, -, hsum⟩ := build_leafPairs hb
  exact ⟨by rw [hcount, hsum]; exact (hperm.map Prod.snd).sum_eq, (HTree.codeBits_of_read (build_nodup hb hnodup) hread).symm⟩

/-- A container of `a` once and `b` once whose payload is two codes of `a` (R130: a symbol's own count is not checked). -/
def miscounted : List Byte := [0x06, 0x00, 0x02, 0x61, 0x00, 0x00, 0x00, 0x01, 0x62, 0x00, 0x00, 0x00, 0x01, 0x00]

theorem decodeResult_miscounted : decodeResult miscounted = .ok [0x61, 0x61] := by decide +kernel

/-- Settles O54: a successful DECODE has walked its container's bits to the end, and `miscounted` is read as `a` twice. -/
theorem noSilentWrongAnswer : Obligations.NoSilentWrongAnswer := by
  refine ⟨fun s t k hidle hload hrun hdone => ?sound, ?miscount⟩
  case sound =>
    obtain ⟨t', hrun', hend, -⟩ := decodeComputesTheData s k hidle hload fun d => length_le_of_decode_next hidle hload hrun
    cases hrun.symm.trans hrun'
    obtain ⟨d, hd⟩ := hend.ok_of_done hdone
    have hw := walkable_of_decodeResult hidle hload hd
    obtain ⟨u, tree, -, -, hu⟩ := decode_last_step hidle hload hw
    obtain ⟨hlen, hbits⟩ := decodeResult_sound hw hu.build hd
    rw [hd] at hend
    obtain ⟨-, -, -, houtlen, hout, -⟩ := hend
    exact ⟨tree, d, hu.build, houtlen, hout, hlen, hbits⟩
  case miscount =>
    exact ⟨miscounted, [0x61, 0x61], 0x61, 1, by decide +kernel, by decide +kernel,
      fun s hidle hload hcap => decode_succeeds hidle hload decodeResult_miscounted hcap⟩

end Sys2Proof.Machine
end
